-- ==== Sys2Proof/Word.lean ====
section
/-! DEFINITION. The bit vectors the specification treats as bits: bytes, 32-bit words, slot indices
(00_scope.md R9, R12; 30_encoding.md R90, R92). -/

namespace Sys2Proof

/-- A byte of `ABUF` or of an XOF stream. -/
abbrev Byte := BitVec 8

/-- A u32: a slot word, a bus word, a command word (R12, R21). -/
abbrev Word := BitVec 32

/-- A slot index: an unsigned 8-bit field used as it stands (R92). -/
abbrev Slot := BitVec 8

end Sys2Proof
end

