-- ==== Sys2Proof/Config.lean ====
section
/-! DEFINITION. What is fixed for a block and not state (00_scope.md R19): the constants of R7, R9, R10
and 40_ring.md R111, the parameter record of R8, the arguments about the XOF collaborator (R14,
20_memory.md R78, R81), and the free values (60_exceptions.md R237;
10_state.md R40, R42). -/

namespace Sys2Proof

/-- N, the number of words of a slot (R7). -/
def N : Nat := 256
/-- The modulus, 2^23 - 2^13 + 1 (R9). -/
def Q : Nat := 8380417
/-- 2^32 mod Q (R9). -/
def MONT : Nat := 4193792
/-- -Q^(-1) mod 2^32 (R9). -/
def QINV : Nat := 4236238847
/-- The primitive 512th root of unity (R9). -/
def ROOT : Nat := 1753
/-- The scaling constant of the inverse transform, MONT^2 / 256 mod Q (40_ring.md R111). -/
def INVF : Nat := 41978
/-- The capacity of `ABUF` in bytes (R10). -/
def ABUFCAP : Nat := 1024
/-- The bus address of byte 0 of `ABUF` (20_memory.md R61). -/
def ABUFBASE : Nat := 0x400

/-- The parameter record of R8. The hardware reads the first seven; the last four are the host's. -/
structure Params where
  /-- rows of the matrix -/
  k : Nat
  /-- columns of the matrix -/
  l : Nat
  /-- bound of the short sampler -/
  eta : Nat
  /-- width of a gamma1 field -/
  ybits : Nat
  /-- half the decomposition step -/
  gamma2 : Nat
  /-- bit position of the power-of-two split -/
  d : Nat
  /-- number of nonzero challenge coefficients -/
  tau : Nat
  /-- host only: slack subtracted from the norm bounds -/
  beta : Nat
  /-- host only: maximum hint weight -/
  omega : Nat
  /-- host only: byte length of a seed -/
  seedBytes : Nat
  /-- host only: byte length of the longer hash values -/
  crhBytes : Nat
  deriving DecidableEq, Repr

/-- The two XOF variants (20_memory.md R77). -/
inductive Variant where
  | v128
  | v256
  deriving DecidableEq, Repr

/-- `SQZ_LIMIT`, in ℕ ∪ {∞}: a number of blocks, or no limit (R10, R172). -/
inductive SqzLimit where
  | blocks (n : Nat)
  | unlimited
  deriving DecidableEq, Repr

/-- One listed answer of the XOF collaborator: what `squeeze_block()` number `block` of the session
`(variant, absorbed)` gives, `none` for a reported failure (20_memory.md R77, R81). DESIGN CHOICE (log 2). -/
structure XofReply where
  variant : Variant
  absorbed : List Byte
  block : Nat
  answer : Option (List Byte)
  deriving DecidableEq, Repr

/-- The arguments the specification gives a model of the block (R8, R10, R14, R19, R81).
DESIGN CHOICE (log 1): they stand in `State`, where no step changes them. -/
structure Env where
  params : Params
  sqzLimit : SqzLimit
  /-- listed answers of the collaborator; a request not listed is answered by the free functions below -/
  replies : List XofReply
  deriving DecidableEq, Repr

/-- Byte `n` of the stream `XOFv(m)` where no listed answer gives it: an uninterpreted function (R14, R78; log 2). -/
opaque Config.xofByte : Variant → List Byte → Nat → Byte

/-- The error oracle `xof_fails(v, m, n)` where no listed answer decides it: uninterpreted (R81; log 2). -/
opaque Config.xofFails : Variant → List Byte → Nat → Bool

/-- The unspecified words a session fault leaves in its destination slots (60_exceptions.md R237, U10): free values,
numbered by `State.freeIdx` (log 5). -/
opaque Config.freeWord : Nat → Word

/-- What `SQZCNT` holds after a session of that many blocks, where the number does not fit its 32 bits: a free value
(10_state.md R42 states none; log 10). -/
opaque Config.wideBlocks : Nat → Word

/-- What `REJCNT` holds after a session of that many rejections, where the number does not fit its 32 bits: a free
value (R42 states none; log 10). -/
opaque Config.wideRejects : Nat → Word

/-- What `P_SQZLIM` reads where a finite limit does not fit its 32 bits: a free value (10_state.md R40 states none;
log 10). -/
opaque Config.wideLimit : Nat → Word

end Sys2Proof
end

