-- ==== Sys2Proof/Syntax.lean ====
section
/-! DEFINITION. The command set: one constructor per row of spec/opcode_table.json
(30_encoding.md R90, R91, R95). The operands stand in the order d, a, b of the command word (R98). -/

namespace Sys2Proof

/-- The 22 commands of R95. -/
inductive Instr where
  /-- no operation (47_system.md R221) -/
  | nop
  /-- set the tag of slot d; the field b as it stands in the word, well formed when below 3 (R222, R93) -/
  | settag (d : Slot) (code : BitVec 8)
  /-- forward transform (40_ring.md R112) -/
  | ntt (d a : Slot)
  /-- inverse transform with the final scaling (R114) -/
  | invntt (d a : Slot)
  /-- pointwise Montgomery product (R116) -/
  | pwmul (d a b : Slot)
  /-- coefficient-wise sum (R118) -/
  | add (d a b : Slot)
  /-- coefficient-wise difference a - b (R119) -/
  | sub (d a b : Slot)
  /-- cheap reduction (R120) -/
  | reduce (d a : Slot)
  /-- one conditional subtraction of Q (R121) -/
  | csubq (d a : Slot)
  /-- canonical representative (R122) -/
  | freeze (d a : Slot)
  /-- multiply by 2^D (R123) -/
  | shld (d a : Slot)
  /-- power-of-two rounding: high parts to d, source a, low parts to b (41_rounding.md R142, R94) -/
  | p2r (d a b : Slot)
  /-- decomposition: high parts to d, source a, low parts to b (R145, R94) -/
  | decomp (d a b : Slot)
  /-- norm predicate (R148) -/
  | chknorm (a : Slot)
  /-- row-times-vector accumulate; a and b are bases of runs of L slots (42_vector.md R156) -/
  | pwacc (d a b : Slot)
  /-- expand the whole matrix; d is the base of K·L slots (43_expanda.md R161) -/
  | expmat (d : Slot)
  /-- uniform sampler (44_samplers.md R178) -/
  | sunif (d : Slot)
  /-- eta-bounded sampler (R180) -/
  | seta (d : Slot)
  /-- gamma1-bounded sampler (R183) -/
  | sgam1 (d : Slot)
  /-- sparse challenge sampler (45_challenge.md R201) -/
  | chal (d : Slot)
  /-- make the hint polynomial: low parts a, high parts b (46_hint.md R212) -/
  | mkhint (d a b : Slot)
  /-- apply the hint polynomial: values a, hints b (R214) -/
  | usehint (d a b : Slot)
  deriving DecidableEq, Repr

end Sys2Proof
end

