-- ==== Sys2Proof/WellFormed.lean ====
section
/-! DEFINITION. The instructions that some command word encodes. Slot fields are 8 bits by type, so the one
thing left to check is SETTAG's tag code (30_encoding.md R93, R96). -/

namespace Sys2Proof

/-- R93, R96: SETTAG's code is 0, 1 or 2; every other command is well formed for all its slot indices. -/
def Instr.wellFormed : Instr → Bool
  | .settag _ code => decide (code.toNat < 3)
  | .nop => true
  | .ntt _ _ => true
  | .invntt _ _ => true
  | .pwmul _ _ _ => true
  | .add _ _ _ => true
  | .sub _ _ _ => true
  | .reduce _ _ => true
  | .csubq _ _ => true
  | .freeze _ _ => true
  | .shld _ _ => true
  | .p2r _ _ _ => true
  | .decomp _ _ _ => true
  | .chknorm _ => true
  | .pwacc _ _ _ => true
  | .expmat _ => true
  | .sunif _ => true
  | .seta _ => true
  | .sgam1 _ => true
  | .chal _ => true
  | .mkhint _ _ _ => true
  | .usehint _ _ _ => true

end Sys2Proof
end

