-- ==== Sys2Proof/Decode.lean ====
section
/-! DEFINITION. Decoding of command words, total and strict (30_encoding.md R90, R91, R95, R96), and the encoder
written from the same table. -/

namespace Sys2Proof

/-- The field `op`, bits 31:24 (R90). -/
def opOf (w : Word) : Nat := w.toNat / 2 ^ 24
/-- The field `d`, bits 23:16 (R90). -/
def dOf (w : Word) : Slot := BitVec.ofNat 8 (w.toNat / 2 ^ 16)
/-- The field `a`, bits 15:8 (R90). -/
def aOf (w : Word) : Slot := BitVec.ofNat 8 (w.toNat / 2 ^ 8)
/-- The field `b`, bits 7:0 (R90). -/
def bOf (w : Word) : Slot := BitVec.ofNat 8 w.toNat

/-- Why a word is illegal (R96). -/
inductive DecodeError where
  /-- `op` is not one of the 22 opcodes -/
  | unassignedOpcode
  /-- a field the format does not use is nonzero -/
  | unusedFieldNonzero
  /-- a SETTAG with `b` of 3 or more -/
  | badTagCode
  deriving DecidableEq, Repr

/-- The instruction, if the listed unused fields are all zero (R91). -/
def ifUnusedZero (unused : List Slot) (i : Instr) : Except DecodeError Instr :=
  if unused.all (· == 0) then .ok i else .error .unusedFieldNonzero

/-- Format F0 (R91). -/
def formF0 (w : Word) (i : Instr) : Except DecodeError Instr :=
  ifUnusedZero [dOf w, aOf w, bOf w] i
/-- Format FD (R91). -/
def formFD (w : Word) (f : Slot → Instr) : Except DecodeError Instr :=
  ifUnusedZero [aOf w, bOf w] (f (dOf w))
/-- Format FA (R91). -/
def formFA (w : Word) (f : Slot → Instr) : Except DecodeError Instr :=
  ifUnusedZero [dOf w, bOf w] (f (aOf w))
/-- Format FDA (R91). -/
def formFDA (w : Word) (f : Slot → Slot → Instr) : Except DecodeError Instr :=
  ifUnusedZero [bOf w] (f (dOf w) (aOf w))
/-- Format FDAB (R91). -/
def formFDAB (w : Word) (f : Slot → Slot → Slot → Instr) : Except DecodeError Instr :=
  .ok (f (dOf w) (aOf w) (bOf w))
/-- Format FDT: `a` zero and `b` a tag code 0, 1 or 2 (R91, R93). -/
def formFDT (w : Word) (f : Slot → BitVec 8 → Instr) : Except DecodeError Instr :=
  if aOf w ≠ 0 then .error .unusedFieldNonzero
  else if (bOf w).toNat < 3 then .ok (f (dOf w) (bOf w))
  else .error .badTagCode

/-- The decoder: every word selects exactly one command or is illegal (R95, R96). -/
def decode (w : Word) : Except DecodeError Instr :=
  match opOf w with
  | 0x00 => formF0 w .nop
  | 0x01 => formFDT w .settag
  | 0x10 => formFDA w .ntt
  | 0x11 => formFDA w .invntt
  | 0x12 => formFDAB w .pwmul
  | 0x13 => formFDAB w .add
  | 0x14 => formFDAB w .sub
  | 0x15 => formFDA w .reduce
  | 0x16 => formFDA w .csubq
  | 0x17 => formFDA w .freeze
  | 0x18 => formFDA w .shld
  | 0x20 => formFDAB w .p2r
  | 0x21 => formFDAB w .decomp
  | 0x22 => formFA w .chknorm
  | 0x30 => formFDAB w .pwacc
  | 0x40 => formFD w .expmat
  | 0x41 => formFD w .sunif
  | 0x42 => formFD w .seta
  | 0x43 => formFD w .sgam1
  | 0x50 => formFD w .chal
  | 0x60 => formFDAB w .mkhint
  | 0x61 => formFDAB w .usehint
  | _ => .error .unassignedOpcode

/-- The word `op·2^24 + d·2^16 + a·2^8 + b` (R98). -/
def assemble (op : Nat) (d a b : Slot) : Word :=
  BitVec.ofNat 32 (op * 2 ^ 24 + d.toNat * 2 ^ 16 + a.toNat * 2 ^ 8 + b.toNat)

/-- The encoder, with unused fields 0 (R91, R95, R98). -/
def encode : Instr → Word
  | .nop => assemble 0x00 0 0 0
  | .settag d code => assemble 0x01 d 0 code
  | .ntt d a => assemble 0x10 d a 0
  | .invntt d a => assemble 0x11 d a 0
  | .pwmul d a b => assemble 0x12 d a b
  | .add d a b => assemble 0x13 d a b
  | .sub d a b => assemble 0x14 d a b
  | .reduce d a => assemble 0x15 d a 0
  | .csubq d a => assemble 0x16 d a 0
  | .freeze d a => assemble 0x17 d a 0
  | .shld d a => assemble 0x18 d a 0
  | .p2r d a b => assemble 0x20 d a b
  | .decomp d a b => assemble 0x21 d a b
  | .chknorm a => assemble 0x22 0 a 0
  | .pwacc d a b => assemble 0x30 d a b
  | .expmat d => assemble 0x40 d 0 0
  | .sunif d => assemble 0x41 d 0 0
  | .seta d => assemble 0x42 d 0 0
  | .sgam1 d => assemble 0x43 d 0 0
  | .chal d => assemble 0x50 d 0 0
  | .mkhint d a b => assemble 0x60 d a b
  | .usehint d a b => assemble 0x61 d a b

/-- One row of the opcode table as R95 prints it. -/
structure OpcodeRow where
  mnemonic : String
  pattern : Word
  mask : Word
  deriving DecidableEq, Repr

/-- R95's columns "match" and "mask", transcribed; the decoder above does not read them. -/
def opcodeTable : List OpcodeRow :=
  [⟨"NOP", 0x00000000, 0xFFFFFFFF⟩, ⟨"SETTAG", 0x01000000, 0xFF00FFFC⟩,
   ⟨"NTT", 0x10000000, 0xFF0000FF⟩, ⟨"INVNTT", 0x11000000, 0xFF0000FF⟩,
   ⟨"PWMUL", 0x12000000, 0xFF000000⟩, ⟨"ADD", 0x13000000, 0xFF000000⟩,
   ⟨"SUB", 0x14000000, 0xFF000000⟩, ⟨"REDUCE", 0x15000000, 0xFF0000FF⟩,
   ⟨"CSUBQ", 0x16000000, 0xFF0000FF⟩, ⟨"FREEZE", 0x17000000, 0xFF0000FF⟩,
   ⟨"SHLD", 0x18000000, 0xFF0000FF⟩] ++
  [⟨"P2R", 0x20000000, 0xFF000000⟩, ⟨"DECOMP", 0x21000000, 0xFF000000⟩,
   ⟨"CHKNORM", 0x22000000, 0xFFFF00FF⟩, ⟨"PWACC", 0x30000000, 0xFF000000⟩,
   ⟨"EXPMAT", 0x40000000, 0xFF00FFFF⟩, ⟨"SUNIF", 0x41000000, 0xFF00FFFF⟩,
   ⟨"SETA", 0x42000000, 0xFF00FFFF⟩, ⟨"SGAM1", 0x43000000, 0xFF00FFFF⟩,
   ⟨"CHAL", 0x50000000, 0xFF00FFFF⟩, ⟨"MKHINT", 0x60000000, 0xFF000000⟩,
   ⟨"USEHINT", 0x61000000, 0xFF000000⟩]

/-- R232: a word is legal iff some row has `w & mask = match` and, for SETTAG, the field `b` is not 3. -/
def legalWord (w : Word) : Bool :=
  opcodeTable.any fun r => (w &&& r.mask) == r.pattern && !(r.mnemonic == "SETTAG" && bOf w == 3)

/-- The instruction the decoder reads from a table word of `nbits` bits. Every command is one 32-bit word (R90, R97),
the data of a write to `CMD`; a shorter row would have zeros above `nbits`. -/
def decodeTableWord (nbits w : Nat) : Option Instr :=
  if nbits ≤ 32 then
    match decode (BitVec.ofNat 32 (w % 2 ^ nbits)) with
    | .ok i => some i
    | .error _ => none
  else none

end Sys2Proof
end

