-- ==== Sys2Proof/Machine/State.lean ====
section
/-! DEFINITION. The state of NTT-PM (10_state.md R20), the reasons a step can stop, and the reset state (R46). -/

namespace Sys2Proof.Machine

/-- A ring element: the 256 words of one slot (R21). -/
abbrev Poly := Vector Word 256

/-- A slot's domain tag (R23). -/
inductive Tag where
  | none
  | std
  | ntt
  deriving DecidableEq, Repr

/-- The eight causes a command can fault with (60_exceptions.md R231). These are recorded in the state, and the machine
goes on; they are not the model's `Fault`. -/
inductive FaultCode where
  | illegal
  | uninit
  | domain
  | range
  | alen
  | nonce
  | xofLim
  | xofErr
  deriving DecidableEq, Repr

/-- Why the bus answers an access with an error, all the causes of 20_memory.md R69. -/
inductive BusError where
  /-- not a 32-bit access (R66) -/
  | notWord
  /-- the address is not a multiple of 4 (R66) -/
  | misaligned
  /-- no register, buffer byte or slot word stands there (R68) -/
  | unassigned
  /-- a write to a read-only register (10_state.md R29) -/
  | readOnly
  /-- a write to `CMD` while `FAULT` is 1 (R33, 60_exceptions.md R239) -/
  | cmdWhileFault
  deriving DecidableEq, Repr

/-- One operation of the world outside the block: a host bus access of `bytes` bytes at a 19-bit byte address
(R60, R66, 30_encoding.md R104), or the platform's reset signal (70_reset_and_hazards.md R260; log 9). -/
inductive HostOp where
  | read (addr : BitVec 19) (bytes : Nat)
  | write (addr : BitVec 19) (bytes : Nat) (data : Word)
  | hardReset
  deriving DecidableEq, Repr

/-- The machine stops with no next state. -/
inductive Fault where
  /-- A stream command under an infinite `SQZ_LIMIT` whose session never ends: the `CMD` write is never acknowledged
  (20_memory.md R70, 44_samplers.md R185, 70_reset_and_hazards.md R273; 93_implementation_defined.md U1: "the command
  is `stuck`", and stuck means "the model has no next state"). Raised by EXPMAT, SUNIF, SETA and CHAL, never by SGAM1,
  whose session always ends (R183); safe (log 6). -/
  | commandNeverEnds
  deriving DecidableEq, Repr

/-- The model gives no meaning to what the host asks. -/
inductive Refusal where
  /-- An instruction without a meaning, by its mnemonic; raised by no arm of the finished dispatch; safe. -/
  | notModelled (mnemonic : String)
  /-- The host's access got a bus error: "a model treats a program that incurs one as refused"
  (R69). Raised by the host's bus access; safe (log 4). -/
  | busError (cause : BusError)
  /-- The parameter record breaks a constraint of 00_scope.md R8: "is refused by the model: it describes no
  hardware". Raised by every step; safe (log 8). -/
  | illegalParams
  deriving DecidableEq, Repr

/-- Everything R20 gives the machine, then the model's own fields (INVENTORY.md, State). -/
structure State where
  /-- the slot file `P` (R20, R21) -/
  slots : Vector Poly 256
  /-- the slots' tags (R23) -/
  tags : Vector Tag 256
  /-- the absorb buffer `ABUF` as cells at bus byte addresses 0x00400 to 0x007FF; an address not listed reads 0 (R36, R46) -/
  mem : List Host.Cell
  /-- `ALEN` (R35) -/
  alen : BitVec 11
  /-- `NONCE` (R37) -/
  nonce : BitVec 16
  /-- `BOUND` (R38) -/
  bound : Word
  /-- `HINTCNT` (R39) -/
  hintcnt : Word
  /-- `CMDCNT` (R34) -/
  cmdcnt : Word
  /-- `SQZCNT` (R42) -/
  sqzcnt : Word
  /-- `REJCNT` (R42) -/
  rejcnt : Word
  /-- `FCODE` (R41) -/
  fcode : BitVec 4
  /-- `FINFO` (R41) -/
  finfo : Word
  /-- `STATUS.FAULT` (R31) -/
  fault : Bool
  /-- `STATUS.REJ` (R31) -/
  rej : Bool
  /-- `STATUS.NORM` (R31) -/
  norm : Bool
  /-- `STATUS.NOVF` (R31, R37) -/
  novf : Bool
  /-- MODEL: the host operations not yet performed (30_encoding.md R104; log 3) -/
  pending : List HostOp
  /-- MODEL: the values the host has read, oldest first (70_reset_and_hazards.md R273; log 3) -/
  reads : List Word
  /-- MODEL: the arguments of the model, which no step changes (00_scope.md R19; log 1) -/
  env : Env
  /-- MODEL: how many free values have been handed out (60_exceptions.md R237; log 5) -/
  freeIdx : Nat
  deriving DecidableEq, Repr

/-- The test configuration T0 (00_scope.md R11). -/
def paramsT0 : Params where
  k := 5
  l := 4
  eta := 5
  ybits := 20
  gamma2 := 261888
  d := 14
  tau := 60
  beta := 275
  omega := 96
  seedBytes := 32
  crhBytes := 48

/-- The arguments the reset state stands in: T0 of R11, the block limit of R10, no listed answers.
DESIGN CHOICE (log 1, log 2): the specification leaves them open. -/
def envT0 : Env where
  params := paramsT0
  sqzLimit := .blocks 65535
  replies := []

/-- The state right after reset (10_state.md R46, 70_reset_and_hazards.md R260). -/
def State.reset : State where
  slots := Vector.replicate 256 (Vector.replicate 256 0)
  tags := Vector.replicate 256 .none
  mem := []
  alen := 0
  nonce := 0
  bound := 0
  hintcnt := 0
  cmdcnt := 0
  sqzcnt := 0
  rejcnt := 0
  fcode := 0
  finfo := 0
  fault := false
  rej := false
  norm := false
  novf := false
  pending := []
  reads := []
  env := envT0
  freeIdx := 0

end Sys2Proof.Machine
end

