-- ==== Sys2Proof/Machine/Arith.lean ====
section
/-! DEFINITION. The arithmetic every family shares: the helpers of 00_scope.md R15, the twiddles of 40_ring.md R111,
the splits of 41_rounding.md R141, the norm value of R148, and word-wise maps over ring elements. -/

namespace Sys2Proof.Machine

/-! ## Ring elements as 256 words (10_state.md R21) -/

/-- The words of a ring element, index 0 first. -/
def Poly.words (p : Poly) : List Word := p.toList

/-- Word `i` (`P[s][i]` once the slot is read, R13); indices 256 and above do not occur and read 0. -/
def Poly.word (p : Poly) (i : Nat) : Word := p.words.getD i 0

/-- The first 256 words of a list, zeros where it is shorter. -/
def padTo : Nat → List Word → List Word
  | 0, _ => []
  | n + 1, [] => 0 :: padTo n []
  | n + 1, w :: ws => w :: padTo n ws

theorem length_padTo (n : Nat) (l : List Word) : (padTo n l).length = n := by
  induction n generalizing l with
  | zero => rfl
  | succ n ih => cases l <;> simp [padTo, ih]

/-- A ring element from the list of its words. -/
def Poly.ofList (l : List Word) : Poly := ⟨⟨padTo 256 l⟩, length_padTo 256 l⟩

/-- `for i: r[i] = f(p[i])`. -/
def Poly.mapWords (f : Word → Word) (p : Poly) : Poly := Poly.ofList (p.words.map f)

/-- `for i: r[i] = f(p[i], q[i])`. -/
def Poly.zipWords (f : Word → Word → Word) (p q : Poly) : Poly :=
  Poly.ofList (List.zipWith f p.words q.words)

/-! ## Reductions (R15) -/

/-- Montgomery reduction of a u64 at radix 2^32. -/
def mr (a : Nat) : Word :=
  BitVec.ofNat 32 ((a + (a * QINV % 2 ^ 32) * Q) % 2 ^ 64 / 2 ^ 32)

/-- The Montgomery product of two words: the exact 64-bit product through `mr` (R124). -/
def mulMr (x y : Word) : Word := mr (x.toNat * y.toNat)

/-- The cheap reduction. -/
def reduce32 (w : Word) : Word :=
  BitVec.ofNat 32 (w.toNat % 2 ^ 23 + w.toNat / 2 ^ 23 * 8191)

/-- One conditional subtraction of Q. -/
def csubq (w : Word) : Word :=
  let d := w - BitVec.ofNat 32 Q
  if d.toNat ≥ 2 ^ 31 then d + BitVec.ofNat 32 Q else d

/-- The canonical representative. -/
def freeze (w : Word) : Word := csubq (reduce32 w)

/-- `(x + 2Q - y) mod 2^32`, the difference of NTT and SUB (40_ring.md R112, R119). -/
def subOffset (x y : Word) : Word := x + BitVec.ofNat 32 (2 * Q) - y

/-! ## Twiddles (40_ring.md R111) -/

/-- The 8-bit bit reversal (R12). -/
def brv8 (k : Nat) : Nat :=
  (List.range 8).foldl (fun acc i => acc + k / 2 ^ i % 2 * 2 ^ (7 - i)) 0

/-- `zetas[k] = MONT·ROOT^brv8(k) mod Q`; the formula is the definition (R126). -/
def zeta (k : Nat) : Nat := MONT * ROOT ^ brv8 k % Q

/-- `zetas_inv[k] = Q - zetas[255 - k]`, for k of 0 to 254. -/
def zetaInv (k : Nat) : Nat := Q - zeta (255 - k)

/-! ## Splits (41_rounding.md R141) -/

/-- The centred remainder `x mod± m` for even m: the r ≡ x with -m/2 < r ≤ m/2 (R12). -/
def centred (x : Int) (m : Nat) : Int :=
  let r := x % (m : Int)
  if 2 * r > (m : Int) then r - (m : Int) else r

/-- `Power2Round(w)` at bit position `d`: (hi, lo). -/
def power2Round (d : Nat) (w : Nat) : Int × Int :=
  let lo := centred (w : Int) (2 ^ d)
  (((w : Int) - lo) / ((2 ^ d : Nat) : Int), lo)

/-- `Decompose(w)` at step ALPHA = 2·GAMMA2: (r1, r0). -/
def decompose (gamma2 : Nat) (w : Nat) : Int × Int :=
  let r0 := centred (w : Int) (2 * gamma2)
  if (w : Int) - r0 = (Q : Int) - 1 then (0, r0 - 1)
  else (((w : Int) - r0) / ((2 * gamma2 : Nat) : Int), r0)

/-- The word that stores an integer, modulo 2^32. -/
def wordOfInt (x : Int) : Word := BitVec.ofInt 32 x

/-! ## Norm (41_rounding.md R148) -/

/-- The value `v` that CHKNORM compares: the centred absolute value of a canonical word. -/
def normValue (w : Word) : Word :=
  let h : Int := ((Q - 1) / 2 : Nat)
  let t := (wordOfInt (h - (w.toNat : Int))).toInt
  let t := if t < 0 then -t - 1 else t
  wordOfInt (h - t)

end Sys2Proof.Machine

namespace Sys2Proof

/-! ## Parameters (00_scope.md R8) -/

/-- `ALPHA = 2·GAMMA2`. -/
def Params.alpha (p : Params) : Nat := 2 * p.gamma2
/-- `M = (Q-1)/ALPHA`. -/
def Params.m (p : Params) : Nat := (Q - 1) / p.alpha
/-- `GAMMA1 = 2^(YBITS-1)`. -/
def Params.gamma1 (p : Params) : Nat := 2 ^ (p.ybits - 1)

/-- The least fixed byte length of a lossless single-polynomial packing of 256 coefficients below M: the least n with
`M^256 ≤ 256^n`, which is `M^32 ≤ 2^n` (45_challenge.md R203; DEDUCED, log 11; Laws/Arith.lean,
`packedPolyBytes_le_iff`). -/
def Params.packedPolyBytes (p : Params) : Nat := (p.m ^ 32 - 1).log2 + 1

/-- The least byte length of `pack(w1)`, K polynomials packed one by one (R203; DEDUCED, log 11). -/
def Params.packedBytes (p : Params) : Nat := p.k * p.packedPolyBytes

/-- The constraints of R8's table. The last two are its "sum of absorb string ≤ 1024", for the two strings whose lengths
the record fixes: `rho`, and `mu ‖ pack(w1)` (45_challenge.md R203; DEDUCED, log 11). -/
def Params.legal (p : Params) : Bool :=
  decide (1 ≤ p.k ∧ p.k ≤ 255 ∧ 1 ≤ p.l ∧ p.l ≤ 255 ∧ p.k * p.l ≤ 256 ∧
    1 ≤ p.eta ∧ p.eta ≤ 7 ∧ 2 ≤ p.ybits ∧ p.ybits ≤ 23 ∧
    (Q - 1) % p.alpha = 0 ∧ 2 ≤ p.m ∧ 1 ≤ p.d ∧ p.d ≤ 22 ∧ 1 ≤ p.tau ∧ p.tau ≤ 64 ∧
    p.seedBytes ≤ ABUFCAP ∧ p.crhBytes + p.packedBytes ≤ ABUFCAP)

end Sys2Proof
end

