-- ==== Sys2Proof/Machine/Ops.lean ====
section
/-! DEFINITION. The named operations over the state: the byte memory of `ABUF`, slots and tags, taking a fault and
returning from it, completing a command, reset. -/

namespace Sys2Proof.Machine

/-! ## Bytes -/

/-- A byte string as a number, first byte least significant (20_memory.md R62). -/
def leNat : List Byte → Nat
  | [] => 0
  | b :: bs => b.toNat + 256 * leNat bs

/-- The four bytes of a word, low byte first (R62). -/
def wordBytes (w : Word) : List Byte :=
  (List.range 4).map fun n => BitVec.ofNat 8 (w.toNat / 2 ^ (8 * n))

/-- `LE16(n)` (00_scope.md R12). -/
def le16 (n : BitVec 16) : List Byte :=
  [BitVec.ofNat 8 (n.toNat % 256), BitVec.ofNat 8 (n.toNat / 256)]

/-! ## The byte memory -/

/-- One byte of memory; an address that no cell lists holds the reset value 0 (10_state.md R46). -/
def Memory.read (m : List Host.Cell) (a : Nat) : Byte :=
  match m.find? (fun c => c.1 == a) with
  | some c => c.2
  | none => 0

/-- The cells that hold the nonzero bytes of a string laid out from address `a` upwards. -/
def Memory.cellsFrom : Nat → List Byte → List Host.Cell
  | _, [] => []
  | a, b :: bs =>
    if b = 0 then Memory.cellsFrom (a + 1) bs else (a, b) :: Memory.cellsFrom (a + 1) bs

/-- Store a byte string from address `a` upwards. -/
def Memory.write (m : List Host.Cell) (a : Nat) (bs : List Byte) : List Host.Cell :=
  m.filter (fun c => decide (c.1 < a)) ++
    (Memory.cellsFrom a bs ++ m.filter (fun c => decide (a + bs.length ≤ c.1)))

/-- The canonical form: addresses strictly rising, all of them `ABUF`'s, no cell that holds the value an unlisted
address reads as. -/
def Memory.wf (m : List Host.Cell) : Bool :=
  decide (m.Pairwise fun x y => x.1 < y.1) &&
    m.all fun c => c.2 != 0 && decide (ABUFBASE ≤ c.1 ∧ c.1 < ABUFBASE + ABUFCAP)

/-- `ABUF[n]` (10_state.md R36). -/
def State.abuf (s : State) (n : Nat) : Byte := Memory.read s.mem (ABUFBASE + n)

/-- `ABUF[0..ALEN)` (44_samplers.md R173). -/
def State.absorbed (s : State) : List Byte :=
  (List.range s.alen.toNat).map s.abuf

/-! ## Slots and tags (10_state.md R21 to R26) -/

/-- One element of a vector replaced; an index past the end replaces nothing (none occurs: R25, R92). -/
def setAt {α : Type} {n : Nat} (v : Vector α n) (k : Nat) (x : α) : Vector α n :=
  ⟨⟨v.toList.set k x⟩, by simp⟩

/-- `P[k]` (00_scope.md R13). -/
def State.poly (s : State) (k : Nat) : Poly := s.slots.toList.getD k (Vector.replicate 256 0)

/-- `P[k][i]`. -/
def State.word (s : State) (k i : Nat) : Word := (s.poly k).word i

/-- `tag[k]`. -/
def State.tag (s : State) (k : Nat) : Tag := s.tags.toList.getD k .none

/-- `P[k] <- p ; tag[k] <- t`. -/
def State.setSlot (s : State) (k : Nat) (p : Poly) (t : Tag) : State :=
  { s with slots := setAt s.slots k p, tags := setAt s.tags k t }

/-- `tag[k] <- t`, the words unchanged (47_system.md R222). -/
def State.setTag (s : State) (k : Nat) (t : Tag) : State :=
  { s with tags := setAt s.tags k t }

/-- `P[k][i] <- w`, the tag unchanged (20_memory.md R65). -/
def State.setWord (s : State) (k i : Nat) (w : Word) : State :=
  { s with slots := setAt s.slots k (setAt (s.poly k) i w) }

/-- The tag a code of SETTAG names (30_encoding.md R93). -/
def tagOfCode (code : BitVec 8) : Option Tag :=
  match code.toNat with
  | 0 => some .none
  | 1 => some .std
  | 2 => some .ntt
  | _ => none

/-! ## Faults (60_exceptions.md) -/

/-- The code `FCODE` holds (R231). -/
def FaultCode.code : FaultCode → BitVec 4
  | .illegal => 1
  | .uninit => 2
  | .domain => 3
  | .range => 4
  | .alen => 5
  | .nonce => 6
  | .xofLim => 7
  | .xofErr => 8

/-- Fault entry (R236): `FAULT <- 1 ; FCODE <- the code ; FINFO <- the command word`, and nothing else. -/
def State.raise (s : State) (c : FaultCode) (w : Word) : State :=
  { s with fault := true, fcode := c.code, finfo := w }

/-- Fault return, `CTRL.CLRFAULT` (R240): nothing is restored, because nothing was saved. -/
def State.clearFault (s : State) : State :=
  { s with fault := false, fcode := 0, finfo := 0 }

/-- The 256 free words numbered from `n` (R237, U10; log 5). -/
def freePoly (n : Nat) : Poly := Poly.ofList ((List.range 256).map fun i => Config.freeWord (n + i))

/-- A destination slot of a command whose session faulted: tag `NONE`, words unspecified (R237). -/
def State.scrapSlot (s : State) (k : Nat) : State :=
  { s.setSlot k (freePoly s.freeIdx) .none with freeIdx := s.freeIdx + 256 }

/-- Session abort (R237, 44_samplers.md R176, 43_expanda.md R165): every destination slot is scrapped, then fault
entry. -/
def State.abort (s : State) (c : FaultCode) (w : Word) (dests : List Nat) : State :=
  (dests.foldl State.scrapSlot s).raise c w

/-- A command completes: `CMDCNT <- (CMDCNT + 1) mod 2^32` (10_state.md R34). -/
def State.complete (s : State) : State := { s with cmdcnt := s.cmdcnt + 1 }

/-- The first cause in a list of checks, each with whether it is violated, in priority order (R238). -/
def firstViolated : List (FaultCode × Bool) → Option FaultCode
  | [] => none
  | (c, violated) :: rest => if violated then some c else firstViolated rest

/-- The template of a command (00_scope.md R16): the first violated check faults with nothing else changed; without one
the effect happens and the command completes. `FINFO` gets the command word, which is `encode i` (log 12). -/
def runCommand (i : Instr) (checks : List (FaultCode × Bool)) (effect : State → State) (s : State) :
    Host.Outcome State Fault Refusal :=
  match firstViolated checks with
  | some c => .next (s.raise c (encode i))
  | none => .next (effect s).complete

/-! ## Reset (70_reset_and_hazards.md R260, R261) -/

/-- Every piece of architectural state to its value of 10_state.md R46; the host's list and readings, the arguments and
the number of free values handed out are no state of the block (log 9). -/
def State.resetBlock (s : State) : State :=
  { State.reset with pending := s.pending, reads := s.reads, env := s.env, freeIdx := s.freeIdx }

end Sys2Proof.Machine
end

