-- ==== Sys2Proof/Machine/Flags.lean ====
section
/-! DEFINITION. The flags of `STATUS` and the counters that commands write as a side effect (10_state.md R31, R32,
R37, R39, R42, R43). -/

namespace Sys2Proof.Machine

/-- A bit as a number. -/
def bit (b : Bool) : Nat := if b then 1 else 0

/-- `STATUS`: FAULT, REJ, NORM, NOVF in bits 0 to 3, the rest zero (R31). -/
def State.status (s : State) : Word :=
  BitVec.ofNat 32 (bit s.fault + 2 * bit s.rej + 4 * bit s.norm + 8 * bit s.novf)

/-- `NORM <- hit ; REJ <- REJ or hit`, for the `over` of R148. -/
def State.setNorm (s : State) (hit : Bool) : State :=
  { s with norm := hit, rej := s.rej || hit }

/-- `CTRL.CLRREJ`: `REJ <- 0 ; NORM <- 0` (R32). -/
def State.clearRej (s : State) : State := { s with rej := false, norm := false }

/-- `HINTCNT <- (HINTCNT + n) mod 2^32` (R39). -/
def State.addHints (s : State) (n : Nat) : State :=
  { s with hintcnt := s.hintcnt + BitVec.ofNat 32 n }

/-- `CTRL.CLRHINT`: `HINTCNT <- 0` (R32). -/
def State.clearHints (s : State) : State := { s with hintcnt := 0 }

/-- A number put into a 32-bit register with no `mod 2^32` in its rule: the number where it fits, and a free value
where it does not (00_scope.md R12; log 10). -/
def fitWord (wide : Nat → Word) (n : Nat) : Word := if n < 2 ^ 32 then BitVec.ofNat 32 n else wide n

/-- `SQZCNT <- blocks ; REJCNT <- rejected` (R42). -/
def State.recordStream (s : State) (blocks rejected : Word) : State :=
  { s with sqzcnt := blocks, rejcnt := rejected }

/-- The counters of a command of one session: SUNIF, SETA, SGAM1, CHAL (R42, 44_samplers.md R175). -/
def State.recordSession (s : State) (nblk rej : Nat) : State :=
  s.recordStream (fitWord Config.wideBlocks nblk) (fitWord Config.wideRejects rej)

/-- The post-increment of `NONCE`, with `NOVF` set on the wrap (R37, 44_samplers.md R175). -/
def State.bumpNonce (s : State) : State :=
  { s with novf := s.novf || s.nonce == 0xFFFF, nonce := s.nonce + 1 }

end Sys2Proof.Machine
end

