-- ==== Sys2Proof/Machine/Operands.lean ====
section
/-! DEFINITION. Slot operands and the checks on them: runs of slots (10_state.md R25, 30_encoding.md R92) and tags
(R23, R24, 60_exceptions.md R233, R234). -/

namespace Sys2Proof.Machine

/-- The `n` consecutive slots from `base` (R25). -/
def slotRun (base : Slot) (n : Nat) : List Nat := (List.range n).map (base.toNat + ·)

/-- A run of `n` slots from `base` passes slot 255: `base + n - 1 > 255` (R234). -/
def passesEnd (base : Slot) (n : Nat) : Bool := decide (255 < base.toNat + n - 1)

/-- Some source slot is tagged `NONE`: `F_UNINIT`, whatever the command accepts (R233). -/
def State.anyUntagged (s : State) (srcs : List Nat) : Bool := srcs.any fun k => s.tag k == .none

/-- Some source slot has a tag other than `t`: `F_DOMAIN` for a command that accepts `t` only (R233). -/
def State.anyNot (s : State) (t : Tag) (srcs : List Nat) : Bool := srcs.any fun k => s.tag k != t

/-- The checks of a command whose sources must all be tagged `t` (40_ring.md R110, 41_rounding.md R140,
46_hint.md R211). -/
def State.sourceChecks (s : State) (t : Tag) (srcs : List Nat) : List (FaultCode × Bool) :=
  [(.uninit, s.anyUntagged srcs), (.domain, s.anyNot t srcs)]

/-- The check of a command that accepts either domain (R110, R120 to R123). -/
def State.taggedChecks (s : State) (srcs : List Nat) : List (FaultCode × Bool) :=
  [(.uninit, s.anyUntagged srcs)]

/-- The checks of ADD and SUB: tagged, and both alike (R118, R233). -/
def State.sameTagChecks (s : State) (a b : Nat) : List (FaultCode × Bool) :=
  [(.uninit, s.anyUntagged [a, b]), (.domain, s.tag a != s.tag b)]

/-- `ALEN` above the capacity of `ABUF` (R235). -/
def State.alenTooLong (s : State) : Bool := decide (ABUFCAP < s.alen.toNat)

end Sys2Proof.Machine
end

