-- ==== Sys2Proof/Machine/Stream.lean ====
section
/-! DEFINITION. The stream machine that EXPMAT, SUNIF, SETA, SGAM1 and CHAL share (44_samplers.md R170 to R176): one
XOF session, its byte fetch, and how a stream command ends. Its working state is local to the command
(10_state.md R44). -/

namespace Sys2Proof

/-- The block size in bytes (00_scope.md R9). -/
def Variant.rate : Variant → Nat
  | .v128 => 168
  | .v256 => 136

namespace Env

/-- The collaborator's listed answer for a block, if there is one (log 2). -/
def reply (e : Env) (v : Variant) (m : List Byte) (block : Nat) : Option XofReply :=
  e.replies.find? fun r => r.block == block && (r.variant == v && r.absorbed == m)

/-- `xof_fails(v, m, n)` (20_memory.md R81). -/
def squeezeFails (e : Env) (v : Variant) (m : List Byte) (block : Nat) : Bool :=
  match e.reply v m block with
  | some r => r.answer == none
  | none => Config.xofFails v m block

/-- `XOFv(m)[n]`: byte n of the stream, which block n / RATE carries (R78). -/
def streamByte (e : Env) (v : Variant) (m : List Byte) (n : Nat) : Byte :=
  match e.reply v m (n / v.rate) with
  | some r =>
    match r.answer with
    | some bytes => bytes.getD (n % v.rate) (Config.xofByte v m n)
    | none => Config.xofByte v m n
  | none => Config.xofByte v m n

/-- `nblk = SQZ_LIMIT` (44_samplers.md R172); never so without a limit. -/
def atLimit (e : Env) (nblk : Nat) : Bool :=
  match e.sqzLimit with
  | .blocks n => nblk == n
  | .unlimited => false

end Env

namespace Machine

/-- How a session ends (R171): in `S_COMMIT` with a result, in `S_ABORT` with a code, or never (R185). -/
inductive Ended (α : Type) where
  | done (x : α)
  | aborted (c : FaultCode)
  | unending
  deriving DecidableEq, Repr

/-- A result carried on. -/
def Ended.map {α β : Type} (f : α → β) : Ended α → Ended β
  | .done x => .done (f x)
  | .aborted c => .aborted c
  | .unending => .unending

/-- One stop test and, if the session goes on, one byte: the phases `S_PARSE` and `S_FETCH` of R171. `stop` is the
profile's stop condition and `feed` its parse rule advanced by one byte; `cur` counts the bytes consumed, `nblk` the
blocks squeezed. The fetch is `next()` of R172: the limit is tested before the squeeze. The answer is how the session
ends, or the block count and the working state it goes on with. -/
def sessionStep {σ : Type} (e : Env) (v : Variant) (m : List Byte) (stop : σ → Bool) (feed : σ → Byte → σ)
    (cur nblk : Nat) (st : σ) : Ended (σ × Nat) ⊕ (Nat × σ) :=
  if stop st then .inl (.done (st, nblk))
  else if cur = nblk * v.rate then
    if e.atLimit nblk then .inl (.aborted .xofLim)
    else if e.squeezeFails v m nblk then .inl (.aborted .xofErr)
    else .inr (nblk + 1, feed st (e.streamByte v m cur))
  else .inr (nblk, feed st (e.streamByte v m cur))

/-- A session followed for at most `fuel` stop tests. -/
def session {σ : Type} (e : Env) (v : Variant) (m : List Byte) (stop : σ → Bool) (feed : σ → Byte → σ) :
    (fuel cur nblk : Nat) → σ → Ended (σ × Nat)
  | 0, _, _, _ => .unending
  | fuel + 1, cur, nblk, st =>
    match sessionStep e v m stop feed cur nblk st with
    | .inl r => r
    | .inr (nblk, st) => session e v m stop feed fuel (cur + 1) nblk st

/-- A session followed to its end, however far that is; `none` if it has none. "With `SQZ_LIMIT = ∞` a model must treat
these commands as partial functions of the stream" (R185): this is that partial function, a least fixed point. -/
def follow {σ : Type} (e : Env) (v : Variant) (m : List Byte) (stop : σ → Bool) (feed : σ → Byte → σ)
    (cur nblk : Nat) (st : σ) : Option (Ended (σ × Nat)) :=
  match sessionStep e v m stop feed cur nblk st with
  | .inl r => some r
  | .inr (nblk, st) => follow e v m stop feed (cur + 1) nblk st
partial_fixpoint

/-- A session from its first byte, `S_ABSORB` (R171). A limited session fetches no more bytes than its limit's blocks
hold, so it ends within one stop test more (20_memory.md R70; Laws/Stream.lean, `openSession_ends`); without a limit the
session is followed to its end, or never ends (log 6). -/
def openSession {σ : Type} (e : Env) (v : Variant) (m : List Byte) (stop : σ → Bool) (feed : σ → Byte → σ)
    (start : σ) : Ended (σ × Nat) :=
  match e.sqzLimit with
  | .blocks n => session e v m stop feed (v.rate * n + 1) 0 0 start
  | .unlimited => (follow e v m stop feed 0 0 start).getD .unending

/-- What a session leaves for the commit: the 256 words, the blocks squeezed, the candidates rejected. -/
structure Sample where
  out : Poly
  nblk : Nat
  rej : Nat
  deriving DecidableEq, Repr

/-- The state after a stream command's session: commit and completion (R175), or abort (R176). An unending session
under a finite limit does not occur (Laws/Stream.lean, `openSession_ends`). -/
def State.closeStream {α : Type} (s : State) (i : Instr) (dests : List Nat) (commit : State → α → State) :
    Ended α → State
  | .done x => (commit s x).complete
  | .aborted c => s.abort c (encode i) dests
  | .unending => s.abort .xofLim (encode i) dests

/-- The outcome of a stream command whose decode-time checks passed. "With a finite `SQZ_LIMIT` every command ends";
without one, a session that never ends leaves the machine stuck: the `CMD` write is never acknowledged (20_memory.md
R70, R185, U1; log 6). -/
def streamOutcome {α : Type} (i : Instr) (dests : List Nat) (commit : State → α → State) (r : Ended α)
    (s : State) : Host.Outcome State Fault Refusal :=
  match s.env.sqzLimit with
  | .blocks _ => .next (s.closeStream i dests commit r)
  | .unlimited =>
    match r with
    | .unending => .fault .commandNeverEnds
    | _ => .next (s.closeStream i dests commit r)

/-- The template of a stream command: decode-time checks before any XOF transaction (R174), then the session. -/
def runStream {α : Type} (i : Instr) (checks : List (FaultCode × Bool)) (dests : List Nat)
    (commit : State → α → State) (r : Ended α) (s : State) : Host.Outcome State Fault Refusal :=
  match firstViolated checks with
  | some c => .next (s.raise c (encode i))
  | none => streamOutcome i dests commit r s

/-- The checks of SUNIF, SETA and SGAM1 (R174). -/
def State.seedChecks (s : State) : List (FaultCode × Bool) :=
  [(.alen, s.alenTooLong), (.nonce, s.novf)]

/-- The absorbed string of SUNIF, SETA and SGAM1: seed, then the nonce little-endian (R173). -/
def State.seedString (s : State) : List Byte := s.absorbed ++ le16 s.nonce

/-- The commit of SUNIF, SETA and SGAM1, all at once (R175). -/
def commitSeed (d : Nat) (t : Tag) (s : State) (x : Sample) : State :=
  ((s.setSlot d x.out t).recordSession x.nblk x.rej).bumpNonce

end Machine

end Sys2Proof
end

