-- ==== Sys2Proof/Machine/Challenge.lean ====
section
/-! DEFINITION. The sparse challenge sampler: CHAL (45_challenge.md R201). -/

namespace Sys2Proof.Machine

/-- The working state of R201: how many of the 8 sign bytes are read, the sign bits not yet used, the words `c`, the
index `i`, the number of resampled bytes. -/
structure Shuffle where
  header : Nat
  signs : Nat
  c : List Word
  i : Nat
  rej : Nat
  deriving DecidableEq, Repr

/-- The start: all words 0, `i = 256 - TAU`. -/
def Shuffle.start (p : Params) : Shuffle := ⟨0, 0, List.replicate 256 0, 256 - p.tau, 0⟩

/-- The stop condition: every index up to 255 is done. -/
def Shuffle.over (x : Shuffle) : Bool := x.header == 8 && decide (256 ≤ x.i)

/-- The word that stores the sign bit's unit: -1 as Q - 1, or 1. -/
def unitOf (signs : Nat) : Word := if signs % 2 = 1 then BitVec.ofNat 32 (Q - 1) else 1

/-- The parse rule of R201 advanced by one byte: eight sign bytes, first least significant; then positions, where
`b > i` resamples and `b <= i` does `c[i] = c[b] ; c[b] = ±1` with the next sign bit. -/
def Shuffle.feed (x : Shuffle) (byte : Byte) : Shuffle :=
  let b := byte.toNat
  if x.header < 8 then
    { x with header := x.header + 1, signs := x.signs + b * 2 ^ (8 * x.header) }
  else if x.i < b then { x with rej := x.rej + 1 }
  else
    { x with
      c := (x.c.set x.i (x.c.getD b 0)).set b (unitOf x.signs)
      signs := x.signs / 2
      i := x.i + 1 }

/-- The session of R201, on variant 256. -/
def challengeSample (e : Env) (m : List Byte) : Ended Sample :=
  (openSession e .v256 m Shuffle.over Shuffle.feed (Shuffle.start e.params)).map
    fun r => ⟨Poly.ofList r.1.c, r.2, r.1.rej⟩

/-- The commit of CHAL: `NONCE` and `NOVF` are not written. -/
def commitChallenge (d : Nat) (s : State) (x : Sample) : State :=
  (s.setSlot d x.out .std).recordSession x.nblk x.rej

/-- CHAL (R201). -/
def execChal (d : Slot) (s : State) : Host.Outcome State Fault Refusal :=
  runStream (.chal d) [(.alen, s.alenTooLong)] [d.toNat] (commitChallenge d.toNat)
    (challengeSample s.env s.absorbed) s

end Sys2Proof.Machine
end

