-- ==== Sys2Proof/Machine/Hint.lean ====
section
/-! DEFINITION. The hint commands: MKHINT, USEHINT (46_hint.md R210 to R214). -/

namespace Sys2Proof.Machine

/-- The hint bit of one coefficient from its low and high words: 1 iff the high part of the corrected value differs
from the high word (R212). -/
def hintBit (p : Params) (low high : Word) : Word :=
  let v := (high.toNat * p.alpha + low.toNat) % Q
  if (decompose p.gamma2 v).1 = (high.toNat : Int) then 0 else 1

/-- The number of 1 bits of a hint polynomial (R212). -/
def hintWeight (h : Poly) : Nat := (h.words.map BitVec.toNat).sum

/-- MKHINT (R212): `a` the low polynomial, `b` the high one. -/
def execMkhint (d a b : Slot) (s : State) : Host.Outcome State Fault Refusal :=
  runCommand (.mkhint d a b) (s.sourceChecks .std [a.toNat, b.toNat])
    (fun s =>
      let h := Poly.zipWords (hintBit s.env.params) (s.poly a.toNat) (s.poly b.toNat)
      (s.setSlot d.toNat h .std).addHints (hintWeight h)) s

/-- The corrected high part of one coefficient from its value and its hint word (R214). -/
def applyHint (p : Params) (value hint : Word) : Word :=
  let r := decompose p.gamma2 value.toNat
  if hint = 0 then wordOfInt r.1
  else if r.2 > 0 then wordOfInt ((r.1 + 1) % (p.m : Int))
  else wordOfInt ((r.1 - 1) % (p.m : Int))

/-- USEHINT (R214): `a` the values, `b` the hints. -/
def execUsehint (d a b : Slot) (s : State) : Host.Outcome State Fault Refusal :=
  runCommand (.usehint d a b) (s.sourceChecks .std [a.toNat, b.toNat])
    (fun s => s.setSlot d.toNat
      (Poly.zipWords (applyHint s.env.params) (s.poly a.toNat) (s.poly b.toNat)) .std) s

end Sys2Proof.Machine
end

