-- ==== Sys2Proof/Machine/Samplers.lean ====
section
/-! DEFINITION. The three sampler profiles and their commands: SUNIF, SETA, SGAM1 (44_samplers.md R177 to R183). -/

namespace Sys2Proof.Machine

/-- The working state of the two rejection profiles (R170): `ctr` candidates accepted, their words `out` with the newest
first, `rej` candidates rejected, and the bytes of a candidate not yet complete. -/
structure Sieve where
  ctr : Nat
  out : List Word
  rej : Nat
  part : List Byte
  deriving DecidableEq, Repr

/-- The start of a session: `ctr, rej <- 0` (R171). -/
def Sieve.start : Sieve := ⟨0, [], 0, []⟩

/-- The stop condition `ctr = 256` (R177, R179). -/
def Sieve.full (x : Sieve) : Bool := x.ctr == 256

/-- A candidate accepted: `out[ctr] = w ; ctr = ctr + 1`. -/
def Sieve.accept (x : Sieve) (w : Word) : Sieve := ⟨x.ctr + 1, w :: x.out, x.rej, []⟩

/-- A candidate rejected: `rej = rej + 1`. -/
def Sieve.reject (x : Sieve) : Sieve := ⟨x.ctr, x.out, x.rej + 1, []⟩

/-- The result of a session of a rejection profile: `out` in index order, the blocks, the rejections. -/
def Sieve.sample (r : Sieve × Nat) : Sample := ⟨Poly.ofList r.1.out.reverse, r.2, r.1.rej⟩

/-! ## Uniform -/

/-- The 23-bit candidate of three bytes, first byte least significant, bit 7 of the third dropped (R177). -/
def uniformCandidate (b0 b1 b2 : Byte) : Nat :=
  (b0.toNat + 2 ^ 8 * b1.toNat + 2 ^ 16 * b2.toNat) % 2 ^ 23

/-- The uniform parse rule advanced by one byte (R177). -/
def uniformFeed (x : Sieve) (b : Byte) : Sieve :=
  match x.part with
  | [b0, b1] =>
    let t := uniformCandidate b0 b1 b
    if t < Q then x.accept (BitVec.ofNat 32 t) else x.reject
  | part => { x with part := part ++ [b] }

/-- `UniformSample(v, m)` (R177). -/
def uniformSample (e : Env) (v : Variant) (m : List Byte) : Ended Sample :=
  (openSession e v m Sieve.full uniformFeed Sieve.start).map Sieve.sample

/-- SUNIF (R178), on variant 128. -/
def execSunif (d : Slot) (s : State) : Host.Outcome State Fault Refusal :=
  runStream (.sunif d) s.seedChecks [d.toNat] (commitSeed d.toNat .ntt)
    (uniformSample s.env .v128 s.seedString) s

/-! ## Eta -/

/-- One nibble of the eta profile: `v <= 2·ETA` is accepted as the word `Q + ETA - v` (R179). -/
def etaNibble (eta : Nat) (x : Sieve) (v : Nat) : Sieve :=
  if v ≤ 2 * eta then x.accept (BitVec.ofNat 32 (Q + eta - v)) else x.reject

/-- The eta parse rule: low nibble first; the high nibble is dropped, uncounted, if the low one filled the slot
(R179). -/
def etaFeed (eta : Nat) (x : Sieve) (b : Byte) : Sieve :=
  let x := etaNibble eta x (b.toNat % 16)
  if x.full then x else etaNibble eta x (b.toNat / 16)

/-- `EtaSample(m)`, on variant 256 (R179). -/
def etaSample (e : Env) (m : List Byte) : Ended Sample :=
  (openSession e .v256 m Sieve.full (etaFeed e.params.eta) Sieve.start).map Sieve.sample

/-- SETA (R180). -/
def execSeta (d : Slot) (s : State) : Host.Outcome State Fault Refusal :=
  runStream (.seta d) s.seedChecks [d.toNat] (commitSeed d.toNat .std)
    (etaSample s.env s.seedString) s

/-! ## Gamma1 -/

/-- The working state of the gamma1 profile: how many stream bytes are read, and the bit string they spell as a number,
bit n of the string being bit (n mod 8) of byte (n div 8) (R182). -/
structure BitString where
  len : Nat
  bits : Nat
  deriving DecidableEq, Repr

/-- One more byte of the string. -/
def BitString.feed (x : BitString) (b : Byte) : BitString := ⟨x.len + 1, x.bits + b.toNat * 2 ^ (8 * x.len)⟩

/-- Field `k`: the `ybits` bits starting at bit `ybits·k`, first bit least significant (R182). -/
def BitString.field (x : BitString) (ybits k : Nat) : Nat := x.bits / 2 ^ (ybits * k) % 2 ^ ybits

/-- The 256 words `Q + GAMMA1 - t` (R182). -/
def gamma1Words (p : Params) (x : BitString) : List Word :=
  (List.range 256).map fun k => BitVec.ofNat 32 (Q + p.gamma1 - x.field p.ybits k)

/-- `Gamma1Sample(m)`, on variant 256: 32·YBITS bytes, no rejection (R182). -/
def gamma1Sample (e : Env) (m : List Byte) : Ended Sample :=
  (openSession e .v256 m (fun x => x.len == 32 * e.params.ybits) BitString.feed ⟨0, 0⟩).map
    fun r => ⟨Poly.ofList (gamma1Words e.params r.1), r.2, 0⟩

/-- SGAM1 (R183). -/
def execSgam1 (d : Slot) (s : State) : Host.Outcome State Fault Refusal :=
  runStream (.sgam1 d) s.seedChecks [d.toNat] (commitSeed d.toNat .std)
    (gamma1Sample s.env s.seedString) s

end Sys2Proof.Machine
end

