-- ==== Sys2Proof/Machine/Matrix.lean ====
section
/-! DEFINITION. The matrix expander: EXPMAT (43_expanda.md R161 to R165). -/

namespace Sys2Proof.Machine

/-- The coordinates (i, j) in row-major order (R161). -/
def matrixEntries (p : Params) : List (Nat × Nat) :=
  (List.range p.k).flatMap fun i => (List.range p.l).map fun j => (i, j)

/-- The absorbed string of entry (i, j): `rho ‖ byte(j) ‖ byte(i)` (R162). -/
def entryString (rho : List Byte) (ij : Nat × Nat) : List Byte :=
  rho ++ [BitVec.ofNat 8 ij.2, BitVec.ofNat 8 ij.1]

/-- The sessions of the entries, one after another; the first that faults ends the command (R161, R165, R238). -/
def expandEntries (e : Env) (rho : List Byte) : List (Nat × Nat) → Ended (List Sample)
  | [] => .done []
  | ij :: rest =>
    match uniformSample e .v128 (entryString rho ij) with
    | .done x => (expandEntries e rho rest).map (x :: ·)
    | .aborted c => .aborted c
    | .unending => .unending

/-- The commit: entry (i, j) to slot `d + i·L + j`, tagged `NTT`; the counters are the sums modulo 2^32 (R161,
R42). -/
def commitMatrix (p : Params) (d : Nat) (s : State) (xs : List Sample) : State :=
  let s := ((matrixEntries p).zip xs).foldl
    (fun s e => s.setSlot (d + e.1.1 * p.l + e.1.2) e.2.out .ntt) s
  s.recordStream (BitVec.ofNat 32 (xs.map (·.nblk)).sum) (BitVec.ofNat 32 (xs.map (·.rej)).sum)

/-- The decode-time checks of R161. -/
def State.matrixChecks (s : State) (d : Slot) : List (FaultCode × Bool) :=
  [(.range, passesEnd d (s.env.params.k * s.env.params.l)), (.alen, s.alenTooLong)]

/-- EXPMAT (R161). -/
def execExpmat (d : Slot) (s : State) : Host.Outcome State Fault Refusal :=
  runStream (.expmat d) (s.matrixChecks d) (slotRun d (s.env.params.k * s.env.params.l))
    (commitMatrix s.env.params d.toNat) (expandEntries s.env s.absorbed (matrixEntries s.env.params)) s

end Sys2Proof.Machine
end

