-- ==== Sys2Proof/Machine/Ring.lean ====
section
/-! DEFINITION. The ring arithmetic commands: NTT, INVNTT, PWMUL, ADD, SUB, REDUCE, CSUBQ, FREEZE, SHLD
(40_ring.md). -/

namespace Sys2Proof.Machine

/-! ## The transforms on the 256 words of a slot -/

/-- The passes of the loop `for start` of R112 at one `len`: each takes the twiddle `zetas[k]`, then the next `k`; the
`2·len` words at `start` are a lower half `p[j]` and an upper half `p[j+len]`. -/
def nttBlocks (len : Nat) : (passes k : Nat) → List Word → List Word
  | 0, _, p => p
  | passes + 1, k, p =>
    let lo := p.take len
    let hi := (p.drop len).take len
    let ts := hi.map fun h => mr (zeta k * h.toNat)
    List.zipWith (· + ·) lo ts ++ (List.zipWith subOffset lo ts ++
      nttBlocks len passes (k + 1) (p.drop (2 * len)))

/-- One `len` of R112: 128 / len passes; the twiddles used before it number 128 / len - 1, so `k` starts at
128 / len. -/
def nttLevel (p : List Word) (len : Nat) : List Word := nttBlocks len (128 / len) (128 / len) p

/-- The loop `for len in 128, 64, ..., 1` of R112. -/
def nttWords (p : List Word) : List Word := [128, 64, 32, 16, 8, 4, 2, 1].foldl nttLevel p

/-- The passes of the loop `for start` of R114 at one `len`. -/
def invnttBlocks (len : Nat) : (passes k : Nat) → List Word → List Word
  | 0, _, p => p
  | passes + 1, k, p =>
    let lo := p.take len
    let hi := (p.drop len).take len
    List.zipWith (· + ·) lo hi ++
      (List.zipWith (fun t h => mr (zetaInv k * (t + BitVec.ofNat 32 (256 * Q) - h).toNat)) lo hi ++
        invnttBlocks len passes (k + 1) (p.drop (2 * len)))

/-- One `len` of R114: 128 / len passes; the twiddles used before it number 256 - 256 / len, so `k` starts there. -/
def invnttLevel (p : List Word) (len : Nat) : List Word :=
  invnttBlocks len (128 / len) (256 - 256 / len) p

/-- R114: the loop `for len in 1, 2, ..., 128`, then the scaling by F. -/
def invnttWords (p : List Word) : List Word :=
  ([1, 2, 4, 8, 16, 32, 64, 128].foldl invnttLevel p).map fun w => mr (INVF * w.toNat)

/-! ## The commands -/

/-- A command that writes slot `d`, tagged `t`, from words of its sources. -/
def writeSlot (d : Slot) (p : Poly) (t : Tag) (s : State) : State := s.setSlot d.toNat p t

/-- NTT (R112). -/
def execNtt (d a : Slot) (s : State) : Host.Outcome State Fault Refusal :=
  runCommand (.ntt d a) (s.sourceChecks .std [a.toNat])
    (writeSlot d (Poly.ofList (nttWords (s.poly a.toNat).words)) .ntt) s

/-- INVNTT (R114). -/
def execInvntt (d a : Slot) (s : State) : Host.Outcome State Fault Refusal :=
  runCommand (.invntt d a) (s.sourceChecks .ntt [a.toNat])
    (writeSlot d (Poly.ofList (invnttWords (s.poly a.toNat).words)) .std) s

/-- PWMUL (R116). -/
def execPwmul (d a b : Slot) (s : State) : Host.Outcome State Fault Refusal :=
  runCommand (.pwmul d a b) (s.sourceChecks .ntt [a.toNat, b.toNat])
    (writeSlot d (Poly.zipWords mulMr (s.poly a.toNat) (s.poly b.toNat)) .ntt) s

/-- ADD (R118). -/
def execAdd (d a b : Slot) (s : State) : Host.Outcome State Fault Refusal :=
  runCommand (.add d a b) (s.sameTagChecks a.toNat b.toNat)
    (writeSlot d (Poly.zipWords (· + ·) (s.poly a.toNat) (s.poly b.toNat)) (s.tag a.toNat)) s

/-- SUB (R119). -/
def execSub (d a b : Slot) (s : State) : Host.Outcome State Fault Refusal :=
  runCommand (.sub d a b) (s.sameTagChecks a.toNat b.toNat)
    (writeSlot d (Poly.zipWords subOffset (s.poly a.toNat) (s.poly b.toNat)) (s.tag a.toNat)) s

/-- REDUCE, CSUBQ, FREEZE and SHLD share this shape: one function of every word, the tag kept (R120 to R123). -/
def runWordwise (i : Instr) (f : Word → Word) (d a : Slot) (s : State) : Host.Outcome State Fault Refusal :=
  runCommand i (s.taggedChecks [a.toNat])
    (writeSlot d (Poly.mapWords f (s.poly a.toNat)) (s.tag a.toNat)) s

/-- REDUCE (R120). -/
def execReduce (d a : Slot) (s : State) : Host.Outcome State Fault Refusal :=
  runWordwise (.reduce d a) reduce32 d a s

/-- CSUBQ (R121). -/
def execCsubq (d a : Slot) (s : State) : Host.Outcome State Fault Refusal :=
  runWordwise (.csubq d a) csubq d a s

/-- FREEZE (R122). -/
def execFreeze (d a : Slot) (s : State) : Host.Outcome State Fault Refusal :=
  runWordwise (.freeze d a) freeze d a s

/-- `(w·2^D) mod 2^32` (R123). -/
def shiftByD (dbits : Nat) (w : Word) : Word := BitVec.ofNat 32 (w.toNat * 2 ^ dbits)

/-- SHLD (R123). -/
def execShld (d a : Slot) (s : State) : Host.Outcome State Fault Refusal :=
  runWordwise (.shld d a) (shiftByD s.env.params.d) d a s

end Sys2Proof.Machine
end

