-- ==== Sys2Proof/Machine/Rounding.lean ====
section
/-! DEFINITION. The rounding commands and the norm check: P2R, DECOMP, CHKNORM (41_rounding.md). -/

namespace Sys2Proof.Machine

/-- The checks of P2R and DECOMP (R140): two different destinations, then the source. -/
def State.splitChecks (s : State) (d a b : Slot) : List (FaultCode × Bool) :=
  (.range, d == b) :: s.sourceChecks .std [a.toNat]

/-- The effect of P2R and DECOMP: high parts to `d`; low parts, stored with an offset of Q, to `b` (R142, R145). -/
def writeSplit (split : Nat → Int × Int) (d a b : Slot) (s : State) : State :=
  let p := s.poly a.toNat
  let high := Poly.mapWords (fun w => wordOfInt (split w.toNat).1) p
  let low := Poly.mapWords (fun w => wordOfInt ((Q : Int) + (split w.toNat).2)) p
  (s.setSlot d.toNat high .std).setSlot b.toNat low .std

/-- P2R (R142). -/
def execP2r (d a b : Slot) (s : State) : Host.Outcome State Fault Refusal :=
  runCommand (.p2r d a b) (s.splitChecks d a b) (writeSplit (power2Round s.env.params.d) d a b) s

/-- DECOMP (R145). -/
def execDecomp (d a b : Slot) (s : State) : Host.Outcome State Fault Refusal :=
  runCommand (.decomp d a b) (s.splitChecks d a b) (writeSplit (decompose s.env.params.gamma2) d a b) s

/-- Some word's value `v` equals or exceeds the bound (R148). -/
def overBound (bound : Word) (p : Poly) : Bool :=
  p.words.any fun w => decide (bound.toNat ≤ (normValue w).toNat)

/-- CHKNORM (R148): writes `NORM` and `REJ`, no slot. -/
def execChknorm (a : Slot) (s : State) : Host.Outcome State Fault Refusal :=
  runCommand (.chknorm a) (s.sourceChecks .std [a.toNat])
    (fun s => s.setNorm (overBound s.bound (s.poly a.toNat))) s

end Sys2Proof.Machine
end

