-- ==== Sys2Proof/Machine/System.lean ====
section
/-! DEFINITION. The system commands: NOP, SETTAG (47_system.md). -/

namespace Sys2Proof.Machine

/-- NOP (R221): nothing, but that it completes. -/
def execNop (s : State) : Host.Outcome State Fault Refusal :=
  runCommand .nop [] id s

/-- SETTAG (R222). A code of 3 or more is illegal; the decoder lets none through (R93). -/
def execSettag (d : Slot) (code : BitVec 8) (s : State) : Host.Outcome State Fault Refusal :=
  match tagOfCode code with
  | none => .next (s.raise .illegal (encode (.settag d code)))
  | some t => runCommand (.settag d code) [] (fun s => s.setTag d.toNat t) s

end Sys2Proof.Machine
end

