-- ==== Sys2Proof/Machine/VectorAlgebra.lean ====
section
/-! DEFINITION. The row-times-vector accumulate: PWACC (42_vector.md R156). -/

namespace Sys2Proof.Machine

/-- The accumulator of R156: the product at j = 0, then the products at j = 1 to L - 1 added modulo 2^32. -/
def accumulate (s : State) (a b l : Nat) : Poly :=
  let product j := Poly.zipWords mulMr (s.poly (a + j)) (s.poly (b + j))
  (List.range' 1 (l - 1)).foldl (fun acc j => Poly.zipWords (· + ·) acc (product j)) (product 0)

/-- The checks of R156: both runs within the slot file, then the 2·L sources. -/
def State.accChecks (s : State) (a b : Slot) (l : Nat) : List (FaultCode × Bool) :=
  (.range, passesEnd a l || passesEnd b l) :: s.sourceChecks .ntt (slotRun a l ++ slotRun b l)

/-- PWACC (R156). -/
def execPwacc (d a b : Slot) (s : State) : Host.Outcome State Fault Refusal :=
  runCommand (.pwacc d a b) (s.accChecks a b s.env.params.l)
    (fun s => s.setSlot d.toNat (accumulate s a.toNat b.toNat s.env.params.l) .ntt) s

end Sys2Proof.Machine
end

