-- ==== Sys2Proof/Machine/Dispatch.lean ====
section
/-! DEFINITION. The command engine: one arm per command (30_encoding.md R95). -/

namespace Sys2Proof.Machine

def exec (i : Instr) (s : State) : Host.Outcome State Fault Refusal :=
  match i with
  | .nop => Sys2Proof.Machine.execNop s
  | .settag d code => Sys2Proof.Machine.execSettag d code s
  | .ntt d a => Sys2Proof.Machine.execNtt d a s
  | .invntt d a => Sys2Proof.Machine.execInvntt d a s
  | .pwmul d a b => Sys2Proof.Machine.execPwmul d a b s
  | .add d a b => Sys2Proof.Machine.execAdd d a b s
  | .sub d a b => Sys2Proof.Machine.execSub d a b s
  | .reduce d a => Sys2Proof.Machine.execReduce d a s
  | .csubq d a => Sys2Proof.Machine.execCsubq d a s
  | .freeze d a => Sys2Proof.Machine.execFreeze d a s
  | .shld d a => Sys2Proof.Machine.execShld d a s
  | .p2r d a b => Sys2Proof.Machine.execP2r d a b s
  | .decomp d a b => Sys2Proof.Machine.execDecomp d a b s
  | .chknorm a => Sys2Proof.Machine.execChknorm a s
  | .pwacc d a b => Sys2Proof.Machine.execPwacc d a b s
  | .expmat d => Sys2Proof.Machine.execExpmat d s
  | .sunif d => Sys2Proof.Machine.execSunif d s
  | .seta d => Sys2Proof.Machine.execSeta d s
  | .sgam1 d => Sys2Proof.Machine.execSgam1 d s
  | .chal d => Sys2Proof.Machine.execChal d s
  | .mkhint d a b => Sys2Proof.Machine.execMkhint d a b s
  | .usehint d a b => Sys2Proof.Machine.execUsehint d a b s

end Sys2Proof.Machine
end

