-- ==== Sys2Proof/Machine/Bus.lean ====
section
/-! DEFINITION. The host bus: the address map, reads and writes of registers, `ABUF` and slot words, the `CTRL`
actions, the execution of a command word, and the next host operation (20_memory.md, 10_state.md R29 to R42). -/

namespace Sys2Proof.Machine

/-- The registers of R29. -/
inductive Reg where
  | id | version | status | ctrl | cmd | cmdcnt | alen | nonce | bound | hintcnt | fcode | finfo | sqzcnt | rejcnt
  | pq | pkl | peta | pgamma1 | pgamma2 | pd | ptau | psqzlim
  deriving DecidableEq, Repr

/-- The register at a byte offset (R29); the offsets not listed are unassigned (20_memory.md R68). -/
def regAt (offset : Nat) : Option Reg :=
  match offset with
  | 0x00 => some .id
  | 0x04 => some .version
  | 0x08 => some .status
  | 0x0C => some .ctrl
  | 0x10 => some .cmd
  | 0x14 => some .cmdcnt
  | 0x18 => some .alen
  | 0x1C => some .nonce
  | 0x20 => some .bound
  | 0x24 => some .hintcnt
  | 0x28 => some .fcode
  | 0x2C => some .finfo
  | 0x30 => some .sqzcnt
  | 0x34 => some .rejcnt
  | 0x40 => some .pq
  | 0x44 => some .pkl
  | 0x48 => some .peta
  | 0x4C => some .pgamma1
  | 0x50 => some .pgamma2
  | 0x54 => some .pd
  | 0x58 => some .ptau
  | 0x5C => some .psqzlim
  | _ => none

/-- What a 32-bit access at an address reaches (20_memory.md R61, R63). -/
inductive Place where
  | reg (r : Reg)
  | abuf (index : Nat)
  | slotWord (slot i : Nat)
  | unassigned
  deriving DecidableEq, Repr

/-- The address map (R61, R63, R68). -/
def placeAt (addr : BitVec 19) : Place :=
  let a := addr.toNat
  if a < 0x100 then
    match regAt a with
    | some r => .reg r
    | none => .unassigned
  else if a < 0x400 then .unassigned
  else if a < 0x800 then .abuf (a - 0x400)
  else if a < 0x40000 then .unassigned
  else .slotWord ((a - 0x40000) / 0x400) ((a - 0x40000) % 0x400 / 4)

/-- The access a bus address and width name, or the bus error (R64 to R66, R68). -/
def access (addr : BitVec 19) (bytes : Nat) : Except BusError Place :=
  if bytes ≠ 4 then .error .notWord
  else if addr.toNat % 4 ≠ 0 then .error .misaligned
  else
    match placeAt addr with
    | .unassigned => .error .unassigned
    | place => .ok place

/-- The value of a register (10_state.md R29 to R42); the write-only registers read 0. -/
def State.readReg (s : State) : Reg → Word
  | .id => 0x4E54544D
  | .version => 1
  | .status => s.status
  | .ctrl => 0
  | .cmd => 0
  | .cmdcnt => s.cmdcnt
  | .alen => s.alen.setWidth 32
  | .nonce => s.nonce.setWidth 32
  | .bound => s.bound
  | .hintcnt => s.hintcnt
  | .fcode => s.fcode.setWidth 32
  | .finfo => s.finfo
  | .sqzcnt => s.sqzcnt
  | .rejcnt => s.rejcnt
  | .pq => BitVec.ofNat 32 Q
  | .pkl => BitVec.ofNat 32 (s.env.params.k * 256 + s.env.params.l)
  | .peta => BitVec.ofNat 32 s.env.params.eta
  | .pgamma1 => BitVec.ofNat 32 s.env.params.gamma1
  | .pgamma2 => BitVec.ofNat 32 s.env.params.gamma2
  | .pd => BitVec.ofNat 32 s.env.params.d
  | .ptau => BitVec.ofNat 32 s.env.params.tau
  | .psqzlim =>
    match s.env.sqzLimit with
    | .blocks n => fitWord Config.wideLimit n
    | .unlimited => 0xFFFFFFFF

/-- The 32-bit word of `ABUF` from byte index `n`, low byte at the lowest index (20_memory.md R62, R64). -/
def State.abufWord (s : State) (n : Nat) : Word :=
  BitVec.ofNat 32 (leNat ((List.range 4).map fun k => s.abuf (n + k)))

/-- `MemRead(addr, 4)` (R64): no state changes. -/
def State.busRead (s : State) (addr : BitVec 19) (bytes : Nat) : Except BusError Word :=
  match access addr bytes with
  | .error e => .error e
  | .ok (.reg r) => .ok (s.readReg r)
  | .ok (.abuf n) => .ok (s.abufWord n)
  | .ok (.slotWord k i) => .ok (s.word k i)
  | .ok .unassigned => .error .unassigned

/-- A write to `CTRL` (10_state.md R32): bit 0 resets and the rest is ignored; otherwise bits 1 to 3 all act. -/
def State.writeCtrl (s : State) (v : Word) : State :=
  if v.getLsbD 0 then s.resetBlock
  else
    let s := if v.getLsbD 1 then s.clearFault else s
    let s := if v.getLsbD 2 then s.clearRej else s
    if v.getLsbD 3 then s.clearHints else s

/-- The command engine on a word (R33, 30_encoding.md R96): the command it selects, or `F_ILLEGAL`. -/
def runWord (w : Word) (s : State) : Host.Outcome State Fault Refusal :=
  match decode w with
  | .ok i => exec i s
  | .error _ => .next (s.raise .illegal w)

/-- A write to `CMD` (R33, 60_exceptions.md R239). -/
def State.writeCmd (s : State) (w : Word) : Host.Outcome State Fault Refusal :=
  if s.fault then .refused (.busError .cmdWhileFault) else runWord w s

/-- A register write (R29, R32, R33, R35, R37, R38). -/
def State.writeReg (s : State) (r : Reg) (v : Word) : Host.Outcome State Fault Refusal :=
  match r with
  | .ctrl => .next (s.writeCtrl v)
  | .cmd => s.writeCmd v
  | .alen => .next { s with alen := v.setWidth 11 }
  | .nonce => .next { s with nonce := v.setWidth 16, novf := false }
  | .bound => .next { s with bound := v }
  | .id | .version | .status | .cmdcnt | .hintcnt | .fcode | .finfo | .sqzcnt | .rejcnt
  | .pq | .pkl | .peta | .pgamma1 | .pgamma2 | .pd | .ptau | .psqzlim => .refused (.busError .readOnly)

/-- `MemWrite(addr, 4, v)` (20_memory.md R65). -/
def State.busWrite (s : State) (addr : BitVec 19) (bytes : Nat) (v : Word) :
    Host.Outcome State Fault Refusal :=
  match access addr bytes with
  | .error e => .refused (.busError e)
  | .ok (.reg r) => s.writeReg r v
  | .ok (.abuf n) => .next { s with mem := Memory.write s.mem (ABUFBASE + n) (wordBytes v) }
  | .ok (.slotWord k i) => .next (s.setWord k i v)
  | .ok .unassigned => .refused (.busError .unassigned)

/-- One host operation: a read gives its value to the host (R104, R273), a write acts, the reset signal resets
(R260). A bus error is refused (R69; log 4). -/
def State.perform (s : State) : HostOp → Host.Outcome State Fault Refusal
  | .read addr bytes =>
    match s.busRead addr bytes with
    | .ok v => .next { s with reads := s.reads ++ [v] }
    | .error e => .refused (.busError e)
  | .write addr bytes v => s.busWrite addr bytes v
  | .hardReset => .next s.resetBlock

/-- The next host operation, in list order (30_encoding.md R104, 20_memory.md R71); with none left the block is idle
and holds its state (60_exceptions.md R251). A parameter record that breaks a constraint is refused (00_scope.md R8). -/
def State.performNext (s : State) : Host.Outcome State Fault Refusal :=
  if s.env.params.legal then
    match s.pending with
    | [] => .next s
    | op :: rest => ({ s with pending := rest } : State).perform op
  else .refused .illegalParams

/-- The bus address of `CMD` (10_state.md R29). -/
def cmdAddr : BitVec 19 := 0x10

/-- The host write that issues the command word `w`, put before what is pending (R104). -/
def State.issue (s : State) (w : Word) : State :=
  { s with pending := .write cmdAddr 4 w :: s.pending }

end Sys2Proof.Machine
end

