-- ==== Sys2Proof/Machine/Step.lean ====
section
/-! DEFINITION. One step: the next operation of the host on the block, a command executing atomically inside its `CMD`
write (20_memory.md R70, R71). -/

namespace Sys2Proof.Machine

/-- One step of the machine (R71, R104; log 3). -/
def step (s : State) : Host.Outcome State Fault Refusal := s.performNext

/-- The state with a command placed where `step` takes its next one: a `CMD` write of the word, put in front of the
host's pending operations. There is no program memory to store it in (10_state.md R28; log 3). -/
def State.withFetchWord (s : State) (nbits w : Nat) : State :=
  s.issue (BitVec.ofNat 32 (w % 2 ^ nbits))

end Sys2Proof.Machine
end

