-- ==== Sys2Proof/Machine/Loops.lean ====
section
/-! DEFINITION. The two transforms as 40_ring.md R112 and R114 print them: one array updated in place, a running
twiddle index. The machine computes the block form of Machine/Ring.lean; that the two agree is a statement
(`Obligations.NttCommand`, `Obligations.InvnttCommand`). -/

namespace Sys2Proof.Machine

/-- `start in 0, 2*len, 4*len, ... while start < 256`. -/
def loopStarts (len : Nat) : List Nat := (List.range (128 / len)).map (2 * len * ·)

/-- The body of R112's inner loop. -/
def nttButterfly (z len : Nat) (p : List Word) (j : Nat) : List Word :=
  let t := mr (z * (p.getD (j + len) 0).toNat)
  let p := p.set (j + len) (p.getD j 0 + BitVec.ofNat 32 (2 * Q) - t)
  p.set j (p.getD j 0 + t)

/-- R112's loops over `start` and `j`, the twiddle index k running. -/
def nttPass (len : Nat) (kp : Nat × List Word) (start : Nat) : Nat × List Word :=
  (kp.1 + 1, (List.range' start len).foldl (nttButterfly (zeta kp.1) len) kp.2)

/-- R112 as printed. -/
def nttPrinted (p : List Word) : List Word :=
  ([128, 64, 32, 16, 8, 4, 2, 1].foldl
    (fun kp len => (loopStarts len).foldl (nttPass len) kp) (1, p)).2

/-- The body of R114's inner loop. -/
def invnttButterfly (z len : Nat) (p : List Word) (j : Nat) : List Word :=
  let t := p.getD j 0
  let p := p.set j (t + p.getD (j + len) 0)
  let u := t + BitVec.ofNat 32 (256 * Q) - p.getD (j + len) 0
  p.set (j + len) (mr (z * u.toNat))

/-- R114's loops over `start` and `j`, the twiddle index k running. -/
def invnttPass (len : Nat) (kp : Nat × List Word) (start : Nat) : Nat × List Word :=
  (kp.1 + 1, (List.range' start len).foldl (invnttButterfly (zetaInv kp.1) len) kp.2)

/-- R114 as printed, with the final scaling loop. -/
def invnttPrinted (p : List Word) : List Word :=
  ([1, 2, 4, 8, 16, 32, 64, 128].foldl
    (fun kp len => (loopStarts len).foldl (invnttPass len) kp) (0, p)).2.map fun w => mr (INVF * w.toNat)

end Sys2Proof.Machine
end

