-- ==== Sys2Proof/Safety.lean ====
section
/-! DEFINITION. The terms the statements use: what a command leaves unchanged, the precise fault, the machine's
invariant, the stream as a sequence of candidates. -/

namespace Sys2Proof.Machine

/-! ## Frames -/

/-- What a completing command leaves unchanged whatever else it writes: every slot and tag outside `ks`, every byte of
`ABUF`, the registers the host alone writes, the fault record, the model's own fields; `CMDCNT` counts one. -/
structure CommonFrame (s t : State) (ks : List Nat) : Prop where
  slots : ∀ k, k ∉ ks → t.poly k = s.poly k ∧ t.tag k = s.tag k
  buffer : ∀ a, Memory.read t.mem a = Memory.read s.mem a
  alen : t.alen = s.alen
  bound : t.bound = s.bound
  fault : t.fault = s.fault
  fcode : t.fcode = s.fcode
  finfo : t.finfo = s.finfo
  pending : t.pending = s.pending
  reads : t.reads = s.reads
  env : t.env = s.env
  freeIdx : t.freeIdx = s.freeIdx
  cmdcnt : t.cmdcnt = s.cmdcnt + 1

/-- `NONCE` and `NOVF` unchanged. -/
def NonceKept (s t : State) : Prop := t.nonce = s.nonce ∧ t.novf = s.novf
/-- `NORM` and `REJ` unchanged. -/
def NormKept (s t : State) : Prop := t.norm = s.norm ∧ t.rej = s.rej
/-- `HINTCNT` unchanged. -/
def HintsKept (s t : State) : Prop := t.hintcnt = s.hintcnt
/-- `SQZCNT` and `REJCNT` unchanged. -/
def CountsKept (s t : State) : Prop := t.sqzcnt = s.sqzcnt ∧ t.rejcnt = s.rejcnt

/-- The frame of a command that writes no flag and no register but `CMDCNT`: only the slots `ks` may change. -/
def Frame (s t : State) (ks : List Nat) : Prop :=
  CommonFrame s t ks ∧ NonceKept s t ∧ NormKept s t ∧ HintsKept s t ∧ CountsKept s t

/-- The frame of SUNIF, SETA and SGAM1: slot `d`, `NONCE`, `NOVF`, `SQZCNT` and `REJCNT` may change. -/
def SeedFrame (s t : State) (d : Nat) : Prop := CommonFrame s t [d] ∧ NormKept s t ∧ HintsKept s t

/-- The post-increment of 10_state.md R37. -/
def NonceBumped (s t : State) : Prop :=
  t.nonce = s.nonce + 1 ∧ t.novf = (s.novf || s.nonce == 0xFFFF)

/-! ## Encoding and faults -/

/-- The command word `op, d, a, b` is the instruction's one encoding. -/
def Encodes (op : Nat) (d a b : Slot) (i : Instr) : Prop :=
  encode i = assemble op d a b ∧ decode (assemble op d a b) = .ok i

/-- The state of a precise fault (60_exceptions.md R236): three registers written, nothing else changed. -/
def State.faulted (s : State) (code : BitVec 4) (w : Word) : State :=
  { s with fault := true, fcode := code, finfo := w }

/-- The command takes the precise fault with that code. -/
def FaultsAs (i : Instr) (s : State) (code : BitVec 4) : Prop :=
  exec i s = .next (s.faulted code (encode i))

/-! ## The invariant -/

/-- What every step keeps: the buffer's canonical form; no fault recorded means no code and no word, a fault recorded
means one of the eight codes (R231, R240); `NOVF` stands only over a wrapped `NONCE` (10_state.md R37); `NORM` never
stands without `REJ` (R31, R32, 41_rounding.md R148). -/
structure State.Inv (s : State) : Prop where
  memory : Memory.wf s.mem = true
  clear : s.fault = false → s.fcode = 0 ∧ s.finfo = 0
  recorded : s.fault = true → 1 ≤ s.fcode.toNat ∧ s.fcode.toNat ≤ 8
  wrapped : s.novf = true → s.nonce = 0
  sticky : s.norm = true → s.rej = true

/-! ## Ring elements -/

/-- Every word is below `b`. -/
def Poly.Below (p : Poly) (b : Nat) : Prop := ∀ i < 256, (p.word i).toNat < b

/-- The coefficients as naturals. -/
def Poly.nat (p : Poly) (i : Nat) : Nat := (p.word i).toNat

/-- The value at the i-th evaluation point, `Σ_j w_j · ROOT^((2·brv8(i)+1)·j)` (10_state.md R22, 40_ring.md R113). -/
def evalAt (w : Nat → Nat) (i : Nat) : Nat :=
  ∑ j ∈ Finset.range 256, w j * ROOT ^ ((2 * brv8 i + 1) * j)

/-- The coefficient of X^k of the product in Z[X]/(X^256 + 1) (10_state.md R22). -/
def negacyclic (f g : Nat → Nat) (k : Nat) : Int :=
  ∑ i ∈ Finset.range 256, ∑ j ∈ Finset.range 256,
    if i + j = k then ((f i * g j : Nat) : Int)
    else if i + j = k + 256 then -((f i * g j : Nat) : Int)
    else 0

/-! ## Streams -/

/-- The blocks that hold the first `bytes` bytes of a stream: `ceil(bytes / RATE)` (44_samplers.md R171). -/
def blocksFor (v : Variant) (bytes : Nat) : Nat := (bytes + v.rate - 1) / v.rate

/-- Block `k` of a session is within the limit (R172); every block is, without one. -/
def WithinLimit (e : Env) (k : Nat) : Prop := ∀ n, e.sqzLimit = .blocks n → k < n

/-- The collaborator serves the first `bytes` bytes of a session: each block that holds one of them is within the limit
and does not fail. -/
def Serves (e : Env) (v : Variant) (m : List Byte) (bytes : Nat) : Prop :=
  ∀ k < blocksFor v bytes, WithinLimit e k ∧ e.squeezeFails v m k = false

/-- How a session ends that needs block `k` and has got the blocks before it (R172): with `F_XOFLIM` where the limit is
`k` blocks, with `F_XOFERR` where the block is within the limit and fails. -/
def EndsAtBlock (e : Env) (v : Variant) (m : List Byte) (k : Nat) (r : Ended Sample) : Prop :=
  (e.sqzLimit = .blocks k → r = .aborted .xofLim) ∧
  (WithinLimit e k → e.squeezeFails v m k = true → r = .aborted .xofErr)

/-- The k-th uniform candidate of a stream (R177). -/
def uniformAt (e : Env) (v : Variant) (m : List Byte) (k : Nat) : Nat :=
  uniformCandidate (e.streamByte v m (3 * k)) (e.streamByte v m (3 * k + 1)) (e.streamByte v m (3 * k + 2))

/-- The k-th nibble of a stream of variant 256, low nibble of each byte first (R179). -/
def nibbleAt (e : Env) (m : List Byte) (k : Nat) : Nat :=
  if k % 2 = 0 then (e.streamByte .v256 m (k / 2)).toNat % 16 else (e.streamByte .v256 m (k / 2)).toNat / 16

/-- Bit n of a stream of variant 256, least significant bit of each byte first (R182). -/
def bitAt (e : Env) (m : List Byte) (n : Nat) : Nat :=
  (e.streamByte .v256 m (n / 8)).toNat / 2 ^ (n % 8) % 2

/-- The accepted ones among the first n candidates, in order. -/
def acceptedOf (accept : Nat → Bool) (cand : Nat → Nat) (n : Nat) : List Nat :=
  ((List.range n).map cand).filter accept

/-- The n-th candidate is the one that fills the slot: 256 of the first n are accepted, the last among them. -/
def FillsAt (accept : Nat → Bool) (cand : Nat → Nat) (n : Nat) : Prop :=
  (acceptedOf accept cand n).length = 256 ∧ 0 < n ∧ accept (cand (n - 1)) = true

/-- The index at step `j` of the challenge's shuffle (45_challenge.md R201). -/
def shuffleIndex (p : Params) (j : Nat) : Nat := 256 - p.tau + j

/-- The bytes that the first `j` steps of the shuffle read (R201): step i reads the bytes from `at' i` up to
`at' (i + 1)`, of which each but the last is above the step's index, and resampled, and the last is not; the eight sign
bytes come before. -/
def StepsRead (e : Env) (m : List Byte) (at' : Nat → Nat) (j : Nat) : Prop :=
  at' 0 = 8 ∧ ∀ i < j, at' i < at' (i + 1) ∧
    (∀ n, at' i ≤ n → n + 1 < at' (i + 1) → shuffleIndex e.params i < (e.streamByte .v256 m n).toNat) ∧
    (e.streamByte .v256 m (at' (i + 1) - 1)).toNat ≤ shuffleIndex e.params i

end Sys2Proof.Machine
end

