-- ==== Sys2Proof/Certificates/Slice0/Obligations.lean ====
section
/-! DEFINITION. The statements for the provers. Each cites the rule of spec/ it formalises; OBLIGATIONS.json lists
them. -/

open Sys2Proof Sys2Proof.Machine

/-! ## Encoding -/

/-- Every well-formed command, with every operand at every value, decodes from its encoding (R90, R91, R95). -/
def Obligations.DecodeOfEncode : Prop :=
  ∀ i : Instr, i.wellFormed = true → decode (encode i) = .ok i

/-- A word decodes to at most one command, a well-formed one, whose encoding is that very word: no encoding is
tolerated beside the canonical one (R96, R98). -/
def Obligations.EncodeOfDecode : Prop :=
  ∀ (w : Word) (i : Instr), decode w = .ok i → i.wellFormed = true ∧ encode i = w

/-- A word decodes iff some row of the opcode table has `w & mask = match` and, for SETTAG, field b is not 3 (R95,
R232). -/
def Obligations.LegalWordsAreTheTables : Prop :=
  ∀ w : Word, (∃ i, decode w = .ok i) ↔
    ∃ r ∈ opcodeTable, w &&& r.mask = r.pattern ∧ ¬(r.mnemonic = "SETTAG" ∧ bOf w = 3)

/-- Words printed in the vectors and programs of 95_test_vectors.md stand for the commands printed beside them, and
three illegal words are rejected for the reason 30_encoding.md R96 gives. -/
def Obligations.PrintedWordsDecode : Prop :=
  decode 0x01090001 = .ok (.settag 9 1) ∧ decode 0x10030100 = .ok (.ntt 3 1) ∧
  decode 0x12050304 = .ok (.pwmul 5 3 4) ∧ decode 0x211B1A1C = .ok (.decomp 27 26 28) ∧
  decode 0x22001600 = .ok (.chknorm 22) ∧ decode 0x301E0A14 = .ok (.pwacc 30 10 20) ∧
  decode 0x40F00000 = .ok (.expmat 240) ∧ decode 0x43190000 = .ok (.sgam1 25) ∧
  decode 0x50460000 = .ok (.chal 70) ∧ decode 0x61050304 = .ok (.usehint 5 3 4) ∧
  decode 0x01090003 = .error .badTagCode ∧ decode 0x00000001 = .error .unusedFieldNonzero ∧
  decode 0x02000000 = .error .unassignedOpcode

/-! ## The step -/

/-- When the host's next operation writes a word that decodes to `i` to `CMD` and no fault is recorded, the step is
`exec i` at the state with that operation taken off the list (R33, R70, R104). The placement by `withFetchWord`
is such a write. -/
def Obligations.StepRunsTheCommand : Prop :=
  ∀ (s : State) (w : Word) (i : Instr) (rest : List HostOp),
    s.env.params.legal = true → s.fault = false → decode w = .ok i →
    (s.pending = .write 0x10 4 w :: rest → step s = exec i { s with pending := rest }) ∧
    step (s.withFetchWord 32 w.toNat) = exec i s

/-- R232: a word is legal iff some row of the opcode table has `w & mask = match` (and, for SETTAG, field b ≠ 3): a
legal word written to `CMD` runs the one command it decodes to; every other word faults `F_ILLEGAL`, changes nothing
else and records itself in `FINFO`. The host's operation is used up. -/
def Obligations.IllegalWordFaults : Prop :=
  ∀ (s : State) (w : Word) (rest : List HostOp),
    s.env.params.legal = true → s.fault = false → s.pending = .write 0x10 4 w :: rest →
    ((∃ r ∈ opcodeTable, w &&& r.mask = r.pattern ∧ ¬(r.mnemonic = "SETTAG" ∧ bOf w = 3)) →
      ∃ i, decode w = .ok i ∧ step s = exec i { s with pending := rest }) ∧
    (¬(∃ r ∈ opcodeTable, w &&& r.mask = r.pattern ∧ ¬(r.mnemonic = "SETTAG" ∧ bOf w = 3)) →
      step s = .next { s with pending := rest, fault := true, fcode := 1, finfo := w })

/-! ## System commands -/

/-- R221: NOP completes and changes nothing but `CMDCNT`; its only encoding is the zero word, and any other word with
op 0x00 is illegal; while `FAULT` is 1 its write is refused. -/
def Obligations.NopCommand : Prop :=
  (∀ s : State, exec .nop s = .next { s with cmdcnt := s.cmdcnt + 1 }) ∧
  encode .nop = 0 ∧ (∀ w : Word, decode w = .ok .nop ↔ w = 0) ∧
  (∀ w : Word, w.toNat / 2 ^ 24 = 0 → w ≠ 0 → ∃ e, decode w = .error e) ∧
  ∀ (s : State) (rest : List HostOp), s.env.params.legal = true → s.fault = true →
    step { s with pending := .write 0x10 4 0 :: rest } = .refused (.busError .cmdWhileFault)

/-- R222: SETTAG writes the tag its code names and changes no word, whatever the old tag; a code of 3 or more is
illegal. -/
def Obligations.SettagCommand : Prop :=
  ∀ (s : State) (d : Slot) (code : BitVec 8),
    (∀ tag : Tag, (code = 0 ∧ tag = .none) ∨ (code = 1 ∧ tag = .std) ∨ (code = 2 ∧ tag = .ntt) →
      Encodes 0x01 d 0 code (.settag d code) ∧
      ∃ t, exec (.settag d code) s = .next t ∧ Frame s t [d.toNat] ∧
        t.tag d.toNat = tag ∧ t.poly d.toNat = s.poly d.toNat) ∧
    (3 ≤ code.toNat → FaultsAs (.settag d code) s 1)

/-! ## Ring arithmetic -/

/-- R112: NTT writes the words that the printed loops compute, tags the destination `NTT`, and faults on a source
tagged `NONE` or `NTT`. -/
def Obligations.NttCommand : Prop :=
  ∀ (s : State) (d a : Slot),
    Encodes 0x10 d a 0 (.ntt d a) ∧
    (s.tag a.toNat = .none → FaultsAs (.ntt d a) s 2) ∧
    (s.tag a.toNat = .ntt → FaultsAs (.ntt d a) s 3) ∧
    (s.tag a.toNat = .std → ∃ t, exec (.ntt d a) s = .next t ∧ Frame s t [d.toNat] ∧
      t.tag d.toNat = .ntt ∧ (t.poly d.toNat).words = nttPrinted (s.poly a.toNat).words)

/-- R114: INVNTT writes the words that the printed loops compute, tags the destination `STD`, and faults on a source
tagged `NONE` or `STD`. -/
def Obligations.InvnttCommand : Prop :=
  ∀ (s : State) (d a : Slot),
    Encodes 0x11 d a 0 (.invntt d a) ∧
    (s.tag a.toNat = .none → FaultsAs (.invntt d a) s 2) ∧
    (s.tag a.toNat = .std → FaultsAs (.invntt d a) s 3) ∧
    (s.tag a.toNat = .ntt → ∃ t, exec (.invntt d a) s = .next t ∧ Frame s t [d.toNat] ∧
      t.tag d.toNat = .std ∧ (t.poly d.toNat).words = invnttPrinted (s.poly a.toNat).words)

/-- R113, the bound: words below B with B + 16Q ≤ 2^32 give words below B + 16Q. -/
def Obligations.NttBound : Prop :=
  ∀ (s : State) (d a : Slot) (b : Nat),
    s.tag a.toNat = .std → b + 16 * Q ≤ 2 ^ 32 → (s.poly a.toNat).Below b →
    ∃ t, exec (.ntt d a) s = .next t ∧ (t.poly d.toNat).Below (b + 16 * Q)

/-- R113, the value: under the same bound word i is congruent to the polynomial's value at the i-th evaluation
point. -/
def Obligations.NttEvaluates : Prop :=
  ∀ (s : State) (d a : Slot) (b : Nat),
    s.tag a.toNat = .std → b + 16 * Q ≤ 2 ^ 32 → (s.poly a.toNat).Below b →
    ∃ t, exec (.ntt d a) s = .next t ∧
      ∀ i < 256, (t.poly d.toNat).nat i % Q = evalAt (s.poly a.toNat).nat i % Q

/-- R115: if every input word is below 2Q and the input is the evaluation vector of g, every output word is below 2Q
and congruent to 2^32·g_j. -/
def Obligations.InvnttContract : Prop :=
  ∀ (s : State) (d a : Slot) (g : Nat → Nat),
    s.tag a.toNat = .ntt → (s.poly a.toNat).Below (2 * Q) →
    (∀ i < 256, (s.poly a.toNat).nat i % Q = evalAt g i % Q) →
    ∃ t, exec (.invntt d a) s = .next t ∧ (t.poly d.toNat).Below (2 * Q) ∧
      ∀ j < 256, (t.poly d.toNat).nat j % Q = 2 ^ 32 * g j % Q

/-- R115 with R113 and R117: NTT of two slots, PWMUL, INVNTT multiply in Z_Q[X]/(X^256 + 1), for words below 2Q,
whatever the destinations, as long as the first transform overwrites neither the second factor nor its own transform is
overwritten by the second. -/
def Obligations.FourCommandsMultiply : Prop :=
  ∀ (s : State) (f g fh gh p r : Slot),
    fh ≠ g → fh ≠ gh →
    s.tag f.toNat = .std → s.tag g.toNat = .std →
    (s.poly f.toNat).Below (2 * Q) → (s.poly g.toNat).Below (2 * Q) →
    ∃ t u v x, exec (.ntt fh f) s = .next t ∧ exec (.ntt gh g) t = .next u ∧
      exec (.pwmul p fh gh) u = .next v ∧ exec (.invntt r p) v = .next x ∧
      x.tag r.toNat = .std ∧
      ∀ k < 256, ((x.poly r.toNat).nat k : Int) % (Q : Int) =
        negacyclic (s.poly f.toNat).nat (s.poly g.toNat).nat k % (Q : Int)

/-- R116: PWMUL writes the Montgomery reductions of the products and tags `NTT`; both sources must be tagged `NTT`. -/
def Obligations.PwmulCommand : Prop :=
  ∀ (s : State) (d a b : Slot),
    Encodes 0x12 d a b (.pwmul d a b) ∧
    (s.tag a.toNat = .none ∨ s.tag b.toNat = .none → FaultsAs (.pwmul d a b) s 2) ∧
    (s.tag a.toNat ≠ .none → s.tag b.toNat ≠ .none → s.tag a.toNat = .std ∨ s.tag b.toNat = .std →
      FaultsAs (.pwmul d a b) s 3) ∧
    (s.tag a.toNat = .ntt → s.tag b.toNat = .ntt →
      ∃ t, exec (.pwmul d a b) s = .next t ∧ Frame s t [d.toNat] ∧ t.tag d.toNat = .ntt ∧
        ∀ i < 256, (t.word d.toNat i).toNat =
          ((s.word a.toNat i).toNat * (s.word b.toNat i).toNat +
            (s.word a.toNat i).toNat * (s.word b.toNat i).toNat * 4236238847 % 2 ^ 32 * 8380417) % 2 ^ 64 / 2 ^ 32)

/-- R117: where the product is at most Q·2^32, in particular where both words are below 22·Q, the result word is below
2Q and congruent to the product times 2^(-32). -/
def Obligations.PwmulContract : Prop :=
  ∀ (s : State) (d a b : Slot), s.tag a.toNat = .ntt → s.tag b.toNat = .ntt →
    ∃ t, exec (.pwmul d a b) s = .next t ∧
      ∀ i < 256,
        ((s.word a.toNat i).toNat < 22 * Q → (s.word b.toNat i).toNat < 22 * Q →
          (s.word a.toNat i).toNat * (s.word b.toNat i).toNat ≤ Q * 2 ^ 32) ∧
        ((s.word a.toNat i).toNat * (s.word b.toNat i).toNat ≤ Q * 2 ^ 32 →
          (t.word d.toNat i).toNat < 2 * Q ∧
          (t.word d.toNat i).toNat * 2 ^ 32 % Q = (s.word a.toNat i).toNat * (s.word b.toNat i).toNat % Q)

/-- R118: ADD writes the sums modulo 2^32 and keeps the tag; the two tags must be equal and not `NONE`. -/
def Obligations.AddCommand : Prop :=
  ∀ (s : State) (d a b : Slot),
    Encodes 0x13 d a b (.add d a b) ∧
    (s.tag a.toNat = .none ∨ s.tag b.toNat = .none → FaultsAs (.add d a b) s 2) ∧
    (s.tag a.toNat ≠ .none → s.tag b.toNat ≠ .none → s.tag a.toNat ≠ s.tag b.toNat →
      FaultsAs (.add d a b) s 3) ∧
    (s.tag a.toNat ≠ .none → s.tag a.toNat = s.tag b.toNat →
      ∃ t, exec (.add d a b) s = .next t ∧ Frame s t [d.toNat] ∧ t.tag d.toNat = s.tag a.toNat ∧
        ∀ i < 256, (t.word d.toNat i).toNat =
          ((s.word a.toNat i).toNat + (s.word b.toNat i).toNat) % 2 ^ 32)

/-- R119: SUB writes `(a + 2Q - b) mod 2^32` and keeps the tag; the two tags must be equal and not `NONE`. -/
def Obligations.SubCommand : Prop :=
  ∀ (s : State) (d a b : Slot),
    Encodes 0x14 d a b (.sub d a b) ∧
    (s.tag a.toNat = .none ∨ s.tag b.toNat = .none → FaultsAs (.sub d a b) s 2) ∧
    (s.tag a.toNat ≠ .none → s.tag b.toNat ≠ .none → s.tag a.toNat ≠ s.tag b.toNat →
      FaultsAs (.sub d a b) s 3) ∧
    (s.tag a.toNat ≠ .none → s.tag a.toNat = s.tag b.toNat →
      ∃ t, exec (.sub d a b) s = .next t ∧ Frame s t [d.toNat] ∧ t.tag d.toNat = s.tag a.toNat ∧
        ∀ i < 256, ((t.word d.toNat i).toNat : Int) =
          (((s.word a.toNat i).toNat : Int) + 2 * Q - ((s.word b.toNat i).toNat : Int)) % 2 ^ 32)

/-- R120: REDUCE writes `reduce32`, congruent to the source modulo Q and at most 12574208, on every word. -/
def Obligations.ReduceCommand : Prop :=
  ∀ (s : State) (d a : Slot),
    Encodes 0x15 d a 0 (.reduce d a) ∧
    (s.tag a.toNat = .none → FaultsAs (.reduce d a) s 2) ∧
    (s.tag a.toNat ≠ .none → ∃ t, exec (.reduce d a) s = .next t ∧ Frame s t [d.toNat] ∧
      t.tag d.toNat = s.tag a.toNat ∧
      ∀ i < 256,
        (t.word d.toNat i).toNat =
          (s.word a.toNat i).toNat % 2 ^ 23 + (s.word a.toNat i).toNat / 2 ^ 23 * 8191 ∧
        (t.word d.toNat i).toNat % Q = (s.word a.toNat i).toNat % Q ∧
        (t.word d.toNat i).toNat ≤ 12574208)

/-- R121: CSUBQ writes w - Q for Q ≤ w < Q + 2^31 and w otherwise. -/
def Obligations.CsubqCommand : Prop :=
  ∀ (s : State) (d a : Slot),
    Encodes 0x16 d a 0 (.csubq d a) ∧
    (s.tag a.toNat = .none → FaultsAs (.csubq d a) s 2) ∧
    (s.tag a.toNat ≠ .none → ∃ t, exec (.csubq d a) s = .next t ∧ Frame s t [d.toNat] ∧
      t.tag d.toNat = s.tag a.toNat ∧
      ∀ i < 256, (t.word d.toNat i).toNat =
        if Q ≤ (s.word a.toNat i).toNat ∧ (s.word a.toNat i).toNat < Q + 2 ^ 31
        then (s.word a.toNat i).toNat - Q else (s.word a.toNat i).toNat)

/-- R122: FREEZE writes `w mod Q` for every word. -/
def Obligations.FreezeCommand : Prop :=
  ∀ (s : State) (d a : Slot),
    Encodes 0x17 d a 0 (.freeze d a) ∧
    (s.tag a.toNat = .none → FaultsAs (.freeze d a) s 2) ∧
    (s.tag a.toNat ≠ .none → ∃ t, exec (.freeze d a) s = .next t ∧ Frame s t [d.toNat] ∧
      t.tag d.toNat = s.tag a.toNat ∧
      ∀ i < 256, (t.word d.toNat i).toNat = (s.word a.toNat i).toNat % Q)

/-- R123: SHLD writes `(w·2^D) mod 2^32`. -/
def Obligations.ShldCommand : Prop :=
  ∀ (s : State) (d a : Slot),
    Encodes 0x18 d a 0 (.shld d a) ∧
    (s.tag a.toNat = .none → FaultsAs (.shld d a) s 2) ∧
    (s.tag a.toNat ≠ .none → ∃ t, exec (.shld d a) s = .next t ∧ Frame s t [d.toNat] ∧
      t.tag d.toNat = s.tag a.toNat ∧
      ∀ i < 256, (t.word d.toNat i).toNat = (s.word a.toNat i).toNat * 2 ^ s.env.params.d % 2 ^ 32)

/-! ## Rounding and norm -/

/-- R142 with R141: P2R splits every word w as hi·2^D + lo with -2^(D-1) < lo ≤ 2^(D-1), stores hi in d and Q + lo
in b; equal destinations fault `F_RANGE` before the source is looked at. R143: for a canonical word hi is at most
2^(23-D). -/
def Obligations.P2rCommand : Prop :=
  ∀ (s : State) (d a b : Slot), s.env.params.legal = true →
    Encodes 0x20 d a b (.p2r d a b) ∧
    (d = b → FaultsAs (.p2r d a b) s 4) ∧
    (d ≠ b → s.tag a.toNat = .none → FaultsAs (.p2r d a b) s 2) ∧
    (d ≠ b → s.tag a.toNat = .ntt → FaultsAs (.p2r d a b) s 3) ∧
    (d ≠ b → s.tag a.toNat = .std → ∃ t, exec (.p2r d a b) s = .next t ∧
      Frame s t [d.toNat, b.toNat] ∧ t.tag d.toNat = .std ∧ t.tag b.toNat = .std ∧
      ∀ i < 256, ∃ lo : Int,
        -(2 ^ (s.env.params.d - 1) : Int) < lo ∧ lo ≤ 2 ^ (s.env.params.d - 1) ∧
        ((s.word a.toNat i).toNat : Int) = ((t.word d.toNat i).toNat : Int) * 2 ^ s.env.params.d + lo ∧
        ((t.word b.toNat i).toNat : Int) = Q + lo ∧
        ((s.word a.toNat i).toNat < Q → (t.word d.toNat i).toNat ≤ 2 ^ (23 - s.env.params.d)))

/-- R145 with R141: DECOMP splits every word w as q·ALPHA + r0 with -GAMMA2 < r0 ≤ GAMMA2; where q·ALPHA = Q - 1 the
high part is 0 and the low part one less. -/
def Obligations.DecompCommand : Prop :=
  ∀ (s : State) (d a b : Slot), s.env.params.legal = true →
    Encodes 0x21 d a b (.decomp d a b) ∧
    (d = b → FaultsAs (.decomp d a b) s 4) ∧
    (d ≠ b → s.tag a.toNat = .none → FaultsAs (.decomp d a b) s 2) ∧
    (d ≠ b → s.tag a.toNat = .ntt → FaultsAs (.decomp d a b) s 3) ∧
    (d ≠ b → s.tag a.toNat = .std → ∃ t, exec (.decomp d a b) s = .next t ∧
      Frame s t [d.toNat, b.toNat] ∧ t.tag d.toNat = .std ∧ t.tag b.toNat = .std ∧
      ∀ i < 256, ∃ q r0 : Int,
        -(s.env.params.gamma2 : Int) < r0 ∧ r0 ≤ s.env.params.gamma2 ∧
        ((s.word a.toNat i).toNat : Int) = q * (2 * s.env.params.gamma2) + r0 ∧
        (q * (2 * s.env.params.gamma2) = Q - 1 →
          (t.word d.toNat i).toNat = 0 ∧ ((t.word b.toNat i).toNat : Int) = Q + (r0 - 1)) ∧
        (q * (2 * s.env.params.gamma2) ≠ Q - 1 →
          ((t.word d.toNat i).toNat : Int) = q ∧ ((t.word b.toNat i).toNat : Int) = Q + r0))

/-- R146: for a canonical word w ≡ r1·ALPHA + r0 (mod Q), 0 ≤ r1 ≤ M - 1, -GAMMA2 ≤ r0 ≤ GAMMA2, and r0 = -GAMMA2
only at w = Q - GAMMA2, where r1 = 0. -/
def Obligations.DecompContract : Prop :=
  ∀ (s : State) (d a b : Slot), s.env.params.legal = true → d ≠ b → s.tag a.toNat = .std →
    (s.poly a.toNat).Below Q →
    ∃ t, exec (.decomp d a b) s = .next t ∧
      ∀ i < 256, ∃ r0 : Int, ((t.word b.toNat i).toNat : Int) = Q + r0 ∧
        (((t.word d.toNat i).toNat : Int) * (2 * s.env.params.gamma2) + r0) % Q = (s.word a.toNat i).toNat ∧
        (t.word d.toNat i).toNat ≤ s.env.params.m - 1 ∧
        -(s.env.params.gamma2 : Int) ≤ r0 ∧ r0 ≤ s.env.params.gamma2 ∧
        (r0 = -(s.env.params.gamma2 : Int) →
          (s.word a.toNat i).toNat + s.env.params.gamma2 = Q ∧ (t.word d.toNat i).toNat = 0)

/-- R148, R140: CHKNORM writes `NORM`, 1 iff the value v that R148's lines compute from some word, whatever the 32-bit
word is, equals or exceeds `BOUND`, and ORs it into `REJ`; no slot is written. With `BOUND = 0` every input is over
(R47). -/
def Obligations.ChknormCommand : Prop :=
  ∀ (s : State) (a : Slot),
    let value (w : Word) : Int :=
      let x : Int := (4190208 - (w.toNat : Int)) % 2 ^ 32
      let t : Int := if x < 2 ^ 31 then x else x - 2 ^ 32
      let t : Int := if t < 0 then -t - 1 else t
      (4190208 - t) % 2 ^ 32
    Encodes 0x22 0 a 0 (.chknorm a) ∧
    (s.tag a.toNat = .none → FaultsAs (.chknorm a) s 2) ∧
    (s.tag a.toNat = .ntt → FaultsAs (.chknorm a) s 3) ∧
    (s.tag a.toNat = .std → ∃ t, exec (.chknorm a) s = .next t ∧
      CommonFrame s t [] ∧ NonceKept s t ∧ HintsKept s t ∧ CountsKept s t ∧
      (∀ i < 256, ((normValue (s.word a.toNat i)).toNat : Int) = value (s.word a.toNat i)) ∧
      (t.norm = true ↔ ∃ i < 256, (s.bound.toNat : Int) ≤ value (s.word a.toNat i)) ∧
      t.rej = (s.rej || t.norm) ∧ (s.bound = 0 → t.norm = true))

/-- R149: for canonical words the value v that CHKNORM compares is min(w, Q - w), the absolute value of the centred
remainder, and `NORM` is 1 iff some coefficient has v ≥ BOUND. -/
def Obligations.ChknormContract : Prop :=
  ∀ (s : State) (a : Slot), s.tag a.toNat = .std → (s.poly a.toNat).Below Q →
    ∃ t, exec (.chknorm a) s = .next t ∧
      (∀ i < 256, (normValue (s.word a.toNat i)).toNat =
        min (s.word a.toNat i).toNat (Q - (s.word a.toNat i).toNat) ∧
        ((normValue (s.word a.toNat i)).toNat : Int) = |centred ((s.word a.toNat i).toNat : Int) Q|) ∧
      (t.norm = true ↔
        ∃ i < 256, s.bound.toNat ≤ min (s.word a.toNat i).toNat (Q - (s.word a.toNat i).toNat))

/-! ## Vector algebra -/

/-- R156: PWACC writes the sum modulo 2^32 of the L Montgomery products; a run past slot 255 faults before any tag is
looked at. -/
def Obligations.PwaccCommand : Prop :=
  ∀ (s : State) (d a b : Slot) (l : Nat), s.env.params.l = l → 1 ≤ l →
    Encodes 0x30 d a b (.pwacc d a b) ∧
    (255 < a.toNat + l - 1 ∨ 255 < b.toNat + l - 1 → FaultsAs (.pwacc d a b) s 4) ∧
    (a.toNat + l - 1 ≤ 255 → b.toNat + l - 1 ≤ 255 →
      ((∃ j < l, s.tag (a.toNat + j) = .none ∨ s.tag (b.toNat + j) = .none) → FaultsAs (.pwacc d a b) s 2) ∧
      ((∀ j < l, s.tag (a.toNat + j) ≠ .none ∧ s.tag (b.toNat + j) ≠ .none) →
        (∃ j < l, s.tag (a.toNat + j) = .std ∨ s.tag (b.toNat + j) = .std) → FaultsAs (.pwacc d a b) s 3) ∧
      ((∀ j < l, s.tag (a.toNat + j) = .ntt ∧ s.tag (b.toNat + j) = .ntt) →
        ∃ t, exec (.pwacc d a b) s = .next t ∧ Frame s t [d.toNat] ∧ t.tag d.toNat = .ntt ∧
          ∀ i < 256, (t.word d.toNat i).toNat =
            (∑ j ∈ Finset.range l,
              (mulMr (s.word (a.toNat + j) i) (s.word (b.toNat + j) i)).toNat) % 2 ^ 32))

/-- R157: where each of the L products is at most Q·2^32 the result word is below 2·L·Q and congruent to 2^(-32) times
the sum of the products. -/
def Obligations.PwaccContract : Prop :=
  ∀ (s : State) (d a b : Slot), s.env.params.legal = true →
    a.toNat + s.env.params.l - 1 ≤ 255 → b.toNat + s.env.params.l - 1 ≤ 255 →
    (∀ j < s.env.params.l, s.tag (a.toNat + j) = .ntt ∧ s.tag (b.toNat + j) = .ntt) →
    ∃ t, exec (.pwacc d a b) s = .next t ∧
      ∀ i < 256,
        (∀ j < s.env.params.l, (s.word (a.toNat + j) i).toNat * (s.word (b.toNat + j) i).toNat ≤ Q * 2 ^ 32) →
        (t.word d.toNat i).toNat < 2 * s.env.params.l * Q ∧
        (t.word d.toNat i).toNat * 2 ^ 32 % Q =
          (∑ j ∈ Finset.range s.env.params.l,
            (s.word (a.toNat + j) i).toNat * (s.word (b.toNat + j) i).toNat) % Q

/-! ## Stream commands -/

/-- R174, R161, R201: the decode-time faults of the stream commands, in their priority. -/
def Obligations.StreamDecodeFaults : Prop :=
  ∀ (s : State) (d : Slot),
    (∀ i ∈ [Instr.sunif d, Instr.seta d, Instr.sgam1 d],
      (1024 < s.alen.toNat → FaultsAs i s 5) ∧
      (s.alen.toNat ≤ 1024 → s.novf = true → FaultsAs i s 6)) ∧
    (1024 < s.alen.toNat → FaultsAs (.chal d) s 5) ∧
    (255 < d.toNat + s.env.params.k * s.env.params.l - 1 → FaultsAs (.expmat d) s 4) ∧
    (d.toNat + s.env.params.k * s.env.params.l - 1 ≤ 255 → 1024 < s.alen.toNat → FaultsAs (.expmat d) s 5)

/-- R178, R177: when the n-th 3-byte candidate of the stream XOF128(seed ‖ nonce) fills the slot and its 3n bytes are
served, SUNIF writes the 256 accepted candidates in order, tags `NTT`, counts blocks and rejections (where the numbers
fit the registers; log 10) and post-increments `NONCE`. -/
def Obligations.SunifCommand : Prop :=
  ∀ (s : State) (d : Slot) (n : Nat) (m : List Byte), s.alen.toNat ≤ 1024 → s.novf = false →
    m = (List.range s.alen.toNat).map s.abuf ++
      [BitVec.ofNat 8 (s.nonce.toNat % 256), BitVec.ofNat 8 (s.nonce.toNat / 256)] →
    FillsAt (fun t => decide (t < Q)) (uniformAt s.env .v128 m) n → Serves s.env .v128 m (3 * n) →
    Encodes 0x41 d 0 0 (.sunif d) ∧
    ∃ t, exec (.sunif d) s = .next t ∧ SeedFrame s t d.toNat ∧ NonceBumped s t ∧ t.tag d.toNat = .ntt ∧
      (t.poly d.toNat).words.map BitVec.toNat =
        acceptedOf (fun t => decide (t < Q)) (uniformAt s.env .v128 m) n ∧
      (blocksFor .v128 (3 * n) < 2 ^ 32 → t.sqzcnt.toNat = blocksFor .v128 (3 * n)) ∧
      (n - 256 < 2 ^ 32 → t.rejcnt.toNat = n - 256)

/-- R180, R179: when the n-th nibble of the stream XOF256(seed ‖ nonce) fills the slot and the bytes up to it are
served, SETA writes Q + ETA - v for the 256 accepted nibbles v in order, tags `STD`, and counts blocks and rejections
(where the numbers fit the registers; log 10). -/
def Obligations.SetaCommand : Prop :=
  ∀ (s : State) (d : Slot) (n : Nat) (m : List Byte), s.env.params.legal = true →
    s.alen.toNat ≤ 1024 → s.novf = false →
    m = (List.range s.alen.toNat).map s.abuf ++
      [BitVec.ofNat 8 (s.nonce.toNat % 256), BitVec.ofNat 8 (s.nonce.toNat / 256)] →
    FillsAt (fun v => decide (v ≤ 2 * s.env.params.eta)) (nibbleAt s.env m) n →
    Serves s.env .v256 m ((n + 1) / 2) →
    Encodes 0x42 d 0 0 (.seta d) ∧
    ∃ t, exec (.seta d) s = .next t ∧ SeedFrame s t d.toNat ∧ NonceBumped s t ∧ t.tag d.toNat = .std ∧
      (t.poly d.toNat).words.map BitVec.toNat =
        (acceptedOf (fun v => decide (v ≤ 2 * s.env.params.eta)) (nibbleAt s.env m) n).map
          (fun v => Q + s.env.params.eta - v) ∧
      (blocksFor .v256 ((n + 1) / 2) < 2 ^ 32 → t.sqzcnt.toNat = blocksFor .v256 ((n + 1) / 2)) ∧
      (n - 256 < 2 ^ 32 → t.rejcnt.toNat = n - 256)

/-- R183, R182: when 32·YBITS bytes of XOF256(seed ‖ nonce) are served, SGAM1 writes Q + GAMMA1 - t for the fields t
of the stream's bit string, tags `STD` and rejects nothing. -/
def Obligations.Sgam1Command : Prop :=
  ∀ (s : State) (d : Slot) (m : List Byte), s.env.params.legal = true →
    s.alen.toNat ≤ 1024 → s.novf = false →
    m = (List.range s.alen.toNat).map s.abuf ++
      [BitVec.ofNat 8 (s.nonce.toNat % 256), BitVec.ofNat 8 (s.nonce.toNat / 256)] →
    Serves s.env .v256 m (32 * s.env.params.ybits) →
    Encodes 0x43 d 0 0 (.sgam1 d) ∧
    ∃ t, exec (.sgam1 d) s = .next t ∧ SeedFrame s t d.toNat ∧ NonceBumped s t ∧ t.tag d.toNat = .std ∧
      (∀ k < 256, (t.word d.toNat k).toNat +
        ∑ e ∈ Finset.range s.env.params.ybits, bitAt s.env m (s.env.params.ybits * k + e) * 2 ^ e =
          Q + 2 ^ (s.env.params.ybits - 1)) ∧
      t.sqzcnt = BitVec.ofNat 32 (blocksFor .v256 (32 * s.env.params.ybits)) ∧ t.rejcnt = 0

/-- R201, R202: where its session ends in a commit, CHAL completes with exactly TAU nonzero words, each 1 or Q - 1,
tags `STD`, and writes `SQZCNT`, `REJCNT` (the session's numbers, where they fit the registers; log 10) and no other
register. -/
def Obligations.ChalCommand : Prop :=
  ∀ (s : State) (d : Slot) (x : Sample), s.env.params.legal = true → s.alen.toNat ≤ 1024 →
    challengeSample s.env ((List.range s.alen.toNat).map s.abuf) = .done x →
    Encodes 0x50 d 0 0 (.chal d) ∧
    ∃ t, exec (.chal d) s = .next t ∧ CommonFrame s t [d.toNat] ∧
      NonceKept s t ∧ NormKept s t ∧ HintsKept s t ∧
      t.tag d.toNat = .std ∧ t.poly d.toNat = x.out ∧
      (x.nblk < 2 ^ 32 → t.sqzcnt.toNat = x.nblk) ∧ (x.rej < 2 ^ 32 → t.rejcnt.toNat = x.rej) ∧
      (∀ k < 256, (t.word d.toNat k).toNat = 0 ∨ (t.word d.toNat k).toNat = 1 ∨
        (t.word d.toNat k).toNat = Q - 1) ∧
      ((List.range 256).filter fun k => t.word d.toNat k != 0).length = s.env.params.tau

/-- R201's shuffle, resampling included: where step j reads the bytes from `at' j` up to `at' (j + 1)`, every one but the
last above its index, those are counted in `REJCNT` (where the number fits it; log 10), move nothing and use no sign
bit; the last moves the words, with sign bit j, the bits taken least significant first from the first eight bytes. -/
def Obligations.ChalShuffle : Prop :=
  ∀ (s : State) (d : Slot) (m : List Byte) (at' : Nat → Nat), s.env.params.legal = true → s.alen.toNat ≤ 1024 →
    m = (List.range s.alen.toNat).map s.abuf →
    StepsRead s.env m at' s.env.params.tau →
    Serves s.env .v256 m (at' s.env.params.tau) →
    ∃ t, exec (.chal d) s = .next t ∧
      (blocksFor .v256 (at' s.env.params.tau) < 2 ^ 32 → t.sqzcnt.toNat = blocksFor .v256 (at' s.env.params.tau)) ∧
      (at' s.env.params.tau - 8 - s.env.params.tau < 2 ^ 32 →
        t.rejcnt.toNat = at' s.env.params.tau - 8 - s.env.params.tau) ∧
      (t.poly d.toNat).words =
        (List.range s.env.params.tau).foldl
          (fun c j =>
            let b := (s.env.streamByte .v256 m (at' (j + 1) - 1)).toNat
            (c.set (shuffleIndex s.env.params j) (c.getD b 0)).set b
              (if bitAt s.env m j = 1 then BitVec.ofNat 32 (Q - 1) else 1))
          (List.replicate 256 0)

/-- R161: where the session of every entry (i, j), keyed on rho ‖ byte(j) ‖ byte(i), ends in a commit, EXPMAT
completes: entry (i, j) stands in slot d + i·L + j, tagged `NTT`, every word canonical, and the counters are sums. -/
def Obligations.ExpmatCommand : Prop :=
  ∀ (s : State) (d : Slot) (x : Nat → Nat → Sample) (k l : Nat), s.env.params.k = k → s.env.params.l = l →
    s.env.params.legal = true →
    d.toNat + k * l - 1 ≤ 255 → s.alen.toNat ≤ 1024 →
    (∀ i < k, ∀ j < l, uniformSample s.env .v128
      ((List.range s.alen.toNat).map s.abuf ++ [BitVec.ofNat 8 j, BitVec.ofNat 8 i]) = .done (x i j)) →
    Encodes 0x40 d 0 0 (.expmat d) ∧
    ∃ t, exec (.expmat d) s = .next t ∧
      CommonFrame s t ((List.range (k * l)).map (d.toNat + ·)) ∧ NonceKept s t ∧ NormKept s t ∧ HintsKept s t ∧
      (∀ i < k, ∀ j < l, t.poly (d.toNat + i * l + j) = (x i j).out ∧
        t.tag (d.toNat + i * l + j) = .ntt ∧ (t.poly (d.toNat + i * l + j)).Below Q) ∧
      t.sqzcnt = BitVec.ofNat 32 (∑ i ∈ Finset.range k, ∑ j ∈ Finset.range l, (x i j).nblk) ∧
      t.rejcnt = BitVec.ofNat 32 (∑ i ∈ Finset.range k, ∑ j ∈ Finset.range l, (x i j).rej)

/-- R162: where EXPMAT completes it leaves in slot d + i·L + j what SUNIF leaves there with `NONCE` = 256·i + j. -/
def Obligations.ExpmatEntryIsSunif : Prop :=
  ∀ (s t : State) (d e : Slot) (i j : Nat), s.env.params.legal = true → s.fault = false →
    exec (.expmat d) s = .next t → t.fault = false →
    i < s.env.params.k → j < s.env.params.l → e.toNat = d.toNat + i * s.env.params.l + j →
    ∃ u, exec (.sunif e) { s with nonce := BitVec.ofNat 16 (256 * i + j), novf := false } = .next u ∧
      u.fault = false ∧ u.poly e.toNat = t.poly e.toNat ∧ u.tag e.toNat = t.tag e.toNat

/-- R176, R237, R201: where the session of SUNIF, SETA, SGAM1 or CHAL aborts with a code, the command faults with it: its slot
gets tag `NONE` (its words are unspecified and nothing is said of them), `NONCE`, `NOVF`, the counters and everything
else keep their values. -/
def Obligations.SessionFaults : Prop :=
  ∀ (s : State) (d : Slot) (c : FaultCode), s.alen.toNat ≤ 1024 →
    ∀ i : Instr,
      ((i = .sunif d ∧ s.novf = false ∧ uniformSample s.env .v128 s.seedString = .aborted c) ∨
       (i = .seta d ∧ s.novf = false ∧ etaSample s.env s.seedString = .aborted c) ∨
       (i = .sgam1 d ∧ s.novf = false ∧ gamma1Sample s.env s.seedString = .aborted c) ∨
       (i = .chal d ∧ challengeSample s.env s.absorbed = .aborted c)) →
      (c = .xofLim ∨ c = .xofErr) ∧
      ∃ t, exec i s = .next t ∧ t.tag d.toNat = .none ∧
        (∀ k, k ≠ d.toNat → t.poly k = s.poly k ∧ t.tag k = s.tag k) ∧
        t.fault = true ∧ t.fcode = (if c = .xofLim then 7 else 8) ∧ t.finfo = encode i ∧
        NonceKept s t ∧ NormKept s t ∧ HintsKept s t ∧ CountsKept s t ∧ t.cmdcnt = s.cmdcnt ∧
        (∀ a, Memory.read t.mem a = Memory.read s.mem a) ∧ t.alen = s.alen ∧ t.bound = s.bound

/-- R165: where the session of some entry of EXPMAT aborts and every entry before it, in row-major order, commits, the
command faults with that entry's code: all K·L slots get tag `NONE`, nothing is said of their words, and everything else
keeps its value. -/
def Obligations.ExpmatSessionFaults : Prop :=
  ∀ (s : State) (d : Slot) (c : FaultCode) (n : Nat) (x : Nat → Sample), s.env.params.legal = true →
    d.toNat + s.env.params.k * s.env.params.l - 1 ≤ 255 → s.alen.toNat ≤ 1024 →
    n < s.env.params.k * s.env.params.l →
    (∀ n' < n, uniformSample s.env .v128 (s.absorbed ++
      [BitVec.ofNat 8 (n' % s.env.params.l), BitVec.ofNat 8 (n' / s.env.params.l)]) = .done (x n')) →
    uniformSample s.env .v128 (s.absorbed ++
      [BitVec.ofNat 8 (n % s.env.params.l), BitVec.ofNat 8 (n / s.env.params.l)]) = .aborted c →
    ∃ t, exec (.expmat d) s = .next t ∧
      (∀ n' < s.env.params.k * s.env.params.l, t.tag (d.toNat + n') = .none) ∧
      (∀ k, k < d.toNat ∨ d.toNat + s.env.params.k * s.env.params.l ≤ k →
        t.poly k = s.poly k ∧ t.tag k = s.tag k) ∧
      t.fault = true ∧ t.fcode = c.code ∧ t.finfo = encode (.expmat d) ∧
      NonceKept s t ∧ NormKept s t ∧ HintsKept s t ∧ CountsKept s t ∧ t.cmdcnt = s.cmdcnt ∧
      (∀ a, Memory.read t.mem a = Memory.read s.mem a) ∧ t.alen = s.alen ∧ t.bound = s.bound

/-- R172: a session that needs block k, whatever k is, and has got the blocks before it, ends with `F_XOFLIM` at a limit
of k blocks, before the squeeze, and with `F_XOFERR` where the block, within the limit or without one, fails. Each
profile needs block k where the k blocks before it do not bring it to its stop condition. -/
def Obligations.LimitBeforeSqueeze : Prop :=
  ∀ (e : Env) (m : List Byte) (k : Nat),
    (∀ v, (∀ b < k, e.squeezeFails v m b = false) →
      (acceptedOf (fun t => decide (t < Q)) (uniformAt e v m) (k * v.rate / 3)).length < 256 →
      EndsAtBlock e v m k (uniformSample e v m)) ∧
    ((∀ b < k, e.squeezeFails .v256 m b = false) →
      ((acceptedOf (fun v => decide (v ≤ 2 * e.params.eta)) (nibbleAt e m) (2 * (k * 136))).length < 256 →
        EndsAtBlock e .v256 m k (etaSample e m)) ∧
      (k * 136 < 32 * e.params.ybits → EndsAtBlock e .v256 m k (gamma1Sample e m)) ∧
      (e.params.legal = true →
        (k = 0 ∨ ∃ j < e.params.tau, ∃ at', StepsRead e m at' j ∧ at' j ≤ k * 136 ∧
          ∀ n, at' j ≤ n → n < k * 136 → shuffleIndex e.params j < (e.streamByte .v256 m n).toNat) →
        EndsAtBlock e .v256 m k (challengeSample e m)))

/-- R70, R185, R183: under a finite `SQZ_LIMIT` no session of any profile is unending, so every command is acknowledged,
with a next state; SGAM1 is, whatever the limit. Without a limit a session of the other profiles is unending exactly
where no block fails and the stream never yields the candidates it needs; no command refuses, and one has no next state
only without a limit, and only if it is one of the four. -/
def Obligations.LimitedCommandsEnd : Prop :=
  (∀ (e : Env) (v : Variant) (m : List Byte) (n : Nat), e.sqzLimit = .blocks n →
    uniformSample e v m ≠ .unending ∧ etaSample e m ≠ .unending ∧
    gamma1Sample e m ≠ .unending ∧ challengeSample e m ≠ .unending) ∧
  (∀ (s : State) (i : Instr) (n : Nat), s.env.sqzLimit = .blocks n → ∃ t, exec i s = .next t) ∧
  (∀ (s : State) (d : Slot), gamma1Sample s.env s.seedString ≠ .unending ∧ ∃ t, exec (.sgam1 d) s = .next t) ∧
  (∀ (e : Env) (v : Variant) (m : List Byte), uniformSample e v m = .unending ↔
    e.sqzLimit = .unlimited ∧ (∀ k, e.squeezeFails v m k = false) ∧
      ∀ n, (acceptedOf (fun t => decide (t < Q)) (uniformAt e v m) n).length < 256) ∧
  (∀ (e : Env) (m : List Byte), etaSample e m = .unending ↔
    e.sqzLimit = .unlimited ∧ (∀ k, e.squeezeFails .v256 m k = false) ∧
      ∀ n, (acceptedOf (fun v => decide (v ≤ 2 * e.params.eta)) (nibbleAt e m) n).length < 256) ∧
  (∀ (e : Env) (m : List Byte), e.params.legal = true → (challengeSample e m = .unending ↔
    e.sqzLimit = .unlimited ∧ (∀ k, e.squeezeFails .v256 m k = false) ∧
      ∃ j < e.params.tau, ∃ at', StepsRead e m at' j ∧
        ∀ n, at' j ≤ n → shuffleIndex e.params j < (e.streamByte .v256 m n).toNat)) ∧
  ∀ (s : State) (i : Instr), (∀ r, exec i s ≠ .refused r) ∧
    ∀ f, exec i s = .fault f → s.env.sqzLimit = .unlimited ∧
      ∃ d, i ∈ [Instr.sunif d, Instr.seta d, Instr.chal d, Instr.expmat d]

/-- R186: the result of a completing stream command is a function of `ABUF[0..ALEN)`, `NONCE` and the arguments: two
states that agree on these (and on `NOVF`) get equal destination slots, tags and counters, whatever else differs. -/
def Obligations.StreamDeterminism : Prop :=
  ∀ (s s' t : State) (d : Slot) (i : Instr), s.env.params.legal = true →
    i ∈ [Instr.sunif d, Instr.seta d, Instr.sgam1 d, Instr.chal d, Instr.expmat d] →
    s.alen = s'.alen → (∀ n < s.alen.toNat, s.abuf n = s'.abuf n) →
    s.nonce = s'.nonce → s.novf = s'.novf → s.env = s'.env → s.fault = false → s'.fault = false →
    exec i s = .next t → t.fault = false →
    ∃ t', exec i s' = .next t' ∧ t'.fault = false ∧
      (∀ k, k = d.toNat ∨
          (i = .expmat d ∧ d.toNat ≤ k ∧ k < d.toNat + s.env.params.k * s.env.params.l) →
        t'.poly k = t.poly k ∧ t'.tag k = t.tag k) ∧
      t'.sqzcnt = t.sqzcnt ∧ t'.rejcnt = t.rejcnt ∧ t'.nonce = t.nonce ∧ t'.novf = t.novf

/-! ## Hints -/

/-- R212, R211, R213: MKHINT on canonical low words and high words below M writes 0 exactly when a0 ≤ GAMMA2, or
a0 > Q - GAMMA2, or a0 = Q - GAMMA2 and a1 = 0, and 1 otherwise; `HINTCNT` grows by the number of ones. -/
def Obligations.MkhintCommand : Prop :=
  ∀ (s : State) (d a b : Slot), s.env.params.legal = true →
    Encodes 0x60 d a b (.mkhint d a b) ∧
    (s.tag a.toNat = .none ∨ s.tag b.toNat = .none → FaultsAs (.mkhint d a b) s 2) ∧
    (s.tag a.toNat ≠ .none → s.tag b.toNat ≠ .none → s.tag a.toNat = .ntt ∨ s.tag b.toNat = .ntt →
      FaultsAs (.mkhint d a b) s 3) ∧
    (s.tag a.toNat = .std → s.tag b.toNat = .std →
      ∃ t, exec (.mkhint d a b) s = .next t ∧ CommonFrame s t [d.toNat] ∧ NonceKept s t ∧ NormKept s t ∧
        CountsKept s t ∧ t.tag d.toNat = .std ∧
        (∀ i < 256, t.word d.toNat i = 0 ∨ t.word d.toNat i = 1) ∧
        t.hintcnt = s.hintcnt +
          BitVec.ofNat 32 ((List.range 256).filter fun i => t.word d.toNat i == 1).length ∧
        (∀ i < 256, (t.word d.toNat i = 0 ↔
          (decompose s.env.params.gamma2
            (((s.word b.toNat i).toNat * (2 * s.env.params.gamma2) + (s.word a.toNat i).toNat) % Q)).1 =
            ((s.word b.toNat i).toNat : Int))) ∧
        ∀ i < 256, (s.word a.toNat i).toNat < Q → (s.word b.toNat i).toNat < s.env.params.m →
          (t.word d.toNat i = 0 ↔
            (s.word a.toNat i).toNat ≤ s.env.params.gamma2 ∨
            Q - s.env.params.gamma2 < (s.word a.toNat i).toNat ∨
            ((s.word a.toNat i).toNat = Q - s.env.params.gamma2 ∧ (s.word b.toNat i).toNat = 0)))

/-- R214: USEHINT writes the high part of Decompose, moved one step modulo M where the hint word is nonzero: up if the
low part is positive, down otherwise. -/
def Obligations.UsehintCommand : Prop :=
  ∀ (s : State) (d a b : Slot), s.env.params.legal = true →
    Encodes 0x61 d a b (.usehint d a b) ∧
    (s.tag a.toNat = .none ∨ s.tag b.toNat = .none → FaultsAs (.usehint d a b) s 2) ∧
    (s.tag a.toNat ≠ .none → s.tag b.toNat ≠ .none → s.tag a.toNat = .ntt ∨ s.tag b.toNat = .ntt →
      FaultsAs (.usehint d a b) s 3) ∧
    (s.tag a.toNat = .std → s.tag b.toNat = .std →
      ∃ t, exec (.usehint d a b) s = .next t ∧ Frame s t [d.toNat] ∧ t.tag d.toNat = .std ∧
        (∀ i < 256, ∀ r1 r0 : Int, decompose s.env.params.gamma2 (s.word a.toNat i).toNat = (r1, r0) →
          (s.word b.toNat i = 0 → ((t.word d.toNat i).toNat : Int) = r1) ∧
          (s.word b.toNat i ≠ 0 → 0 < r0 → ((t.word d.toNat i).toNat : Int) = (r1 + 1) % s.env.params.m) ∧
          (s.word b.toNat i ≠ 0 → r0 ≤ 0 → ((t.word d.toNat i).toNat : Int) = (r1 - 1) % s.env.params.m)) ∧
        ∀ i < 256, (s.word a.toNat i).toNat < Q → (t.word d.toNat i).toNat < s.env.params.m)

/-- R215: MKHINT on (δ mod Q, w1), then USEHINT on the value (w1·ALPHA + δ) mod Q, gives w1 back, for every δ with
|δ| ≤ 2·GAMMA2 - BETA - 2. -/
def Obligations.HintRoundTrip : Prop :=
  ∀ (s : State) (h low high val r : Slot) (delta : Nat → Int), s.env.params.legal = true →
    h ≠ val →
    s.tag low.toNat = .std → s.tag high.toNat = .std → s.tag val.toNat = .std →
    (∀ i < 256, (s.word high.toNat i).toNat < s.env.params.m ∧
      |delta i| + s.env.params.beta + 2 ≤ 2 * s.env.params.gamma2 ∧
      ((s.word low.toNat i).toNat : Int) = delta i % Q ∧
      ((s.word val.toNat i).toNat : Int) =
        (((s.word high.toNat i).toNat : Int) * (2 * s.env.params.gamma2) + delta i) % Q) →
    ∃ t u, exec (.mkhint h low high) s = .next t ∧ exec (.usehint r val h) t = .next u ∧
      ∀ i < 256, u.word r.toNat i = s.word high.toNat i

/-! ## Rules over the whole machine -/

/-- R46: after a hard reset, and after a `CTRL` write with `SRST`, every piece of the block's state has the value of
the table; so has the reset state. -/
def Obligations.ResetState : Prop :=
  let asTheTable (t : State) : Prop :=
    (∀ k i, t.word k i = 0) ∧ (∀ k, t.tag k = .none) ∧ (∀ n, t.abuf n = 0) ∧
    t.alen = 0 ∧ t.nonce = 0 ∧ t.novf = false ∧ t.bound = 0 ∧ t.hintcnt = 0 ∧ t.cmdcnt = 0 ∧
    t.sqzcnt = 0 ∧ t.rejcnt = 0 ∧ t.fault = false ∧ t.fcode = 0 ∧ t.finfo = 0 ∧ t.rej = false ∧ t.norm = false
  asTheTable State.reset ∧
  ∀ (s : State) (rest : List HostOp) (v : Word), s.env.params.legal = true → v.getLsbD 0 = true →
    (∃ t, step { s with pending := .hardReset :: rest } = .next t ∧ asTheTable t) ∧
    ∃ t, step { s with pending := .write 0x0C 4 v :: rest } = .next t ∧ asTheTable t

/-- The invariant holds at reset. -/
def Obligations.ResetMeetsInvariant : Prop := State.Inv State.reset

/-- Every step, of whatever host operation from whatever state that meets it, keeps the invariant. -/
def Obligations.StepKeepsInvariant : Prop :=
  ∀ s t : State, s.Inv → step s = .next t → t.Inv

/-- R34: `CMDCNT` counts one, modulo 2^32, when a command completes without a fault, and stands when it faults. -/
def Obligations.CommandCounter : Prop :=
  ∀ (s t : State) (i : Instr), s.fault = false → exec i s = .next t →
    (t.fault = false → t.cmdcnt.toNat = (s.cmdcnt.toNat + 1) % 2 ^ 32) ∧
    (t.fault = true → t.cmdcnt = s.cmdcnt)

/-- R236: for the six decode-time causes the fault is precise: three registers are written, and no other state
changes. -/
def Obligations.DecodeFaultsArePrecise : Prop :=
  ∀ (s t : State) (i : Instr), s.fault = false → exec i s = .next t → t.fault = true → t.fcode.toNat ≤ 6 →
    1 ≤ t.fcode.toNat ∧ t = { s with fault := true, fcode := t.fcode, finfo := encode i }

/-- R244: a command raises no fault but those its row of the table marks (a well-formed command is no longer
illegal). -/
def Obligations.FaultTable : Prop :=
  ∀ (s t : State) (i : Instr), i.wellFormed = true → s.fault = false → exec i s = .next t → t.fault = true →
    match i with
    | .nop | .settag _ _ => False
    | .ntt _ _ | .invntt _ _ | .pwmul _ _ _ | .add _ _ _ | .sub _ _ _
    | .chknorm _ | .mkhint _ _ _ | .usehint _ _ _ => t.fcode ∈ [2, 3]
    | .reduce _ _ | .csubq _ _ | .freeze _ _ | .shld _ _ => t.fcode = 2
    | .p2r _ _ _ | .decomp _ _ _ | .pwacc _ _ _ => t.fcode ∈ [2, 3, 4]
    | .expmat _ => t.fcode ∈ [4, 5, 7, 8]
    | .sunif _ | .seta _ | .sgam1 _ => t.fcode ∈ [5, 6, 7, 8]
    | .chal _ => t.fcode ∈ [5, 7, 8]

/-- R43: the side effects of commands, the whole list. -/
def Obligations.SideEffectsAreTheListed : Prop :=
  ∀ (s t : State) (i : Instr), exec i s = .next t →
    (¬ NormKept s t → ∃ a, i = .chknorm a) ∧
    (s.rej = true → t.rej = true) ∧
    (t.novf ≠ s.novf → t.novf = true ∧ ∃ d, i = .sunif d ∨ i = .seta d ∨ i = .sgam1 d) ∧
    (¬ HintsKept s t → ∃ d a b, i = .mkhint d a b) ∧
    (¬ CountsKept s t → ∃ d, i = .sunif d ∨ i = .seta d ∨ i = .sgam1 d ∨ i = .chal d ∨ i = .expmat d) ∧
    ((t.fault ≠ s.fault ∨ t.fcode ≠ s.fcode ∨ t.finfo ≠ s.finfo) → t.fault = true ∧ t.finfo = encode i)

/-- R36, R35, R37, R38: no command writes `ABUF`, `ALEN` or `BOUND`, and only the seed samplers write `NONCE`. -/
def Obligations.CommandsKeepHostInputs : Prop :=
  ∀ (s t : State) (i : Instr), exec i s = .next t →
    (∀ a, Memory.read t.mem a = Memory.read s.mem a) ∧ t.alen = s.alen ∧ t.bound = s.bound ∧
    (t.nonce ≠ s.nonce → ∃ d, i = .sunif d ∨ i = .seta d ∨ i = .sgam1 d)

/-- R239, R240, R260: only a write to `CTRL` with `SRST` or `CLRFAULT`, or the reset signal, leaves the fault state. -/
def Obligations.FaultLeftOnlyByHost : Prop :=
  ∀ s t : State, s.fault = true → step s = .next t → t.fault = false →
    ∃ rest, (s.pending = .hardReset :: rest) ∨
      ∃ v : Word, s.pending = .write 0x0C 4 v :: rest ∧ (v.getLsbD 0 = true ∨ v.getLsbD 1 = true)

/-! ## The host bus -/

/-- R64, R63, R62, R29: what a read returns, on every slot word, every buffer word and every register, and that it
changes nothing of the block; `STATUS` reads FAULT, REJ, NORM, NOVF in bits 0 to 3 and zero above (R31). -/
def Obligations.BusReads : Prop :=
  ∀ (s : State) (rest : List HostOp), s.env.params.legal = true →
    let reading (addr : BitVec 19) (v : Word) : Prop :=
      step { s with pending := .read addr 4 :: rest } =
        .next { s with pending := rest, reads := s.reads ++ [v] }
    (∀ k < 256, ∀ i < 256, reading (BitVec.ofNat 19 (0x40000 + 0x400 * k + 4 * i)) (s.word k i)) ∧
    (∀ n < 256, ∃ v : Word, reading (BitVec.ofNat 19 (0x400 + 4 * n)) v ∧
      ∀ e < 4, v.toNat / 2 ^ (8 * e) % 2 ^ 8 = (s.abuf (4 * n + e)).toNat) ∧
    (∃ v : Word, reading 0x08 v ∧
      v.getLsbD 0 = s.fault ∧ v.getLsbD 1 = s.rej ∧ v.getLsbD 2 = s.norm ∧ v.getLsbD 3 = s.novf ∧
      ∀ n, 4 ≤ n → v.getLsbD n = false) ∧
    reading 0x00 0x4E54544D ∧ reading 0x04 1 ∧ reading 0x0C 0 ∧ reading 0x10 0 ∧
    reading 0x14 s.cmdcnt ∧ reading 0x18 (BitVec.ofNat 32 s.alen.toNat) ∧
    reading 0x1C (BitVec.ofNat 32 s.nonce.toNat) ∧ reading 0x20 s.bound ∧ reading 0x24 s.hintcnt ∧
    reading 0x28 (BitVec.ofNat 32 s.fcode.toNat) ∧ reading 0x2C s.finfo ∧
    reading 0x30 s.sqzcnt ∧ reading 0x34 s.rejcnt ∧ reading 0x40 (BitVec.ofNat 32 Q) ∧
    (∃ v : Word, reading 0x44 v ∧ v.toNat = s.env.params.k * 256 + s.env.params.l) ∧
    (∃ v : Word, reading 0x48 v ∧ v.toNat = s.env.params.eta) ∧
    (∃ v : Word, reading 0x4C v ∧ v.toNat = 2 ^ (s.env.params.ybits - 1)) ∧
    (∃ v : Word, reading 0x50 v ∧ v.toNat = s.env.params.gamma2) ∧
    (∃ v : Word, reading 0x54 v ∧ v.toNat = s.env.params.d) ∧
    (∃ v : Word, reading 0x58 v ∧ v.toNat = s.env.params.tau) ∧
    (∀ n, s.env.sqzLimit = .blocks n → n < 2 ^ 32 → reading 0x5C (BitVec.ofNat 32 n)) ∧
    (s.env.sqzLimit = .unlimited → reading 0x5C 0xFFFFFFFF)

/-- R66, R68, R69: which accesses get a bus error, all of them: width, alignment, unassigned addresses and offsets;
and, for a write, a read-only register or `CMD` while `FAULT` is 1. A write of anything else, `CMD` aside, is accepted
with a next state. -/
def Obligations.BusErrors : Prop :=
  ∀ (s : State) (addr : BitVec 19) (bytes : Nat) (v : Word) (rest : List HostOp), s.env.params.legal = true →
    let a := addr.toNat
    let bad : Prop := bytes ≠ 4 ∨ a % 4 ≠ 0 ∨ a = 0x38 ∨ a = 0x3C ∨ (0x60 ≤ a ∧ a < 0x400) ∨
      (0x800 ≤ a ∧ a < 0x40000)
    let readOnly : Prop := a ∈ [0x00, 0x04, 0x08, 0x14, 0x24, 0x28, 0x2C, 0x30, 0x34] ∨ (0x40 ≤ a ∧ a < 0x60)
    ((∃ e, step { s with pending := .read addr bytes :: rest } = .refused (.busError e)) ↔ bad) ∧
    ((∃ e, step { s with pending := .write addr bytes v :: rest } = .refused (.busError e)) ↔
      bad ∨ readOnly ∨ (a = 0x10 ∧ s.fault = true)) ∧
    (¬ bad → ¬ readOnly → a ≠ 0x10 → ∃ t, step { s with pending := .write addr bytes v :: rest } = .next t)

/-- R65, R63, R26: a host write to word i of slot k stores the word and changes no tag, no other word and no
register. -/
def Obligations.HostWritesSlotWord : Prop :=
  ∀ (s : State) (k i : Nat) (v : Word) (rest : List HostOp), s.env.params.legal = true → k < 256 → i < 256 →
    ∃ t, step { s with pending := .write (BitVec.ofNat 19 (0x40000 + 0x400 * k + 4 * i)) 4 v :: rest } = .next t ∧
      t.word k i = v ∧ (∀ k' i', ¬(k' = k ∧ i' = i) → t.word k' i' = s.word k' i') ∧
      t = { s with pending := rest, slots := t.slots }

/-- R62, R65, R36: a host write to `ABUF` stores the four bytes, low byte at the lowest index, and changes no other byte
and no other state. -/
def Obligations.HostWritesBuffer : Prop :=
  ∀ (s : State) (n : Nat) (v : Word) (rest : List HostOp), s.env.params.legal = true → n < 256 →
    ∃ t, step { s with pending := .write (BitVec.ofNat 19 (0x400 + 4 * n)) 4 v :: rest } = .next t ∧
      (∀ e < 4, (t.abuf (4 * n + e)).toNat = v.toNat / 2 ^ (8 * e) % 2 ^ 8) ∧
      (∀ a, ¬(0x400 + 4 * n ≤ a ∧ a < 0x400 + 4 * n + 4) → Memory.read t.mem a = Memory.read s.mem a) ∧
      t = { s with pending := rest, mem := t.mem }

/-- R35, R37, R38: host writes to `ALEN`, `NONCE` (which clears `NOVF`) and `BOUND`. -/
def Obligations.HostWritesRegisters : Prop :=
  ∀ (s : State) (v : Word) (rest : List HostOp), s.env.params.legal = true →
    step { s with pending := .write 0x18 4 v :: rest } =
      .next { s with pending := rest, alen := BitVec.ofNat 11 v.toNat } ∧
    step { s with pending := .write 0x1C 4 v :: rest } =
      .next { s with pending := rest, nonce := BitVec.ofNat 16 v.toNat, novf := false } ∧
    step { s with pending := .write 0x20 4 v :: rest } = .next { s with pending := rest, bound := v }

/-- R32, R240, R261: the actions of a `CTRL` write. `SRST` alone acts when set, and is the reset of every piece of
architectural state (the model's own fields, log 9, are kept); otherwise `CLRFAULT`, `CLRREJ` and `CLRHINT` each act when set and change nothing else. -/
def Obligations.ControlWrites : Prop :=
  ∀ (s : State) (v : Word) (rest : List HostOp), s.env.params.legal = true →
    (v.getLsbD 0 = true → step { s with pending := .write 0x0C 4 v :: rest } =
      .next { State.reset with pending := rest, reads := s.reads, env := s.env, freeIdx := s.freeIdx }) ∧
    (v.getLsbD 0 = false → step { s with pending := .write 0x0C 4 v :: rest } =
      .next { s with
        pending := rest
        fault := if v.getLsbD 1 then false else s.fault
        fcode := if v.getLsbD 1 then 0 else s.fcode
        finfo := if v.getLsbD 1 then 0 else s.finfo
        rej := if v.getLsbD 2 then false else s.rej
        norm := if v.getLsbD 2 then false else s.norm
        hintcnt := if v.getLsbD 3 then 0 else s.hintcnt })
end

