-- ==== Sys2Proof/Laws/State.lean ====
section
/-! SUPPORT. One lemma per field per update of the state, true by definition, so that no proof unfolds a record
update. -/

namespace Sys2Proof.Machine.State

variable (s : State)

/-! ## setSlot -/

@[simp] theorem setSlot_slots (k : Nat) (p : Poly) (t : Tag) : (s.setSlot k p t).slots = setAt s.slots k p := rfl
@[simp] theorem setSlot_tags (k : Nat) (p : Poly) (t : Tag) : (s.setSlot k p t).tags = setAt s.tags k t := rfl
@[simp] theorem setSlot_mem (k : Nat) (p : Poly) (t : Tag) : (s.setSlot k p t).mem = s.mem := rfl
@[simp] theorem setSlot_alen (k : Nat) (p : Poly) (t : Tag) : (s.setSlot k p t).alen = s.alen := rfl
@[simp] theorem setSlot_nonce (k : Nat) (p : Poly) (t : Tag) : (s.setSlot k p t).nonce = s.nonce := rfl
@[simp] theorem setSlot_bound (k : Nat) (p : Poly) (t : Tag) : (s.setSlot k p t).bound = s.bound := rfl
@[simp] theorem setSlot_hintcnt (k : Nat) (p : Poly) (t : Tag) : (s.setSlot k p t).hintcnt = s.hintcnt := rfl
@[simp] theorem setSlot_cmdcnt (k : Nat) (p : Poly) (t : Tag) : (s.setSlot k p t).cmdcnt = s.cmdcnt := rfl
@[simp] theorem setSlot_sqzcnt (k : Nat) (p : Poly) (t : Tag) : (s.setSlot k p t).sqzcnt = s.sqzcnt := rfl
@[simp] theorem setSlot_rejcnt (k : Nat) (p : Poly) (t : Tag) : (s.setSlot k p t).rejcnt = s.rejcnt := rfl
@[simp] theorem setSlot_fcode (k : Nat) (p : Poly) (t : Tag) : (s.setSlot k p t).fcode = s.fcode := rfl
@[simp] theorem setSlot_finfo (k : Nat) (p : Poly) (t : Tag) : (s.setSlot k p t).finfo = s.finfo := rfl
@[simp] theorem setSlot_fault (k : Nat) (p : Poly) (t : Tag) : (s.setSlot k p t).fault = s.fault := rfl
@[simp] theorem setSlot_rej (k : Nat) (p : Poly) (t : Tag) : (s.setSlot k p t).rej = s.rej := rfl
@[simp] theorem setSlot_norm (k : Nat) (p : Poly) (t : Tag) : (s.setSlot k p t).norm = s.norm := rfl
@[simp] theorem setSlot_novf (k : Nat) (p : Poly) (t : Tag) : (s.setSlot k p t).novf = s.novf := rfl
@[simp] theorem setSlot_pending (k : Nat) (p : Poly) (t : Tag) : (s.setSlot k p t).pending = s.pending := rfl
@[simp] theorem setSlot_reads (k : Nat) (p : Poly) (t : Tag) : (s.setSlot k p t).reads = s.reads := rfl
@[simp] theorem setSlot_env (k : Nat) (p : Poly) (t : Tag) : (s.setSlot k p t).env = s.env := rfl
@[simp] theorem setSlot_freeIdx (k : Nat) (p : Poly) (t : Tag) : (s.setSlot k p t).freeIdx = s.freeIdx := rfl

/-! ## setTag -/

@[simp] theorem setTag_slots (k : Nat) (t : Tag) : (s.setTag k t).slots = s.slots := rfl
@[simp] theorem setTag_tags (k : Nat) (t : Tag) : (s.setTag k t).tags = setAt s.tags k t := rfl
@[simp] theorem setTag_mem (k : Nat) (t : Tag) : (s.setTag k t).mem = s.mem := rfl
@[simp] theorem setTag_alen (k : Nat) (t : Tag) : (s.setTag k t).alen = s.alen := rfl
@[simp] theorem setTag_nonce (k : Nat) (t : Tag) : (s.setTag k t).nonce = s.nonce := rfl
@[simp] theorem setTag_bound (k : Nat) (t : Tag) : (s.setTag k t).bound = s.bound := rfl
@[simp] theorem setTag_hintcnt (k : Nat) (t : Tag) : (s.setTag k t).hintcnt = s.hintcnt := rfl
@[simp] theorem setTag_cmdcnt (k : Nat) (t : Tag) : (s.setTag k t).cmdcnt = s.cmdcnt := rfl
@[simp] theorem setTag_sqzcnt (k : Nat) (t : Tag) : (s.setTag k t).sqzcnt = s.sqzcnt := rfl
@[simp] theorem setTag_rejcnt (k : Nat) (t : Tag) : (s.setTag k t).rejcnt = s.rejcnt := rfl
@[simp] theorem setTag_fcode (k : Nat) (t : Tag) : (s.setTag k t).fcode = s.fcode := rfl
@[simp] theorem setTag_finfo (k : Nat) (t : Tag) : (s.setTag k t).finfo = s.finfo := rfl
@[simp] theorem setTag_fault (k : Nat) (t : Tag) : (s.setTag k t).fault = s.fault := rfl
@[simp] theorem setTag_rej (k : Nat) (t : Tag) : (s.setTag k t).rej = s.rej := rfl
@[simp] theorem setTag_norm (k : Nat) (t : Tag) : (s.setTag k t).norm = s.norm := rfl
@[simp] theorem setTag_novf (k : Nat) (t : Tag) : (s.setTag k t).novf = s.novf := rfl
@[simp] theorem setTag_pending (k : Nat) (t : Tag) : (s.setTag k t).pending = s.pending := rfl
@[simp] theorem setTag_reads (k : Nat) (t : Tag) : (s.setTag k t).reads = s.reads := rfl
@[simp] theorem setTag_env (k : Nat) (t : Tag) : (s.setTag k t).env = s.env := rfl
@[simp] theorem setTag_freeIdx (k : Nat) (t : Tag) : (s.setTag k t).freeIdx = s.freeIdx := rfl

/-! ## setWord -/

@[simp] theorem setWord_slots (k i : Nat) (w : Word) : (s.setWord k i w).slots = setAt s.slots k (setAt (s.poly k) i w) := rfl
@[simp] theorem setWord_tags (k i : Nat) (w : Word) : (s.setWord k i w).tags = s.tags := rfl
@[simp] theorem setWord_mem (k i : Nat) (w : Word) : (s.setWord k i w).mem = s.mem := rfl
@[simp] theorem setWord_alen (k i : Nat) (w : Word) : (s.setWord k i w).alen = s.alen := rfl
@[simp] theorem setWord_nonce (k i : Nat) (w : Word) : (s.setWord k i w).nonce = s.nonce := rfl
@[simp] theorem setWord_bound (k i : Nat) (w : Word) : (s.setWord k i w).bound = s.bound := rfl
@[simp] theorem setWord_hintcnt (k i : Nat) (w : Word) : (s.setWord k i w).hintcnt = s.hintcnt := rfl
@[simp] theorem setWord_cmdcnt (k i : Nat) (w : Word) : (s.setWord k i w).cmdcnt = s.cmdcnt := rfl
@[simp] theorem setWord_sqzcnt (k i : Nat) (w : Word) : (s.setWord k i w).sqzcnt = s.sqzcnt := rfl
@[simp] theorem setWord_rejcnt (k i : Nat) (w : Word) : (s.setWord k i w).rejcnt = s.rejcnt := rfl
@[simp] theorem setWord_fcode (k i : Nat) (w : Word) : (s.setWord k i w).fcode = s.fcode := rfl
@[simp] theorem setWord_finfo (k i : Nat) (w : Word) : (s.setWord k i w).finfo = s.finfo := rfl
@[simp] theorem setWord_fault (k i : Nat) (w : Word) : (s.setWord k i w).fault = s.fault := rfl
@[simp] theorem setWord_rej (k i : Nat) (w : Word) : (s.setWord k i w).rej = s.rej := rfl
@[simp] theorem setWord_norm (k i : Nat) (w : Word) : (s.setWord k i w).norm = s.norm := rfl
@[simp] theorem setWord_novf (k i : Nat) (w : Word) : (s.setWord k i w).novf = s.novf := rfl
@[simp] theorem setWord_pending (k i : Nat) (w : Word) : (s.setWord k i w).pending = s.pending := rfl
@[simp] theorem setWord_reads (k i : Nat) (w : Word) : (s.setWord k i w).reads = s.reads := rfl
@[simp] theorem setWord_env (k i : Nat) (w : Word) : (s.setWord k i w).env = s.env := rfl
@[simp] theorem setWord_freeIdx (k i : Nat) (w : Word) : (s.setWord k i w).freeIdx = s.freeIdx := rfl

/-! ## raise -/

@[simp] theorem raise_slots (c : FaultCode) (w : Word) : (s.raise c w).slots = s.slots := rfl
@[simp] theorem raise_tags (c : FaultCode) (w : Word) : (s.raise c w).tags = s.tags := rfl
@[simp] theorem raise_mem (c : FaultCode) (w : Word) : (s.raise c w).mem = s.mem := rfl
@[simp] theorem raise_alen (c : FaultCode) (w : Word) : (s.raise c w).alen = s.alen := rfl
@[simp] theorem raise_nonce (c : FaultCode) (w : Word) : (s.raise c w).nonce = s.nonce := rfl
@[simp] theorem raise_bound (c : FaultCode) (w : Word) : (s.raise c w).bound = s.bound := rfl
@[simp] theorem raise_hintcnt (c : FaultCode) (w : Word) : (s.raise c w).hintcnt = s.hintcnt := rfl
@[simp] theorem raise_cmdcnt (c : FaultCode) (w : Word) : (s.raise c w).cmdcnt = s.cmdcnt := rfl
@[simp] theorem raise_sqzcnt (c : FaultCode) (w : Word) : (s.raise c w).sqzcnt = s.sqzcnt := rfl
@[simp] theorem raise_rejcnt (c : FaultCode) (w : Word) : (s.raise c w).rejcnt = s.rejcnt := rfl
@[simp] theorem raise_fcode (c : FaultCode) (w : Word) : (s.raise c w).fcode = c.code := rfl
@[simp] theorem raise_finfo (c : FaultCode) (w : Word) : (s.raise c w).finfo = w := rfl
@[simp] theorem raise_fault (c : FaultCode) (w : Word) : (s.raise c w).fault = true := rfl
@[simp] theorem raise_rej (c : FaultCode) (w : Word) : (s.raise c w).rej = s.rej := rfl
@[simp] theorem raise_norm (c : FaultCode) (w : Word) : (s.raise c w).norm = s.norm := rfl
@[simp] theorem raise_novf (c : FaultCode) (w : Word) : (s.raise c w).novf = s.novf := rfl
@[simp] theorem raise_pending (c : FaultCode) (w : Word) : (s.raise c w).pending = s.pending := rfl
@[simp] theorem raise_reads (c : FaultCode) (w : Word) : (s.raise c w).reads = s.reads := rfl
@[simp] theorem raise_env (c : FaultCode) (w : Word) : (s.raise c w).env = s.env := rfl
@[simp] theorem raise_freeIdx (c : FaultCode) (w : Word) : (s.raise c w).freeIdx = s.freeIdx := rfl

/-! ## clearFault -/

@[simp] theorem clearFault_slots : (s.clearFault).slots = s.slots := rfl
@[simp] theorem clearFault_tags : (s.clearFault).tags = s.tags := rfl
@[simp] theorem clearFault_mem : (s.clearFault).mem = s.mem := rfl
@[simp] theorem clearFault_alen : (s.clearFault).alen = s.alen := rfl
@[simp] theorem clearFault_nonce : (s.clearFault).nonce = s.nonce := rfl
@[simp] theorem clearFault_bound : (s.clearFault).bound = s.bound := rfl
@[simp] theorem clearFault_hintcnt : (s.clearFault).hintcnt = s.hintcnt := rfl
@[simp] theorem clearFault_cmdcnt : (s.clearFault).cmdcnt = s.cmdcnt := rfl
@[simp] theorem clearFault_sqzcnt : (s.clearFault).sqzcnt = s.sqzcnt := rfl
@[simp] theorem clearFault_rejcnt : (s.clearFault).rejcnt = s.rejcnt := rfl
@[simp] theorem clearFault_fcode : (s.clearFault).fcode = 0 := rfl
@[simp] theorem clearFault_finfo : (s.clearFault).finfo = 0 := rfl
@[simp] theorem clearFault_fault : (s.clearFault).fault = false := rfl
@[simp] theorem clearFault_rej : (s.clearFault).rej = s.rej := rfl
@[simp] theorem clearFault_norm : (s.clearFault).norm = s.norm := rfl
@[simp] theorem clearFault_novf : (s.clearFault).novf = s.novf := rfl
@[simp] theorem clearFault_pending : (s.clearFault).pending = s.pending := rfl
@[simp] theorem clearFault_reads : (s.clearFault).reads = s.reads := rfl
@[simp] theorem clearFault_env : (s.clearFault).env = s.env := rfl
@[simp] theorem clearFault_freeIdx : (s.clearFault).freeIdx = s.freeIdx := rfl

/-! ## scrapSlot -/

@[simp] theorem scrapSlot_slots (k : Nat) : (s.scrapSlot k).slots = setAt s.slots k (freePoly s.freeIdx) := rfl
@[simp] theorem scrapSlot_tags (k : Nat) : (s.scrapSlot k).tags = setAt s.tags k .none := rfl
@[simp] theorem scrapSlot_mem (k : Nat) : (s.scrapSlot k).mem = s.mem := rfl
@[simp] theorem scrapSlot_alen (k : Nat) : (s.scrapSlot k).alen = s.alen := rfl
@[simp] theorem scrapSlot_nonce (k : Nat) : (s.scrapSlot k).nonce = s.nonce := rfl
@[simp] theorem scrapSlot_bound (k : Nat) : (s.scrapSlot k).bound = s.bound := rfl
@[simp] theorem scrapSlot_hintcnt (k : Nat) : (s.scrapSlot k).hintcnt = s.hintcnt := rfl
@[simp] theorem scrapSlot_cmdcnt (k : Nat) : (s.scrapSlot k).cmdcnt = s.cmdcnt := rfl
@[simp] theorem scrapSlot_sqzcnt (k : Nat) : (s.scrapSlot k).sqzcnt = s.sqzcnt := rfl
@[simp] theorem scrapSlot_rejcnt (k : Nat) : (s.scrapSlot k).rejcnt = s.rejcnt := rfl
@[simp] theorem scrapSlot_fcode (k : Nat) : (s.scrapSlot k).fcode = s.fcode := rfl
@[simp] theorem scrapSlot_finfo (k : Nat) : (s.scrapSlot k).finfo = s.finfo := rfl
@[simp] theorem scrapSlot_fault (k : Nat) : (s.scrapSlot k).fault = s.fault := rfl
@[simp] theorem scrapSlot_rej (k : Nat) : (s.scrapSlot k).rej = s.rej := rfl
@[simp] theorem scrapSlot_norm (k : Nat) : (s.scrapSlot k).norm = s.norm := rfl
@[simp] theorem scrapSlot_novf (k : Nat) : (s.scrapSlot k).novf = s.novf := rfl
@[simp] theorem scrapSlot_pending (k : Nat) : (s.scrapSlot k).pending = s.pending := rfl
@[simp] theorem scrapSlot_reads (k : Nat) : (s.scrapSlot k).reads = s.reads := rfl
@[simp] theorem scrapSlot_env (k : Nat) : (s.scrapSlot k).env = s.env := rfl
@[simp] theorem scrapSlot_freeIdx (k : Nat) : (s.scrapSlot k).freeIdx = s.freeIdx + 256 := rfl

/-! ## complete -/

@[simp] theorem complete_slots : (s.complete).slots = s.slots := rfl
@[simp] theorem complete_tags : (s.complete).tags = s.tags := rfl
@[simp] theorem complete_mem : (s.complete).mem = s.mem := rfl
@[simp] theorem complete_alen : (s.complete).alen = s.alen := rfl
@[simp] theorem complete_nonce : (s.complete).nonce = s.nonce := rfl
@[simp] theorem complete_bound : (s.complete).bound = s.bound := rfl
@[simp] theorem complete_hintcnt : (s.complete).hintcnt = s.hintcnt := rfl
@[simp] theorem complete_cmdcnt : (s.complete).cmdcnt = s.cmdcnt + 1 := rfl
@[simp] theorem complete_sqzcnt : (s.complete).sqzcnt = s.sqzcnt := rfl
@[simp] theorem complete_rejcnt : (s.complete).rejcnt = s.rejcnt := rfl
@[simp] theorem complete_fcode : (s.complete).fcode = s.fcode := rfl
@[simp] theorem complete_finfo : (s.complete).finfo = s.finfo := rfl
@[simp] theorem complete_fault : (s.complete).fault = s.fault := rfl
@[simp] theorem complete_rej : (s.complete).rej = s.rej := rfl
@[simp] theorem complete_norm : (s.complete).norm = s.norm := rfl
@[simp] theorem complete_novf : (s.complete).novf = s.novf := rfl
@[simp] theorem complete_pending : (s.complete).pending = s.pending := rfl
@[simp] theorem complete_reads : (s.complete).reads = s.reads := rfl
@[simp] theorem complete_env : (s.complete).env = s.env := rfl
@[simp] theorem complete_freeIdx : (s.complete).freeIdx = s.freeIdx := rfl

/-! ## setNorm -/

@[simp] theorem setNorm_slots (hit : Bool) : (s.setNorm hit).slots = s.slots := rfl
@[simp] theorem setNorm_tags (hit : Bool) : (s.setNorm hit).tags = s.tags := rfl
@[simp] theorem setNorm_mem (hit : Bool) : (s.setNorm hit).mem = s.mem := rfl
@[simp] theorem setNorm_alen (hit : Bool) : (s.setNorm hit).alen = s.alen := rfl
@[simp] theorem setNorm_nonce (hit : Bool) : (s.setNorm hit).nonce = s.nonce := rfl
@[simp] theorem setNorm_bound (hit : Bool) : (s.setNorm hit).bound = s.bound := rfl
@[simp] theorem setNorm_hintcnt (hit : Bool) : (s.setNorm hit).hintcnt = s.hintcnt := rfl
@[simp] theorem setNorm_cmdcnt (hit : Bool) : (s.setNorm hit).cmdcnt = s.cmdcnt := rfl
@[simp] theorem setNorm_sqzcnt (hit : Bool) : (s.setNorm hit).sqzcnt = s.sqzcnt := rfl
@[simp] theorem setNorm_rejcnt (hit : Bool) : (s.setNorm hit).rejcnt = s.rejcnt := rfl
@[simp] theorem setNorm_fcode (hit : Bool) : (s.setNorm hit).fcode = s.fcode := rfl
@[simp] theorem setNorm_finfo (hit : Bool) : (s.setNorm hit).finfo = s.finfo := rfl
@[simp] theorem setNorm_fault (hit : Bool) : (s.setNorm hit).fault = s.fault := rfl
@[simp] theorem setNorm_rej (hit : Bool) : (s.setNorm hit).rej = (s.rej || hit) := rfl
@[simp] theorem setNorm_norm (hit : Bool) : (s.setNorm hit).norm = hit := rfl
@[simp] theorem setNorm_novf (hit : Bool) : (s.setNorm hit).novf = s.novf := rfl
@[simp] theorem setNorm_pending (hit : Bool) : (s.setNorm hit).pending = s.pending := rfl
@[simp] theorem setNorm_reads (hit : Bool) : (s.setNorm hit).reads = s.reads := rfl
@[simp] theorem setNorm_env (hit : Bool) : (s.setNorm hit).env = s.env := rfl
@[simp] theorem setNorm_freeIdx (hit : Bool) : (s.setNorm hit).freeIdx = s.freeIdx := rfl

/-! ## clearRej -/

@[simp] theorem clearRej_slots : (s.clearRej).slots = s.slots := rfl
@[simp] theorem clearRej_tags : (s.clearRej).tags = s.tags := rfl
@[simp] theorem clearRej_mem : (s.clearRej).mem = s.mem := rfl
@[simp] theorem clearRej_alen : (s.clearRej).alen = s.alen := rfl
@[simp] theorem clearRej_nonce : (s.clearRej).nonce = s.nonce := rfl
@[simp] theorem clearRej_bound : (s.clearRej).bound = s.bound := rfl
@[simp] theorem clearRej_hintcnt : (s.clearRej).hintcnt = s.hintcnt := rfl
@[simp] theorem clearRej_cmdcnt : (s.clearRej).cmdcnt = s.cmdcnt := rfl
@[simp] theorem clearRej_sqzcnt : (s.clearRej).sqzcnt = s.sqzcnt := rfl
@[simp] theorem clearRej_rejcnt : (s.clearRej).rejcnt = s.rejcnt := rfl
@[simp] theorem clearRej_fcode : (s.clearRej).fcode = s.fcode := rfl
@[simp] theorem clearRej_finfo : (s.clearRej).finfo = s.finfo := rfl
@[simp] theorem clearRej_fault : (s.clearRej).fault = s.fault := rfl
@[simp] theorem clearRej_rej : (s.clearRej).rej = false := rfl
@[simp] theorem clearRej_norm : (s.clearRej).norm = false := rfl
@[simp] theorem clearRej_novf : (s.clearRej).novf = s.novf := rfl
@[simp] theorem clearRej_pending : (s.clearRej).pending = s.pending := rfl
@[simp] theorem clearRej_reads : (s.clearRej).reads = s.reads := rfl
@[simp] theorem clearRej_env : (s.clearRej).env = s.env := rfl
@[simp] theorem clearRej_freeIdx : (s.clearRej).freeIdx = s.freeIdx := rfl

/-! ## addHints -/

@[simp] theorem addHints_slots (n : Nat) : (s.addHints n).slots = s.slots := rfl
@[simp] theorem addHints_tags (n : Nat) : (s.addHints n).tags = s.tags := rfl
@[simp] theorem addHints_mem (n : Nat) : (s.addHints n).mem = s.mem := rfl
@[simp] theorem addHints_alen (n : Nat) : (s.addHints n).alen = s.alen := rfl
@[simp] theorem addHints_nonce (n : Nat) : (s.addHints n).nonce = s.nonce := rfl
@[simp] theorem addHints_bound (n : Nat) : (s.addHints n).bound = s.bound := rfl
@[simp] theorem addHints_hintcnt (n : Nat) : (s.addHints n).hintcnt = s.hintcnt + BitVec.ofNat 32 n := rfl
@[simp] theorem addHints_cmdcnt (n : Nat) : (s.addHints n).cmdcnt = s.cmdcnt := rfl
@[simp] theorem addHints_sqzcnt (n : Nat) : (s.addHints n).sqzcnt = s.sqzcnt := rfl
@[simp] theorem addHints_rejcnt (n : Nat) : (s.addHints n).rejcnt = s.rejcnt := rfl
@[simp] theorem addHints_fcode (n : Nat) : (s.addHints n).fcode = s.fcode := rfl
@[simp] theorem addHints_finfo (n : Nat) : (s.addHints n).finfo = s.finfo := rfl
@[simp] theorem addHints_fault (n : Nat) : (s.addHints n).fault = s.fault := rfl
@[simp] theorem addHints_rej (n : Nat) : (s.addHints n).rej = s.rej := rfl
@[simp] theorem addHints_norm (n : Nat) : (s.addHints n).norm = s.norm := rfl
@[simp] theorem addHints_novf (n : Nat) : (s.addHints n).novf = s.novf := rfl
@[simp] theorem addHints_pending (n : Nat) : (s.addHints n).pending = s.pending := rfl
@[simp] theorem addHints_reads (n : Nat) : (s.addHints n).reads = s.reads := rfl
@[simp] theorem addHints_env (n : Nat) : (s.addHints n).env = s.env := rfl
@[simp] theorem addHints_freeIdx (n : Nat) : (s.addHints n).freeIdx = s.freeIdx := rfl

/-! ## clearHints -/

@[simp] theorem clearHints_slots : (s.clearHints).slots = s.slots := rfl
@[simp] theorem clearHints_tags : (s.clearHints).tags = s.tags := rfl
@[simp] theorem clearHints_mem : (s.clearHints).mem = s.mem := rfl
@[simp] theorem clearHints_alen : (s.clearHints).alen = s.alen := rfl
@[simp] theorem clearHints_nonce : (s.clearHints).nonce = s.nonce := rfl
@[simp] theorem clearHints_bound : (s.clearHints).bound = s.bound := rfl
@[simp] theorem clearHints_hintcnt : (s.clearHints).hintcnt = 0 := rfl
@[simp] theorem clearHints_cmdcnt : (s.clearHints).cmdcnt = s.cmdcnt := rfl
@[simp] theorem clearHints_sqzcnt : (s.clearHints).sqzcnt = s.sqzcnt := rfl
@[simp] theorem clearHints_rejcnt : (s.clearHints).rejcnt = s.rejcnt := rfl
@[simp] theorem clearHints_fcode : (s.clearHints).fcode = s.fcode := rfl
@[simp] theorem clearHints_finfo : (s.clearHints).finfo = s.finfo := rfl
@[simp] theorem clearHints_fault : (s.clearHints).fault = s.fault := rfl
@[simp] theorem clearHints_rej : (s.clearHints).rej = s.rej := rfl
@[simp] theorem clearHints_norm : (s.clearHints).norm = s.norm := rfl
@[simp] theorem clearHints_novf : (s.clearHints).novf = s.novf := rfl
@[simp] theorem clearHints_pending : (s.clearHints).pending = s.pending := rfl
@[simp] theorem clearHints_reads : (s.clearHints).reads = s.reads := rfl
@[simp] theorem clearHints_env : (s.clearHints).env = s.env := rfl
@[simp] theorem clearHints_freeIdx : (s.clearHints).freeIdx = s.freeIdx := rfl

/-! ## recordStream -/

@[simp] theorem recordStream_slots (n r : Word) : (s.recordStream n r).slots = s.slots := rfl
@[simp] theorem recordStream_tags (n r : Word) : (s.recordStream n r).tags = s.tags := rfl
@[simp] theorem recordStream_mem (n r : Word) : (s.recordStream n r).mem = s.mem := rfl
@[simp] theorem recordStream_alen (n r : Word) : (s.recordStream n r).alen = s.alen := rfl
@[simp] theorem recordStream_nonce (n r : Word) : (s.recordStream n r).nonce = s.nonce := rfl
@[simp] theorem recordStream_bound (n r : Word) : (s.recordStream n r).bound = s.bound := rfl
@[simp] theorem recordStream_hintcnt (n r : Word) : (s.recordStream n r).hintcnt = s.hintcnt := rfl
@[simp] theorem recordStream_cmdcnt (n r : Word) : (s.recordStream n r).cmdcnt = s.cmdcnt := rfl
@[simp] theorem recordStream_sqzcnt (n r : Word) : (s.recordStream n r).sqzcnt = n := rfl
@[simp] theorem recordStream_rejcnt (n r : Word) : (s.recordStream n r).rejcnt = r := rfl
@[simp] theorem recordStream_fcode (n r : Word) : (s.recordStream n r).fcode = s.fcode := rfl
@[simp] theorem recordStream_finfo (n r : Word) : (s.recordStream n r).finfo = s.finfo := rfl
@[simp] theorem recordStream_fault (n r : Word) : (s.recordStream n r).fault = s.fault := rfl
@[simp] theorem recordStream_rej (n r : Word) : (s.recordStream n r).rej = s.rej := rfl
@[simp] theorem recordStream_norm (n r : Word) : (s.recordStream n r).norm = s.norm := rfl
@[simp] theorem recordStream_novf (n r : Word) : (s.recordStream n r).novf = s.novf := rfl
@[simp] theorem recordStream_pending (n r : Word) : (s.recordStream n r).pending = s.pending := rfl
@[simp] theorem recordStream_reads (n r : Word) : (s.recordStream n r).reads = s.reads := rfl
@[simp] theorem recordStream_env (n r : Word) : (s.recordStream n r).env = s.env := rfl
@[simp] theorem recordStream_freeIdx (n r : Word) : (s.recordStream n r).freeIdx = s.freeIdx := rfl

/-! ## recordSession -/

@[simp] theorem recordSession_slots (n r : Nat) : (s.recordSession n r).slots = s.slots := rfl
@[simp] theorem recordSession_tags (n r : Nat) : (s.recordSession n r).tags = s.tags := rfl
@[simp] theorem recordSession_mem (n r : Nat) : (s.recordSession n r).mem = s.mem := rfl
@[simp] theorem recordSession_alen (n r : Nat) : (s.recordSession n r).alen = s.alen := rfl
@[simp] theorem recordSession_nonce (n r : Nat) : (s.recordSession n r).nonce = s.nonce := rfl
@[simp] theorem recordSession_bound (n r : Nat) : (s.recordSession n r).bound = s.bound := rfl
@[simp] theorem recordSession_hintcnt (n r : Nat) : (s.recordSession n r).hintcnt = s.hintcnt := rfl
@[simp] theorem recordSession_cmdcnt (n r : Nat) : (s.recordSession n r).cmdcnt = s.cmdcnt := rfl
@[simp] theorem recordSession_sqzcnt (n r : Nat) : (s.recordSession n r).sqzcnt = fitWord Config.wideBlocks n := rfl
@[simp] theorem recordSession_rejcnt (n r : Nat) : (s.recordSession n r).rejcnt = fitWord Config.wideRejects r := rfl
@[simp] theorem recordSession_fcode (n r : Nat) : (s.recordSession n r).fcode = s.fcode := rfl
@[simp] theorem recordSession_finfo (n r : Nat) : (s.recordSession n r).finfo = s.finfo := rfl
@[simp] theorem recordSession_fault (n r : Nat) : (s.recordSession n r).fault = s.fault := rfl
@[simp] theorem recordSession_rej (n r : Nat) : (s.recordSession n r).rej = s.rej := rfl
@[simp] theorem recordSession_norm (n r : Nat) : (s.recordSession n r).norm = s.norm := rfl
@[simp] theorem recordSession_novf (n r : Nat) : (s.recordSession n r).novf = s.novf := rfl
@[simp] theorem recordSession_pending (n r : Nat) : (s.recordSession n r).pending = s.pending := rfl
@[simp] theorem recordSession_reads (n r : Nat) : (s.recordSession n r).reads = s.reads := rfl
@[simp] theorem recordSession_env (n r : Nat) : (s.recordSession n r).env = s.env := rfl
@[simp] theorem recordSession_freeIdx (n r : Nat) : (s.recordSession n r).freeIdx = s.freeIdx := rfl

/-! ## bumpNonce -/

@[simp] theorem bumpNonce_slots : (s.bumpNonce).slots = s.slots := rfl
@[simp] theorem bumpNonce_tags : (s.bumpNonce).tags = s.tags := rfl
@[simp] theorem bumpNonce_mem : (s.bumpNonce).mem = s.mem := rfl
@[simp] theorem bumpNonce_alen : (s.bumpNonce).alen = s.alen := rfl
@[simp] theorem bumpNonce_nonce : (s.bumpNonce).nonce = s.nonce + 1 := rfl
@[simp] theorem bumpNonce_bound : (s.bumpNonce).bound = s.bound := rfl
@[simp] theorem bumpNonce_hintcnt : (s.bumpNonce).hintcnt = s.hintcnt := rfl
@[simp] theorem bumpNonce_cmdcnt : (s.bumpNonce).cmdcnt = s.cmdcnt := rfl
@[simp] theorem bumpNonce_sqzcnt : (s.bumpNonce).sqzcnt = s.sqzcnt := rfl
@[simp] theorem bumpNonce_rejcnt : (s.bumpNonce).rejcnt = s.rejcnt := rfl
@[simp] theorem bumpNonce_fcode : (s.bumpNonce).fcode = s.fcode := rfl
@[simp] theorem bumpNonce_finfo : (s.bumpNonce).finfo = s.finfo := rfl
@[simp] theorem bumpNonce_fault : (s.bumpNonce).fault = s.fault := rfl
@[simp] theorem bumpNonce_rej : (s.bumpNonce).rej = s.rej := rfl
@[simp] theorem bumpNonce_norm : (s.bumpNonce).norm = s.norm := rfl
@[simp] theorem bumpNonce_novf : (s.bumpNonce).novf = (s.novf || s.nonce == 0xFFFF) := rfl
@[simp] theorem bumpNonce_pending : (s.bumpNonce).pending = s.pending := rfl
@[simp] theorem bumpNonce_reads : (s.bumpNonce).reads = s.reads := rfl
@[simp] theorem bumpNonce_env : (s.bumpNonce).env = s.env := rfl
@[simp] theorem bumpNonce_freeIdx : (s.bumpNonce).freeIdx = s.freeIdx := rfl

/-! ## resetBlock -/

@[simp] theorem resetBlock_slots : (s.resetBlock).slots = State.reset.slots := rfl
@[simp] theorem resetBlock_tags : (s.resetBlock).tags = State.reset.tags := rfl
@[simp] theorem resetBlock_mem : (s.resetBlock).mem = State.reset.mem := rfl
@[simp] theorem resetBlock_alen : (s.resetBlock).alen = State.reset.alen := rfl
@[simp] theorem resetBlock_nonce : (s.resetBlock).nonce = State.reset.nonce := rfl
@[simp] theorem resetBlock_bound : (s.resetBlock).bound = State.reset.bound := rfl
@[simp] theorem resetBlock_hintcnt : (s.resetBlock).hintcnt = State.reset.hintcnt := rfl
@[simp] theorem resetBlock_cmdcnt : (s.resetBlock).cmdcnt = State.reset.cmdcnt := rfl
@[simp] theorem resetBlock_sqzcnt : (s.resetBlock).sqzcnt = State.reset.sqzcnt := rfl
@[simp] theorem resetBlock_rejcnt : (s.resetBlock).rejcnt = State.reset.rejcnt := rfl
@[simp] theorem resetBlock_fcode : (s.resetBlock).fcode = State.reset.fcode := rfl
@[simp] theorem resetBlock_finfo : (s.resetBlock).finfo = State.reset.finfo := rfl
@[simp] theorem resetBlock_fault : (s.resetBlock).fault = State.reset.fault := rfl
@[simp] theorem resetBlock_rej : (s.resetBlock).rej = State.reset.rej := rfl
@[simp] theorem resetBlock_norm : (s.resetBlock).norm = State.reset.norm := rfl
@[simp] theorem resetBlock_novf : (s.resetBlock).novf = State.reset.novf := rfl
@[simp] theorem resetBlock_pending : (s.resetBlock).pending = s.pending := rfl
@[simp] theorem resetBlock_reads : (s.resetBlock).reads = s.reads := rfl
@[simp] theorem resetBlock_env : (s.resetBlock).env = s.env := rfl
@[simp] theorem resetBlock_freeIdx : (s.resetBlock).freeIdx = s.freeIdx := rfl

/-! ## issue -/

@[simp] theorem issue_slots (w : Word) : (s.issue w).slots = s.slots := rfl
@[simp] theorem issue_tags (w : Word) : (s.issue w).tags = s.tags := rfl
@[simp] theorem issue_mem (w : Word) : (s.issue w).mem = s.mem := rfl
@[simp] theorem issue_alen (w : Word) : (s.issue w).alen = s.alen := rfl
@[simp] theorem issue_nonce (w : Word) : (s.issue w).nonce = s.nonce := rfl
@[simp] theorem issue_bound (w : Word) : (s.issue w).bound = s.bound := rfl
@[simp] theorem issue_hintcnt (w : Word) : (s.issue w).hintcnt = s.hintcnt := rfl
@[simp] theorem issue_cmdcnt (w : Word) : (s.issue w).cmdcnt = s.cmdcnt := rfl
@[simp] theorem issue_sqzcnt (w : Word) : (s.issue w).sqzcnt = s.sqzcnt := rfl
@[simp] theorem issue_rejcnt (w : Word) : (s.issue w).rejcnt = s.rejcnt := rfl
@[simp] theorem issue_fcode (w : Word) : (s.issue w).fcode = s.fcode := rfl
@[simp] theorem issue_finfo (w : Word) : (s.issue w).finfo = s.finfo := rfl
@[simp] theorem issue_fault (w : Word) : (s.issue w).fault = s.fault := rfl
@[simp] theorem issue_rej (w : Word) : (s.issue w).rej = s.rej := rfl
@[simp] theorem issue_norm (w : Word) : (s.issue w).norm = s.norm := rfl
@[simp] theorem issue_novf (w : Word) : (s.issue w).novf = s.novf := rfl
@[simp] theorem issue_pending (w : Word) : (s.issue w).pending = .write cmdAddr 4 w :: s.pending := rfl
@[simp] theorem issue_reads (w : Word) : (s.issue w).reads = s.reads := rfl
@[simp] theorem issue_env (w : Word) : (s.issue w).env = s.env := rfl
@[simp] theorem issue_freeIdx (w : Word) : (s.issue w).freeIdx = s.freeIdx := rfl

end Sys2Proof.Machine.State
end

