-- ==== Sys2Proof/Laws/Arith.lean ====
section
/-! SUPPORT. One specification lemma for each arithmetic helper (00_scope.md R15, 41_rounding.md R141). -/

namespace Sys2Proof.Machine

theorem Q_eq : Q = 8380417 := by decide

/-- The Montgomery sum is a multiple of 2^32. -/
theorem mr_dvd (a : Nat) : (a + a * QINV % 2 ^ 32 * Q) % 2 ^ 32 = 0 := by
  have h : (a + a * QINV % 2 ^ 32 * Q) % 2 ^ 32 = (a + a * QINV * Q) % 2 ^ 32 := by
    rw [Nat.add_mod, Nat.mul_mod, Nat.mod_mod, ← Nat.mul_mod, ← Nat.add_mod]
  rw [h, show a + a * QINV * Q = a * (QINV * Q + 1) by ring, show QINV * Q + 1 = 8265825 * 2 ^ 32 + 0 by decide]
  omega

/-- R15: below the edge `a ≤ Q·2^32` the Montgomery reduction is below 2Q and congruent to `a·2^(-32)`. -/
theorem mr_spec {a : Nat} (h : a ≤ Q * 2 ^ 32) :
    (mr a).toNat < 2 * Q ∧ (mr a).toNat * 2 ^ 32 % Q = a % Q := by
  have hd := mr_dvd a
  have ht : a * QINV % 2 ^ 32 < 2 ^ 32 := Nat.mod_lt _ (by decide)
  generalize ha : a * QINV % 2 ^ 32 = t at *
  have hm : (mr a).toNat = (a + t * Q) / 2 ^ 32 := by
    unfold mr
    rw [ha, BitVec.toNat_ofNat]
    simp only [Q] at *
    omega
  have he : (a + t * Q) / 2 ^ 32 * 2 ^ 32 = a + t * Q := by omega
  constructor
  · rw [hm]; simp only [Q] at *; omega
  · rw [hm, he, Nat.add_mul_mod_self_right]

/-- R124: the product of two words, reduced. -/
theorem toNat_mr (a : Nat) :
    (mr a).toNat = (a + a * QINV % 2 ^ 32 * Q) % 2 ^ 64 / 2 ^ 32 := by
  unfold mr; rw [BitVec.toNat_ofNat]; omega

/-- R15: `reduce32`. -/
theorem toNat_reduce32 (w : Word) : (reduce32 w).toNat = w.toNat % 2 ^ 23 + w.toNat / 2 ^ 23 * 8191 := by
  have := w.isLt
  unfold reduce32; rw [BitVec.toNat_ofNat]; omega

theorem reduce32_spec (w : Word) : (reduce32 w).toNat % Q = w.toNat % Q ∧ (reduce32 w).toNat ≤ 12574208 := by
  have := w.isLt
  rw [toNat_reduce32]; simp only [Q]; omega

/-- R121: `csubq`. -/
theorem toNat_csubq (w : Word) :
    (csubq w).toNat = if Q ≤ w.toNat ∧ w.toNat < Q + 2 ^ 31 then w.toNat - Q else w.toNat := by
  have hw := w.isLt
  have hd : (w - BitVec.ofNat 32 Q).toNat = (2 ^ 32 - Q + w.toNat) % 2 ^ 32 := by
    rw [BitVec.toNat_sub, BitVec.toNat_ofNat, Q_eq]
  rw [Q_eq] at *
  unfold csubq
  by_cases h : 8380417 ≤ w.toNat ∧ w.toNat < 8380417 + 2 ^ 31
  · rw [if_pos h]
    show BitVec.toNat (if _ then _ else _) = _
    rw [if_neg (by rw [Q_eq, hd]; omega), Q_eq, hd]
    omega
  · rw [if_neg h]
    show BitVec.toNat (if _ then _ else _) = _
    by_cases h' : w.toNat < 8380417
    · rw [if_pos (by rw [Q_eq, hd]; omega), BitVec.toNat_add, Q_eq, hd, BitVec.toNat_ofNat]
      omega
    · rw [if_pos (by rw [Q_eq, hd]; omega), BitVec.toNat_add, Q_eq, hd, BitVec.toNat_ofNat]
      omega

/-- R122: `freeze` is exact on every word. -/
theorem toNat_freeze (w : Word) : (freeze w).toNat = w.toNat % Q := by
  have h1 := reduce32_spec w
  unfold freeze
  rw [toNat_csubq]
  generalize (reduce32 w).toNat = r at *
  generalize w.toNat = n at *
  rw [Q_eq] at *
  split <;> omega

theorem toNat_subOffset (x y : Word) :
    ((subOffset x y).toNat : Int) = ((x.toNat : Int) + 2 * Q - (y.toNat : Int)) % 2 ^ 32 := by
  have := x.isLt; have := y.isLt
  unfold subOffset
  rw [BitVec.toNat_sub, BitVec.toNat_add, BitVec.toNat_ofNat]
  simp only [Q]
  omega

/-- R12: the centred remainder for an even modulus. -/
theorem centred_spec (x : Int) {m : Nat} (hm : 0 < m) (he : m % 2 = 0) :
    -(m : Int) < 2 * centred x m ∧ 2 * centred x m ≤ m ∧ (x - centred x m) % m = 0 := by
  have h0 : (0 : Int) < m := by exact_mod_cast hm
  have h1 := Int.emod_nonneg x h0.ne'
  have h2 := Int.emod_lt_of_pos x h0
  have h3 : (x - x % m) % m = 0 := Int.emod_eq_zero_of_dvd (Int.dvd_self_sub_emod)
  unfold centred
  simp only
  split
  · refine ⟨by omega, by omega, ?_⟩
    rw [show x - (x % (m : Int) - m) = x - x % m + m by ring, Int.add_emod_right]; exact h3
  · exact ⟨by omega, by omega, h3⟩

/-- R141: `Power2Round` splits exactly, the low part centred. -/
theorem power2Round_spec {d : Nat} (hd : 1 ≤ d) (w : Nat) :
    (w : Int) = (power2Round d w).1 * 2 ^ d + (power2Round d w).2 ∧
      -(2 ^ (d - 1) : Int) < (power2Round d w).2 ∧ (power2Round d w).2 ≤ 2 ^ (d - 1) := by
  obtain ⟨e, rfl⟩ : ∃ e, d = e + 1 := ⟨d - 1, by omega⟩
  have hp : (2 : Nat) ^ (e + 1) = 2 * 2 ^ e := by rw [pow_succ]; ring
  have h := centred_spec (w : Int) (m := 2 ^ (e + 1)) (by positivity) (by omega)
  simp only [power2Round, Nat.add_sub_cancel]
  generalize centred (w : Int) (2 ^ (e + 1)) = r at *
  obtain ⟨h1, h2, h3⟩ := h
  have hdvd := Int.ediv_mul_cancel (Int.dvd_of_emod_eq_zero h3)
  push_cast at *
  rw [pow_succ] at *
  refine ⟨by omega, by linarith, by linarith⟩

/-- R141: `Decompose` splits exactly, but for the top band, where the high part is 0 and the low part one less. -/
theorem decompose_spec {g : Nat} (hg : 0 < g) (w : Nat) :
    ∃ q r : Int, -(g : Int) < r ∧ r ≤ g ∧ (w : Int) = q * (2 * g) + r ∧
      decompose g w = if q * (2 * g) = (Q : Int) - 1 then (0, r - 1) else (q, r) := by
  have h := centred_spec (w : Int) (m := 2 * g) (by omega) (by omega)
  unfold decompose
  simp only
  generalize centred (w : Int) (2 * g) = r at *
  obtain ⟨h1, h2, h3⟩ := h
  push_cast at *
  have hdvd := Int.ediv_mul_cancel (Int.dvd_of_emod_eq_zero h3)
  refine ⟨((w : Int) - r) / (2 * g), r, by omega, by omega, by omega, ?_⟩
  rw [hdvd]

theorem toNat_wordOfInt {x : Int} (h0 : 0 ≤ x) (h1 : x < 2 ^ 32) : ((wordOfInt x).toNat : Int) = x := by
  unfold wordOfInt
  rw [BitVec.toNat_ofInt]
  omega

/-- R149: the norm value of a canonical word. -/
theorem toNat_normValue {w : Word} (h : w.toNat < Q) :
    (normValue w).toNat = min w.toNat (Q - w.toNat) := by
  have e : (wordOfInt (((Q - 1) / 2 : Nat) - (w.toNat : Int))).toInt = 4190208 - (w.toNat : Int) := by
    unfold wordOfInt
    rw [Q_eq] at *
    rw [BitVec.toInt_ofInt, Int.bmod_eq_of_le] <;> omega
  have key : ∀ x : Int, 0 ≤ x → x < 2 ^ 32 → (wordOfInt x).toNat = x.toNat := by
    intro x h0 h1
    have := toNat_wordOfInt h0 h1
    omega
  unfold normValue
  simp only [e]
  rw [Q_eq] at *
  split
  · rw [key _ (by omega) (by omega)]; omega
  · rw [key _ (by omega) (by omega)]; omega

/-- Both sides of the packing's bound are eighth powers. -/
theorem pow_256_le_iff {m n : Nat} : m ^ 256 ≤ 256 ^ n ↔ m ^ 32 ≤ 2 ^ n := by
  have h : 256 ^ n = (2 ^ n) ^ 8 := by rw [← Nat.pow_mul, Nat.mul_comm, Nat.pow_mul]
  rw [h, Nat.pow_mul m 32 8]
  exact Nat.pow_le_pow_iff_left (by decide)

/-- A polynomial of `w1` is 256 high parts below M (R146), so it has `M^256` values, and `n` bytes have `256^n`:
`packedPolyBytes` is the least `n` whose bytes can tell them apart, for every M (45_challenge.md R203, log 11). -/
theorem packedPolyBytes_le_iff {p : Params} (hm : 2 ≤ p.m) {n : Nat} :
    p.packedPolyBytes ≤ n ↔ p.m ^ 256 ≤ 256 ^ n := by
  have hx : 2 ≤ p.m ^ 32 := hm.trans (Nat.le_self_pow (by decide) _)
  have hlog : p.m ^ 32 - 1 < 2 ^ n ↔ (p.m ^ 32 - 1).log2 < n := (Nat.log2_lt (by omega)).symm
  rw [Params.packedPolyBytes, pow_256_le_iff]
  omega

end Sys2Proof.Machine
end

