-- ==== Sys2Proof/Laws/Encode.lean ====
section
/-! SUPPORT. The fields of an assembled command word (30_encoding.md R90, R98). -/

namespace Sys2Proof

theorem toNat_assemble {op : Nat} (h : op < 256) (d a b : Slot) :
    (assemble op d a b).toNat = op * 2 ^ 24 + d.toNat * 2 ^ 16 + a.toNat * 2 ^ 8 + b.toNat := by
  have := d.isLt; have := a.isLt; have := b.isLt
  unfold assemble
  rw [BitVec.toNat_ofNat]
  omega

theorem opOf_assemble {op : Nat} (h : op < 256) (d a b : Slot) : opOf (assemble op d a b) = op := by
  have := d.isLt; have := a.isLt; have := b.isLt
  unfold opOf
  rw [toNat_assemble h]
  omega

theorem dOf_assemble {op : Nat} (h : op < 256) (d a b : Slot) : dOf (assemble op d a b) = d := by
  have := d.isLt; have := a.isLt; have := b.isLt
  apply BitVec.eq_of_toNat_eq
  unfold dOf
  rw [toNat_assemble h, BitVec.toNat_ofNat]
  omega

theorem aOf_assemble {op : Nat} (h : op < 256) (d a b : Slot) : aOf (assemble op d a b) = a := by
  have := d.isLt; have := a.isLt; have := b.isLt
  apply BitVec.eq_of_toNat_eq
  unfold aOf
  rw [toNat_assemble h, BitVec.toNat_ofNat]
  omega

theorem bOf_assemble {op : Nat} (h : op < 256) (d a b : Slot) : bOf (assemble op d a b) = b := by
  have := d.isLt; have := a.isLt; have := b.isLt
  apply BitVec.eq_of_toNat_eq
  unfold bOf
  rw [toNat_assemble h, BitVec.toNat_ofNat]
  omega

/-- A word is its four fields put back together: no bit is dropped. -/
theorem assemble_fields (w : Word) : assemble (opOf w) (dOf w) (aOf w) (bOf w) = w := by
  have := w.isLt
  apply BitVec.eq_of_toNat_eq
  unfold assemble opOf dOf aOf bOf
  simp only [BitVec.toNat_ofNat]
  omega

/-- The word as its four bytes side by side. -/
theorem assemble_eq_append (op : Nat) (d a b : Slot) :
    assemble op d a b = ((BitVec.ofNat 8 op ++ d) ++ a) ++ b := by
  have := d.isLt; have := a.isLt; have := b.isLt
  apply BitVec.eq_of_toNat_eq
  simp only [BitVec.toNat_append, BitVec.toNat_ofNat, assemble]
  rw [← Nat.shiftLeft_add_eq_or_of_lt d.isLt, ← Nat.shiftLeft_add_eq_or_of_lt a.isLt,
    ← Nat.shiftLeft_add_eq_or_of_lt b.isLt, Nat.shiftLeft_eq, Nat.shiftLeft_eq, Nat.shiftLeft_eq]
  omega

/-- Masking a word masks its four bytes. -/
theorem assemble_and (op mop : Nat) (d a b md ma mb : Slot) :
    assemble op d a b &&& assemble mop md ma mb = assemble (op &&& mop) (d &&& md) (a &&& ma) (b &&& mb) := by
  have h : ∀ o o' : BitVec 8,
      ((((o ++ d) ++ a) ++ b : BitVec (8 + 8 + 8 + 8)) &&& (((o' ++ md) ++ ma) ++ mb)) =
        ((((o &&& o') ++ (d &&& md)) ++ (a &&& ma)) ++ (b &&& mb)) := by
    intro o o'
    rw [BitVec.and_append, BitVec.and_append, BitVec.and_append]
  rw [assemble_eq_append, assemble_eq_append, assemble_eq_append, BitVec.ofNat_and]
  exact h _ _

/-! ## The decoder, opcode by opcode -/

theorem decode_nop {w : Word} (h : opOf w = 0x00) : decode w = formF0 w .nop := by
  rw [decode, h]; rfl

theorem decode_settag {w : Word} (h : opOf w = 0x01) : decode w = formFDT w .settag := by
  rw [decode, h]; rfl

theorem decode_ntt {w : Word} (h : opOf w = 0x10) : decode w = formFDA w .ntt := by
  rw [decode, h]; rfl

theorem decode_invntt {w : Word} (h : opOf w = 0x11) : decode w = formFDA w .invntt := by
  rw [decode, h]; rfl

theorem decode_pwmul {w : Word} (h : opOf w = 0x12) : decode w = formFDAB w .pwmul := by
  rw [decode, h]; rfl

theorem decode_add {w : Word} (h : opOf w = 0x13) : decode w = formFDAB w .add := by
  rw [decode, h]; rfl

theorem decode_sub {w : Word} (h : opOf w = 0x14) : decode w = formFDAB w .sub := by
  rw [decode, h]; rfl

theorem decode_reduce {w : Word} (h : opOf w = 0x15) : decode w = formFDA w .reduce := by
  rw [decode, h]; rfl

theorem decode_csubq {w : Word} (h : opOf w = 0x16) : decode w = formFDA w .csubq := by
  rw [decode, h]; rfl

theorem decode_freeze {w : Word} (h : opOf w = 0x17) : decode w = formFDA w .freeze := by
  rw [decode, h]; rfl

theorem decode_shld {w : Word} (h : opOf w = 0x18) : decode w = formFDA w .shld := by
  rw [decode, h]; rfl

theorem decode_p2r {w : Word} (h : opOf w = 0x20) : decode w = formFDAB w .p2r := by
  rw [decode, h]; rfl

theorem decode_decomp {w : Word} (h : opOf w = 0x21) : decode w = formFDAB w .decomp := by
  rw [decode, h]; rfl

theorem decode_chknorm {w : Word} (h : opOf w = 0x22) : decode w = formFA w .chknorm := by
  rw [decode, h]; rfl

theorem decode_pwacc {w : Word} (h : opOf w = 0x30) : decode w = formFDAB w .pwacc := by
  rw [decode, h]; rfl

theorem decode_expmat {w : Word} (h : opOf w = 0x40) : decode w = formFD w .expmat := by
  rw [decode, h]; rfl

theorem decode_sunif {w : Word} (h : opOf w = 0x41) : decode w = formFD w .sunif := by
  rw [decode, h]; rfl

theorem decode_seta {w : Word} (h : opOf w = 0x42) : decode w = formFD w .seta := by
  rw [decode, h]; rfl

theorem decode_sgam1 {w : Word} (h : opOf w = 0x43) : decode w = formFD w .sgam1 := by
  rw [decode, h]; rfl

theorem decode_chal {w : Word} (h : opOf w = 0x50) : decode w = formFD w .chal := by
  rw [decode, h]; rfl

theorem decode_mkhint {w : Word} (h : opOf w = 0x60) : decode w = formFDAB w .mkhint := by
  rw [decode, h]; rfl

theorem decode_usehint {w : Word} (h : opOf w = 0x61) : decode w = formFDAB w .usehint := by
  rw [decode, h]; rfl

end Sys2Proof
end

