-- ==== Sys2Proof/Laws/Memory.lean ====
section
/-! SUPPORT. The byte memory: read after write, every other byte kept, the canonical form kept by every operation. -/

namespace Sys2Proof.Machine

theorem Memory.find_filter_of {m : List Host.Cell} {p : Host.Cell → Bool} {a : Nat}
    (h : ∀ c : Host.Cell, c.1 = a → p c = true) :
    (m.filter p).find? (fun c => c.1 == a) = m.find? (fun c => c.1 == a) := by
  induction m with
  | nil => rfl
  | cons c m ih =>
    by_cases hc : c.1 = a
    · simp [hc, h c hc]
    · by_cases hp : p c = true
      · simp [hp, hc, ih]
      · simp [hp, hc, ih]

theorem Memory.find_filter_none {m : List Host.Cell} {p : Host.Cell → Bool} {a : Nat}
    (h : ∀ c : Host.Cell, c.1 = a → p c = false) :
    (m.filter p).find? (fun c => c.1 == a) = none := by
  rw [List.find?_eq_none]
  intro c hc
  have hp := (List.mem_filter.1 hc).2
  intro hca
  have := h c (by simpa using hca)
  simp [hp] at this

theorem Memory.mem_cellsFrom {a : Nat} {bs : List Byte} {c : Host.Cell} (h : c ∈ Memory.cellsFrom a bs) :
    a ≤ c.1 ∧ c.1 < a + bs.length ∧ c.2 ≠ 0 := by
  induction bs generalizing a with
  | nil => simp [Memory.cellsFrom] at h
  | cons b bs ih =>
    rw [Memory.cellsFrom] at h
    split at h
    · have := ih h
      simp only [List.length_cons]
      refine ⟨by omega, by omega, this.2.2⟩
    · rcases List.mem_cons.1 h with rfl | h
      · simp; assumption
      · have := ih h
        simp only [List.length_cons]
        refine ⟨by omega, by omega, this.2.2⟩

theorem Memory.find_cellsFrom (a : Nat) (bs : List Byte) (x : Nat) :
    (Memory.cellsFrom a bs).find? (fun c => c.1 == x) =
      if a ≤ x ∧ x < a + bs.length ∧ bs.getD (x - a) 0 ≠ 0 then some (x, bs.getD (x - a) 0) else none := by
  induction bs generalizing a with
  | nil => simp [Memory.cellsFrom]
  | cons b bs ih =>
    rw [Memory.cellsFrom]
    by_cases hx : x = a
    · subst hx
      by_cases hb : b = 0
      · rw [if_pos hb, ih, if_neg (by omega), if_neg (by simp [hb])]
      · rw [if_neg hb, if_pos (by simpa using hb)]
        simp
    · by_cases hlt : x < a
      · have hn : ¬ (a ≤ x) := by omega
        have hn' : ¬ (a + 1 ≤ x) := by omega
        have hc : ¬ (a ≤ x ∧ x < a + (b :: bs).length ∧ (b :: bs).getD (x - a) 0 ≠ 0) := fun h => hn h.1
        rw [if_neg hc]
        split
        · rw [ih, if_neg (fun h => hn' h.1)]
        · rw [List.find?_cons_of_neg (by simpa using Ne.symm hx), ih, if_neg (fun h => hn' h.1)]
      · have hs : x - a = (x - (a + 1)) + 1 := by omega
        have hg : (b :: bs).getD (x - a) 0 = bs.getD (x - (a + 1)) 0 := by rw [hs, List.getD_cons_succ]
        have hl : (b :: bs).length = bs.length + 1 := rfl
        have e : (a ≤ x ∧ x < a + (b :: bs).length ∧ (b :: bs).getD (x - a) 0 ≠ 0) =
            (a + 1 ≤ x ∧ x < a + 1 + bs.length ∧ bs.getD (x - (a + 1)) 0 ≠ 0) := by
          rw [hg, hl]
          exact propext ⟨fun ⟨h1, h2, h3⟩ => ⟨by omega, by omega, h3⟩, fun ⟨h1, h2, h3⟩ => ⟨by omega, by omega, h3⟩⟩
        have r : (if a ≤ x ∧ x < a + (b :: bs).length ∧ (b :: bs).getD (x - a) 0 ≠ 0 then
            some (x, (b :: bs).getD (x - a) 0) else none) =
            (if a + 1 ≤ x ∧ x < a + 1 + bs.length ∧ bs.getD (x - (a + 1)) 0 ≠ 0 then
              some (x, bs.getD (x - (a + 1)) 0) else none) := by
          rw [hg]; exact if_congr (by rw [← hg, e, hg]) rfl rfl
        rw [r]
        split
        · exact ih _
        · rw [List.find?_cons_of_neg (by simpa using Ne.symm hx)]
          exact ih _

/-- Read after write: a byte inside the stored string is the string's, every other byte is as before. -/
theorem Memory.read_write (m : List Host.Cell) (a : Nat) (bs : List Byte) (x : Nat) :
    Memory.read (Memory.write m a bs) x =
      if a ≤ x ∧ x < a + bs.length then bs.getD (x - a) 0 else Memory.read m x := by
  unfold Memory.read Memory.write
  rw [List.find?_append, List.find?_append, Memory.find_cellsFrom]
  by_cases h1 : x < a
  · rw [Memory.find_filter_of (by intro c hc; simp [hc, h1]),
      Memory.find_filter_none (p := fun c => decide (a + bs.length ≤ c.1)) (by intro c hc; simp [hc]; omega)]
    have : ¬ a ≤ x := by omega
    simp [this]
  · rw [Memory.find_filter_none (by intro c hc; simp [hc]; omega)]
    by_cases h2 : x < a + bs.length
    · rw [Memory.find_filter_none (p := fun c => decide (a + bs.length ≤ c.1)) (by intro c hc; simp [hc]; omega)]
      have h3 : a ≤ x := by omega
      by_cases h0 : bs.getD (x - a) 0 = 0
      · have e : (if a ≤ x ∧ x < a + bs.length ∧ bs.getD (x - a) 0 ≠ 0 then
            some (x, bs.getD (x - a) 0) else none) = none := if_neg fun h => h.2.2 h0
        rw [e, if_pos ⟨h3, h2⟩, h0]
        rfl
      · rw [if_pos ⟨h3, h2, h0⟩, if_pos ⟨h3, h2⟩]
        rfl
    · rw [Memory.find_filter_of (p := fun c => decide (a + bs.length ≤ c.1)) (by intro c hc; simp [hc]; omega)]
      simp [h2]

theorem Memory.wf_nil : Memory.wf [] = true := rfl

theorem Memory.wf_iff (m : List Host.Cell) : Memory.wf m = true ↔
    m.Pairwise (fun x y => x.1 < y.1) ∧ ∀ c ∈ m, c.2 ≠ 0 ∧ ABUFBASE ≤ c.1 ∧ c.1 < ABUFBASE + ABUFCAP := by
  simp [Memory.wf]

theorem Memory.pairwise_cellsFrom (a : Nat) (bs : List Byte) :
    (Memory.cellsFrom a bs).Pairwise fun x y => x.1 < y.1 := by
  induction bs generalizing a with
  | nil => simp [Memory.cellsFrom]
  | cons b bs ih =>
    rw [Memory.cellsFrom]
    split
    · exact ih _
    · refine List.Pairwise.cons ?_ (ih _)
      intro c hc
      have := (Memory.mem_cellsFrom hc).1
      show a < c.1
      omega

/-- A store inside `ABUF` keeps the canonical form. -/
theorem Memory.wf_write {m : List Host.Cell} (h : Memory.wf m = true) {a : Nat} {bs : List Byte}
    (h1 : ABUFBASE ≤ a) (h2 : a + bs.length ≤ ABUFBASE + ABUFCAP) :
    Memory.wf (Memory.write m a bs) = true := by
  rw [Memory.wf_iff] at h ⊢
  obtain ⟨hp, hc⟩ := h
  constructor
  · unfold Memory.write
    rw [List.pairwise_append, List.pairwise_append]
    refine ⟨hp.filter _, ⟨Memory.pairwise_cellsFrom a bs, hp.filter _, ?_⟩, ?_⟩
    · intro x hx y hy
      have hx := Memory.mem_cellsFrom hx
      have hy := of_decide_eq_true (List.mem_filter.1 hy).2
      omega
    · intro x hx y hy
      have hx := of_decide_eq_true (List.mem_filter.1 hx).2
      rcases List.mem_append.1 hy with hy | hy
      · have hy := (Memory.mem_cellsFrom hy).1
        omega
      · have hy := of_decide_eq_true (List.mem_filter.1 hy).2
        omega
  · intro c hcm
    unfold Memory.write at hcm
    rcases List.mem_append.1 hcm with hm | hm
    · exact hc c (List.mem_filter.1 hm).1
    · rcases List.mem_append.1 hm with hm | hm
      · have := Memory.mem_cellsFrom hm
        refine ⟨this.2.2, by omega, by omega⟩
      · exact hc c (List.mem_filter.1 hm).1

@[simp] theorem length_wordBytes (w : Word) : (wordBytes w).length = 4 := by simp [wordBytes]

end Sys2Proof.Machine
end

