-- ==== Sys2Proof/Laws/Poly.lean ====
section
/-! SUPPORT. Ring elements read word by word; slots and tags read after a write. -/

namespace Sys2Proof.Machine

/-! ## Words of a ring element -/

theorem getD_padTo (n : Nat) (l : List Word) (i : Nat) :
    (padTo n l).getD i 0 = if i < n then l.getD i 0 else 0 := by
  induction n generalizing l i with
  | zero => simp [padTo]
  | succ n ih =>
    cases l with
    | nil => cases i with
      | zero => simp [padTo]
      | succ i => simpa [padTo] using ih [] i
    | cons w ws => cases i with
      | zero => simp [padTo]
      | succ i => simpa [padTo] using ih ws i

@[simp] theorem Poly.words_ofList (l : List Word) : (Poly.ofList l).words = padTo 256 l := rfl

@[simp] theorem Poly.length_words (p : Poly) : p.words.length = 256 := by
  simp [Poly.words]

theorem padTo_of_length (l : List Word) : padTo l.length l = l := by
  induction l with
  | nil => rfl
  | cons w ws ih => simp [padTo, ih]

theorem Poly.words_ofList_of_length {l : List Word} (h : l.length = 256) : (Poly.ofList l).words = l := by
  rw [Poly.words_ofList, ← h, padTo_of_length]

theorem Poly.word_ofList (l : List Word) {i : Nat} (h : i < 256) : (Poly.ofList l).word i = l.getD i 0 := by
  rw [Poly.word, Poly.words_ofList, getD_padTo, if_pos h]

theorem Poly.getElem?_words (p : Poly) {i : Nat} (h : i < 256) : p.words[i]? = some (p.word i) := by
  have hl : i < p.words.length := by rwa [Poly.length_words]
  rw [Poly.word, List.getD_eq_getElem?_getD, List.getElem?_eq_getElem hl, Option.getD_some]

theorem Poly.getElem_words (p : Poly) {i : Nat} (h : i < p.words.length) : p.words[i] = p.word i := by
  have := Poly.getElem?_words p (by rwa [Poly.length_words] at h : i < 256)
  rw [List.getElem?_eq_getElem h] at this
  exact Option.some.inj this

theorem Poly.ext_words {p q : Poly} (h : ∀ i < 256, p.word i = q.word i) : p = q := by
  apply Vector.ext
  intro i hi
  have := h i hi
  simpa [Poly.word, Poly.words, List.getD_eq_getElem?_getD, hi] using this

theorem Poly.word_mapWords (f : Word → Word) (p : Poly) {i : Nat} (h : i < 256) :
    (Poly.mapWords f p).word i = f (p.word i) := by
  rw [Poly.mapWords, Poly.word_ofList _ h, List.getD_eq_getElem?_getD, List.getElem?_map, p.getElem?_words h]
  rfl

theorem Poly.word_zipWords (f : Word → Word → Word) (p q : Poly) {i : Nat} (h : i < 256) :
    (Poly.zipWords f p q).word i = f (p.word i) (q.word i) := by
  rw [Poly.zipWords, Poly.word_ofList _ h, List.getD_eq_getElem?_getD, List.getElem?_zipWith,
    p.getElem?_words h, q.getElem?_words h]
  rfl

theorem Poly.word_zero (i : Nat) : Poly.word (Vector.replicate 256 0) i = 0 := by
  simp only [Poly.word, Poly.words, Vector.toList_replicate, List.getD_eq_getElem?_getD, List.getElem?_replicate]
  split <;> rfl

theorem Poly.mem_words {p : Poly} {w : Word} : w ∈ p.words ↔ ∃ i < 256, p.word i = w := by
  rw [List.mem_iff_getElem]
  constructor
  · rintro ⟨i, hi, rfl⟩
    exact ⟨i, by rwa [Poly.length_words] at hi, (p.getElem_words hi).symm⟩
  · rintro ⟨i, hi, rfl⟩
    exact ⟨i, by rwa [Poly.length_words], p.getElem_words _⟩

/-! ## Slots and tags -/

theorem getD_setAt {α : Type} {n : Nat} (v : Vector α n) (k : Nat) (x d : α) (j : Nat) :
    (setAt v k x).toList.getD j d = if j = k ∧ k < n then x else v.toList.getD j d := by
  have : (setAt v k x).toList = v.toList.set k x := rfl
  rw [this, List.getD_eq_getElem?_getD, List.getD_eq_getElem?_getD, List.getElem?_set]
  by_cases hk : k = j
  · subst hk
    by_cases hn : k < n <;> simp [hn]
  · simp [hk, Ne.symm hk]

theorem State.poly_setSlot (s : State) (k : Nat) (p : Poly) (t : Tag) (j : Nat) :
    (s.setSlot k p t).poly j = if j = k ∧ k < 256 then p else s.poly j := by
  simp only [State.poly, State.setSlot, getD_setAt]

theorem State.tag_setSlot (s : State) (k : Nat) (p : Poly) (t : Tag) (j : Nat) :
    (s.setSlot k p t).tag j = if j = k ∧ k < 256 then t else s.tag j := by
  simp only [State.tag, State.setSlot, getD_setAt]

theorem State.tag_setTag (s : State) (k : Nat) (t : Tag) (j : Nat) :
    (s.setTag k t).tag j = if j = k ∧ k < 256 then t else s.tag j := by
  simp only [State.tag, State.setTag, getD_setAt]

theorem State.poly_setWord (s : State) (k i : Nat) (w : Word) (j : Nat) :
    (s.setWord k i w).poly j = if j = k ∧ k < 256 then setAt (s.poly k) i w else s.poly j := by
  have h : (s.setWord k i w).poly j =
      (setAt s.slots k (setAt (s.poly k) i w)).toList.getD j (Vector.replicate 256 0) := rfl
  rw [h, getD_setAt]
  rfl

theorem Poly.word_setAt (p : Poly) (i : Nat) (w : Word) (j : Nat) :
    Poly.word (setAt p i w) j = if j = i ∧ i < 256 then w else p.word j := by
  simp only [Poly.word, Poly.words, getD_setAt]

theorem State.word_setWord (s : State) {k : Nat} (hk : k < 256) (i : Nat) (w : Word) (k' j : Nat) :
    (s.setWord k i w).word k' j = if k' = k ∧ j = i ∧ i < 256 then w else s.word k' j := by
  rw [State.word, State.poly_setWord]
  by_cases h : k' = k
  · subst h
    simp [hk, Poly.word_setAt, State.word]
  · simp [h, State.word]

/-- Two states with the same slots and tags read alike. -/
theorem State.poly_congr {s t : State} (h : s.slots = t.slots) (k : Nat) : s.poly k = t.poly k := by
  simp [State.poly, h]

theorem State.tag_congr {s t : State} (h : s.tags = t.tags) (k : Nat) : s.tag k = t.tag k := by
  simp [State.tag, h]

theorem Slot.lt (d : Slot) : d.toNat < 256 := d.isLt

@[simp] theorem State.poly_complete (s : State) (k : Nat) : s.complete.poly k = s.poly k := rfl
@[simp] theorem State.tag_complete (s : State) (k : Nat) : s.complete.tag k = s.tag k := rfl
@[simp] theorem State.poly_raise (s : State) (c : FaultCode) (w : Word) (k : Nat) :
    (s.raise c w).poly k = s.poly k := rfl
@[simp] theorem State.tag_raise (s : State) (c : FaultCode) (w : Word) (k : Nat) :
    (s.raise c w).tag k = s.tag k := rfl
@[simp] theorem State.poly_setTag (s : State) (k : Nat) (t : Tag) (j : Nat) : (s.setTag k t).poly j = s.poly j := rfl
@[simp] theorem State.tag_setWord (s : State) (k i : Nat) (w : Word) (j : Nat) : (s.setWord k i w).tag j = s.tag j := rfl
@[simp] theorem State.poly_recordStream (s : State) (n r : Word) (k : Nat) : (s.recordStream n r).poly k = s.poly k := rfl
@[simp] theorem State.poly_recordSession (s : State) (n r k : Nat) : (s.recordSession n r).poly k = s.poly k := rfl
@[simp] theorem State.tag_recordStream (s : State) (n r : Word) (k : Nat) : (s.recordStream n r).tag k = s.tag k := rfl
@[simp] theorem State.tag_recordSession (s : State) (n r k : Nat) : (s.recordSession n r).tag k = s.tag k := rfl
@[simp] theorem State.poly_bumpNonce (s : State) (k : Nat) : s.bumpNonce.poly k = s.poly k := rfl
@[simp] theorem State.tag_bumpNonce (s : State) (k : Nat) : s.bumpNonce.tag k = s.tag k := rfl
@[simp] theorem State.poly_setNorm (s : State) (b : Bool) (k : Nat) : (s.setNorm b).poly k = s.poly k := rfl
@[simp] theorem State.tag_setNorm (s : State) (b : Bool) (k : Nat) : (s.setNorm b).tag k = s.tag k := rfl
@[simp] theorem State.poly_addHints (s : State) (n k : Nat) : (s.addHints n).poly k = s.poly k := rfl
@[simp] theorem State.tag_addHints (s : State) (n k : Nat) : (s.addHints n).tag k = s.tag k := rfl

end Sys2Proof.Machine
end

