-- ==== Sys2Proof/Laws/Ops.lean ====
section
/-! SUPPORT. The shared operations, each with the one lemma that says all it can do: the check list, the command
template, session abort. -/

namespace Sys2Proof.Machine

/-! ## The check list -/

@[simp] theorem firstViolated_nil : firstViolated [] = none := rfl

@[simp] theorem firstViolated_cons (c : FaultCode) (b : Bool) (l : List (FaultCode × Bool)) :
    firstViolated ((c, b) :: l) = if b then some c else firstViolated l := rfl

/-- The cause reported is one of those checked, and it is violated. -/
theorem firstViolated_mem {l : List (FaultCode × Bool)} {c : FaultCode} (h : firstViolated l = some c) :
    (c, true) ∈ l := by
  induction l with
  | nil => cases h
  | cons x l ih =>
    obtain ⟨c', b⟩ := x
    cases b
    · exact List.mem_cons_of_mem _ (ih h)
    · cases h; exact List.mem_cons_self

/-- Nothing is reported exactly when every check passes. -/
theorem firstViolated_eq_none {l : List (FaultCode × Bool)} : firstViolated l = none ↔ ∀ x ∈ l, x.2 = false := by
  induction l with
  | nil => simp
  | cons x l ih =>
    obtain ⟨c, b⟩ := x
    cases b <;> simp [ih]

/-! ## Fault codes -/

theorem FaultCode.code_range (c : FaultCode) : 1 ≤ c.code.toNat ∧ c.code.toNat ≤ 8 := by
  cases c <;> decide

theorem FaultCode.code_injective {c c' : FaultCode} (h : c.code = c'.code) : c = c' := by
  cases c <;> cases c' <;> first | rfl | exact absurd h (by decide)

theorem FaultCode.code_le_six {c : FaultCode} : c.code.toNat ≤ 6 ↔ c ≠ .xofLim ∧ c ≠ .xofErr := by
  cases c <;> decide

/-! ## Templates -/

/-- All a command can do: the fault of its first violated check, or its effect and completion. -/
theorem runCommand_cases {i : Instr} {checks : List (FaultCode × Bool)} {effect : State → State} {s t : State}
    (h : runCommand i checks effect s = .next t) :
    (∃ c, firstViolated checks = some c ∧ t = s.raise c (encode i)) ∨
      (firstViolated checks = none ∧ t = (effect s).complete) := by
  unfold runCommand at h
  split at h <;> cases h
  · exact .inl ⟨_, ‹_›, rfl⟩
  · exact .inr ⟨‹_›, rfl⟩

theorem runCommand_pass {i : Instr} {checks : List (FaultCode × Bool)} {effect : State → State} {s : State}
    (h : firstViolated checks = none) : runCommand i checks effect s = .next (effect s).complete := by
  unfold runCommand; rw [h]

theorem runCommand_fail {i : Instr} {checks : List (FaultCode × Bool)} {effect : State → State} {s : State}
    {c : FaultCode} (h : firstViolated checks = some c) :
    runCommand i checks effect s = .next (s.raise c (encode i)) := by
  unfold runCommand; rw [h]

/-- A command without a session always gives a next state. -/
theorem runCommand_next (i : Instr) (checks : List (FaultCode × Bool)) (effect : State → State) (s : State) :
    ∃ t, runCommand i checks effect s = .next t := by
  unfold runCommand; split <;> exact ⟨_, rfl⟩

/-- All a stream command can do when it gives a next state: a decode-time fault, commit and completion, abort, or,
under a finite limit, the abort that stands for an unending session. -/
theorem runStream_cases {α : Type} {i : Instr} {checks : List (FaultCode × Bool)} {dests : List Nat}
    {commit : State → α → State} {r : Ended α} {s t : State}
    (h : runStream i checks dests commit r s = .next t) :
    (∃ c, firstViolated checks = some c ∧ t = s.raise c (encode i)) ∨
      (firstViolated checks = none ∧
        ((∃ x, r = .done x ∧ t = (commit s x).complete) ∨
          (∃ c, r = .aborted c ∧ t = s.abort c (encode i) dests) ∨
          (r = .unending ∧ (∃ n, s.env.sqzLimit = .blocks n) ∧ t = s.abort .xofLim (encode i) dests))) := by
  unfold runStream at h
  split at h
  · cases h; exact .inl ⟨_, ‹_›, rfl⟩
  · refine .inr ⟨‹_›, ?_⟩
    unfold streamOutcome at h
    split at h
    · cases h
      cases r with
      | done x => exact .inl ⟨x, rfl, rfl⟩
      | aborted c => exact .inr (.inl ⟨c, rfl, rfl⟩)
      | unending => exact .inr (.inr ⟨rfl, ⟨_, ‹_›⟩, rfl⟩)
    · cases r with
      | done x => cases h; exact .inl ⟨x, rfl, rfl⟩
      | aborted c => cases h; exact .inr (.inl ⟨c, rfl, rfl⟩)
      | unending => cases h

theorem runStream_fail {α : Type} {i : Instr} {checks : List (FaultCode × Bool)} {dests : List Nat}
    {commit : State → α → State} {r : Ended α} {s : State} {c : FaultCode} (h : firstViolated checks = some c) :
    runStream i checks dests commit r s = .next (s.raise c (encode i)) := by
  unfold runStream; rw [h]

theorem runStream_done {α : Type} {i : Instr} {checks : List (FaultCode × Bool)} {dests : List Nat}
    {commit : State → α → State} {x : α} {s : State} (h : firstViolated checks = none) :
    runStream i checks dests commit (.done x) s = .next (commit s x).complete := by
  simp only [runStream, h, streamOutcome]; split <;> rfl

theorem runStream_aborted {α : Type} {i : Instr} {checks : List (FaultCode × Bool)} {dests : List Nat}
    {commit : State → α → State} {c : FaultCode} {s : State} (h : firstViolated checks = none) :
    runStream i checks dests commit (.aborted c) s = .next (s.abort c (encode i) dests) := by
  simp only [runStream, h, streamOutcome]; split <;> rfl

/-- A stream command gives a next state, or is stuck with a session that never ends and no limit. -/
theorem runStream_next_or_stuck {α : Type} (i : Instr) (checks : List (FaultCode × Bool)) (dests : List Nat)
    (commit : State → α → State) (r : Ended α) (s : State) :
    (∃ t, runStream i checks dests commit r s = .next t) ∨
      (runStream i checks dests commit r s = .fault .commandNeverEnds ∧ s.env.sqzLimit = .unlimited ∧
        r = .unending) := by
  unfold runStream streamOutcome
  split
  · exact .inl ⟨_, rfl⟩
  · cases s.env.sqzLimit with
    | blocks n => exact .inl ⟨_, rfl⟩
    | unlimited =>
      cases r with
      | unending => exact .inr ⟨rfl, rfl, rfl⟩
      | done x => exact .inl ⟨_, rfl⟩
      | aborted c => exact .inl ⟨_, rfl⟩

theorem runStream_next {α : Type} (i : Instr) (checks : List (FaultCode × Bool)) (dests : List Nat)
    (commit : State → α → State) (r : Ended α) (s : State)
    (h : (∃ n, s.env.sqzLimit = .blocks n) ∨ r ≠ .unending) :
    ∃ t, runStream i checks dests commit r s = .next t := by
  rcases runStream_next_or_stuck i checks dests commit r s with hn | ⟨_, hl, hr⟩
  · exact hn
  · rcases h with ⟨n, hn⟩ | hne
    · rw [hl] at hn; cases hn
    · exact absurd hr hne

/-! ## Scrapping destination slots (R237) -/

/-- What scrapping leaves alone: everything but slots, tags and the number of free values handed out. -/
theorem scrap_fields (dests : List Nat) (s : State) :
    dests.foldl State.scrapSlot s =
      { s with
        slots := (dests.foldl State.scrapSlot s).slots
        tags := (dests.foldl State.scrapSlot s).tags
        freeIdx := (dests.foldl State.scrapSlot s).freeIdx } := by
  induction dests generalizing s with
  | nil => rfl
  | cons k ks ih =>
    simp only [List.foldl_cons]
    exact ih (s.scrapSlot k)

theorem tag_scrapSlot (s : State) (k j : Nat) :
    (s.scrapSlot k).tag j = if j = k ∧ k < 256 then .none else s.tag j := by
  rw [← State.tag_setSlot s k (freePoly s.freeIdx) .none]; rfl

theorem poly_scrapSlot_of_ne (s : State) {k j : Nat} (h : j ≠ k) : (s.scrapSlot k).poly j = s.poly j := by
  have : (s.scrapSlot k).poly j = (s.setSlot k (freePoly s.freeIdx) .none).poly j := rfl
  rw [this, State.poly_setSlot, if_neg (fun h' => h h'.1)]

theorem tag_default (s : State) {k : Nat} (h : 256 ≤ k) : s.tag k = .none := by
  rw [State.tag, List.getD_eq_getElem?_getD, List.getElem?_eq_none (by simpa using h)]; rfl

/-- Every scrapped slot is tagged `NONE`. -/
theorem tag_scrap_mem {dests : List Nat} (s : State) {j : Nat} (h : j ∈ dests) :
    (dests.foldl State.scrapSlot s).tag j = .none := by
  have keep : ∀ (ks : List Nat) (s : State), s.tag j = .none → (ks.foldl State.scrapSlot s).tag j = .none := by
    intro ks
    induction ks with
    | nil => intro s h; exact h
    | cons k ks ih => intro s h; exact ih _ (by rw [tag_scrapSlot, h]; split <;> rfl)
  induction dests generalizing s with
  | nil => cases h
  | cons k ks ih =>
    rcases List.mem_cons.1 h with rfl | h
    · refine keep ks _ ?_
      rw [tag_scrapSlot]
      split
      · rfl
      · exact tag_default s (by by_contra hc; exact ‹¬ (j = j ∧ j < 256)› ⟨rfl, by omega⟩)
    · exact ih _ h

/-- No other slot is touched. -/
theorem scrap_not_mem {dests : List Nat} (s : State) {j : Nat} (h : j ∉ dests) :
    (dests.foldl State.scrapSlot s).tag j = s.tag j ∧ (dests.foldl State.scrapSlot s).poly j = s.poly j := by
  induction dests generalizing s with
  | nil => exact ⟨rfl, rfl⟩
  | cons k ks ih =>
    have hk : j ≠ k := fun e => h (e ▸ List.mem_cons_self)
    obtain ⟨ht, hp⟩ := ih (s.scrapSlot k) (fun hm => h (List.mem_cons_of_mem _ hm))
    refine ⟨ht.trans ?_, hp.trans (poly_scrapSlot_of_ne s hk)⟩
    rw [tag_scrapSlot, if_neg (fun h' => hk h'.1)]

/-- Session abort: three registers as at any fault entry, the destinations scrapped, everything else kept. -/
theorem abort_fields (s : State) (c : FaultCode) (w : Word) (dests : List Nat) :
    s.abort c w dests =
      { s with
        slots := (s.abort c w dests).slots
        tags := (s.abort c w dests).tags
        freeIdx := (s.abort c w dests).freeIdx
        fault := true
        fcode := c.code
        finfo := w } := by
  unfold State.abort State.raise
  rw [scrap_fields]

@[simp] theorem State.abort_fault (s : State) (c : FaultCode) (w : Word) (dests : List Nat) :
    (s.abort c w dests).fault = true := rfl
@[simp] theorem State.abort_fcode (s : State) (c : FaultCode) (w : Word) (dests : List Nat) :
    (s.abort c w dests).fcode = c.code := rfl
@[simp] theorem State.abort_finfo (s : State) (c : FaultCode) (w : Word) (dests : List Nat) :
    (s.abort c w dests).finfo = w := rfl
@[simp] theorem State.abort_mem (s : State) (c : FaultCode) (w : Word) (dests : List Nat) :
    (s.abort c w dests).mem = s.mem := by rw [abort_fields]
@[simp] theorem State.abort_alen (s : State) (c : FaultCode) (w : Word) (dests : List Nat) :
    (s.abort c w dests).alen = s.alen := by rw [abort_fields]
@[simp] theorem State.abort_nonce (s : State) (c : FaultCode) (w : Word) (dests : List Nat) :
    (s.abort c w dests).nonce = s.nonce := by rw [abort_fields]
@[simp] theorem State.abort_bound (s : State) (c : FaultCode) (w : Word) (dests : List Nat) :
    (s.abort c w dests).bound = s.bound := by rw [abort_fields]
@[simp] theorem State.abort_hintcnt (s : State) (c : FaultCode) (w : Word) (dests : List Nat) :
    (s.abort c w dests).hintcnt = s.hintcnt := by rw [abort_fields]
@[simp] theorem State.abort_cmdcnt (s : State) (c : FaultCode) (w : Word) (dests : List Nat) :
    (s.abort c w dests).cmdcnt = s.cmdcnt := by rw [abort_fields]
@[simp] theorem State.abort_sqzcnt (s : State) (c : FaultCode) (w : Word) (dests : List Nat) :
    (s.abort c w dests).sqzcnt = s.sqzcnt := by rw [abort_fields]
@[simp] theorem State.abort_rejcnt (s : State) (c : FaultCode) (w : Word) (dests : List Nat) :
    (s.abort c w dests).rejcnt = s.rejcnt := by rw [abort_fields]
@[simp] theorem State.abort_rej (s : State) (c : FaultCode) (w : Word) (dests : List Nat) :
    (s.abort c w dests).rej = s.rej := by rw [abort_fields]
@[simp] theorem State.abort_norm (s : State) (c : FaultCode) (w : Word) (dests : List Nat) :
    (s.abort c w dests).norm = s.norm := by rw [abort_fields]
@[simp] theorem State.abort_novf (s : State) (c : FaultCode) (w : Word) (dests : List Nat) :
    (s.abort c w dests).novf = s.novf := by rw [abort_fields]
@[simp] theorem State.abort_pending (s : State) (c : FaultCode) (w : Word) (dests : List Nat) :
    (s.abort c w dests).pending = s.pending := by rw [abort_fields]
@[simp] theorem State.abort_reads (s : State) (c : FaultCode) (w : Word) (dests : List Nat) :
    (s.abort c w dests).reads = s.reads := by rw [abort_fields]
@[simp] theorem State.abort_env (s : State) (c : FaultCode) (w : Word) (dests : List Nat) :
    (s.abort c w dests).env = s.env := by rw [abort_fields]

theorem tag_abort_mem {dests : List Nat} (s : State) (c : FaultCode) (w : Word) {j : Nat} (h : j ∈ dests) :
    (s.abort c w dests).tag j = .none := tag_scrap_mem s h

theorem abort_not_mem {dests : List Nat} (s : State) (c : FaultCode) (w : Word) {j : Nat} (h : j ∉ dests) :
    (s.abort c w dests).tag j = s.tag j ∧ (s.abort c w dests).poly j = s.poly j := scrap_not_mem s h

/-! ## Runs of slots -/

theorem mem_slotRun {base : Slot} {n k : Nat} : k ∈ slotRun base n ↔ base.toNat ≤ k ∧ k < base.toNat + n := by
  simp only [slotRun, List.mem_map, List.mem_range]
  constructor
  · rintro ⟨a, ha, rfl⟩; omega
  · rintro ⟨h1, h2⟩; exact ⟨k - base.toNat, by omega, by omega⟩

@[simp] theorem passesEnd_eq_true {base : Slot} {n : Nat} :
    passesEnd base n = true ↔ 255 < base.toNat + n - 1 := by simp [passesEnd]

@[simp] theorem State.alenTooLong_eq_true {s : State} : s.alenTooLong = true ↔ 1024 < s.alen.toNat :=
  decide_eq_true_iff

/-! ## Checks on tags -/

theorem State.sourceChecks_pass {s : State} {t : Tag} {srcs : List Nat} (ht : t ≠ .none)
    (h : ∀ k ∈ srcs, s.tag k = t) : firstViolated (s.sourceChecks t srcs) = none := by
  rw [firstViolated_eq_none]
  intro x hx
  simp only [State.sourceChecks, List.mem_cons, List.not_mem_nil, or_false] at hx
  rcases hx with rfl | rfl
  · simp only [State.anyUntagged, List.any_eq_false, beq_iff_eq]
    intro k hk; rw [h k hk]; exact ht
  · simp only [State.anyNot, List.any_eq_false, bne_iff_ne, not_not]
    exact h

end Sys2Proof.Machine
end

