-- ==== Sys2Proof/Laws/Stream.lean ====
section
/-! SUPPORT. Sessions of the stream machine: how they end, the induction over their bytes, and the session whose bytes
are all served. -/

namespace Sys2Proof

theorem Variant.rate_pos (v : Variant) : 0 < v.rate := by cases v <;> decide

namespace Machine

@[simp] theorem Ended.map_done {α β : Type} (f : α → β) (x : α) : (Ended.done x).map f = .done (f x) := rfl
@[simp] theorem Ended.map_aborted {α β : Type} (f : α → β) (c : FaultCode) : (Ended.aborted c).map f = .aborted c := rfl
@[simp] theorem Ended.map_unending {α β : Type} (f : α → β) : (Ended.unending : Ended α).map f = .unending := rfl

theorem Ended.map_eq_done {α β : Type} {f : α → β} {r : Ended α} {y : β} :
    r.map f = .done y ↔ ∃ x, r = .done x ∧ f x = y := by
  cases r <;> simp

theorem Ended.map_eq_aborted {α β : Type} {f : α → β} {r : Ended α} {c : FaultCode} :
    r.map f = .aborted c ↔ r = .aborted c := by
  cases r <;> simp

theorem Ended.map_eq_unending {α β : Type} {f : α → β} {r : Ended α} :
    r.map f = .unending ↔ r = .unending := by
  cases r <;> simp

variable {σ : Type} {e : Env} {v : Variant} {m : List Byte} {stop : σ → Bool} {feed : σ → Byte → σ}

/-! ## One step of a session -/

/-- All a session step can do: stop, abort at the limit, abort at a failing block, take the first byte of a new block,
take a byte of a block already squeezed. -/
theorem sessionStep_cases (e : Env) (v : Variant) (m : List Byte) (stop : σ → Bool) (feed : σ → Byte → σ)
    (cur nblk : Nat) (st : σ) :
    (stop st = true ∧ sessionStep e v m stop feed cur nblk st = .inl (.done (st, nblk))) ∨
    (stop st = false ∧ cur = nblk * v.rate ∧ e.atLimit nblk = true ∧
      sessionStep e v m stop feed cur nblk st = .inl (.aborted .xofLim)) ∨
    (stop st = false ∧ cur = nblk * v.rate ∧ e.atLimit nblk = false ∧ e.squeezeFails v m nblk = true ∧
      sessionStep e v m stop feed cur nblk st = .inl (.aborted .xofErr)) ∨
    (stop st = false ∧ cur = nblk * v.rate ∧ e.atLimit nblk = false ∧ e.squeezeFails v m nblk = false ∧
      sessionStep e v m stop feed cur nblk st = .inr (nblk + 1, feed st (e.streamByte v m cur))) ∨
    (stop st = false ∧ cur ≠ nblk * v.rate ∧
      sessionStep e v m stop feed cur nblk st = .inr (nblk, feed st (e.streamByte v m cur))) := by
  unfold sessionStep
  cases stop st
  · by_cases hc : cur = nblk * v.rate
    · cases e.atLimit nblk
      · cases e.squeezeFails v m nblk <;> simp [hc]
      · simp [hc]
    · simp [hc]
  · simp

/-- A session step ends a session in a commit or an abort. -/
theorem sessionStep_ne_unending (cur nblk : Nat) (st : σ) :
    sessionStep e v m stop feed cur nblk st ≠ .inl .unending := by
  rcases sessionStep_cases e v m stop feed cur nblk st with ⟨_, h⟩ | ⟨_, _, _, h⟩ | ⟨_, _, _, _, h⟩ |
    ⟨_, _, _, _, h⟩ | ⟨_, _, h⟩ <;> rw [h] <;> simp

theorem atLimit_eq_true {k : Nat} : e.atLimit k = true ↔ e.sqzLimit = .blocks k := by
  unfold Env.atLimit
  split
  · rename_i n h
    rw [h, beq_iff_eq, SqzLimit.blocks.injEq, eq_comm]
  · rename_i h
    rw [h]; simp

theorem session_succ {fuel cur nblk : Nat} {st : σ} :
    session e v m stop feed (fuel + 1) cur nblk st =
      match sessionStep e v m stop feed cur nblk st with
      | .inl r => r
      | .inr x => session e v m stop feed fuel (cur + 1) x.1 x.2 := by
  rw [session]
  rcases sessionStep e v m stop feed cur nblk st with r | ⟨_, _⟩ <;> rfl

/-! ## A session followed to its end -/

/-- A session that ends within some number of steps ends so when it is followed. -/
theorem follow_of_session {fuel cur nblk : Nat} {st : σ} {r : Ended (σ × Nat)} (hr : r ≠ .unending)
    (h : session e v m stop feed fuel cur nblk st = r) : follow e v m stop feed cur nblk st = some r := by
  induction fuel generalizing cur nblk st with
  | zero => exact absurd h.symm hr
  | succ fuel ih =>
    rw [session_succ] at h
    rw [follow]
    split at h
    · rw [‹sessionStep e v m stop feed cur nblk st = _›, ← h]
    · rw [‹sessionStep e v m stop feed cur nblk st = _›]
      exact ih h

/-- A session that ends when it is followed ends within some number of steps. -/
theorem session_of_follow {cur nblk : Nat} {st : σ} {r : Ended (σ × Nat)}
    (h : follow e v m stop feed cur nblk st = some r) :
    r ≠ .unending ∧ ∃ fuel, session e v m stop feed fuel cur nblk st = r := by
  refine follow.partial_correctness e v m stop feed
    (fun cur nblk st r => r ≠ .unending ∧ ∃ fuel, session e v m stop feed fuel cur nblk st = r) ?_ cur nblk st r h
  intro go ih cur nblk st r h
  split at h
  · rename_i r' hs
    cases h
    exact ⟨fun hu => sessionStep_ne_unending cur nblk st (hu ▸ hs), 1, by rw [session_succ, hs]⟩
  · rename_i nblk' st' hs
    obtain ⟨hr, fuel, hf⟩ := ih _ _ _ _ h
    exact ⟨hr, fuel + 1, by rw [session_succ, hs]; exact hf⟩

/-- Under a finite limit a session ends (20_memory.md R70): the fuel outlasts every byte within the limit. -/
theorem session_ends {n : Nat} (hl : e.sqzLimit = .blocks n) {fuel cur nblk : Nat} (st : σ)
    (h1 : nblk ≤ n) (h2 : cur ≤ nblk * v.rate) (h3 : v.rate * n + 1 ≤ fuel + cur) :
    session e v m stop feed fuel cur nblk st ≠ .unending := by
  have hr := Variant.rate_pos v
  induction fuel generalizing cur nblk st with
  | zero =>
    have : nblk * v.rate ≤ n * v.rate := Nat.mul_le_mul_right _ h1
    rw [Nat.mul_comm v.rate] at h3
    omega
  | succ fuel ih =>
    rw [session_succ]
    rcases sessionStep_cases e v m stop feed cur nblk st with ⟨_, h⟩ | ⟨_, _, _, h⟩ | ⟨_, _, _, _, h⟩ |
      ⟨_, hc, hat, _, h⟩ | ⟨_, hc, h⟩ <;> rw [h]
    · simp
    · simp
    · simp
    · refine ih _ ?_ ?_ (by omega)
      · have : nblk ≠ n := fun hh => by simp [Env.atLimit, hl, hh] at hat
        show nblk + 1 ≤ n
        omega
      · show cur + 1 ≤ (nblk + 1) * v.rate
        rw [Nat.succ_mul]; omega
    · exact ih _ h1 (by show cur + 1 ≤ nblk * v.rate; omega) (by omega)

/-! ## The whole session -/

theorem openSession_ends {n : Nat} (hl : e.sqzLimit = .blocks n) (start : σ) :
    openSession e v m stop feed start ≠ .unending := by
  unfold openSession
  rw [hl]
  exact session_ends hl start (Nat.zero_le _) (Nat.zero_le _) (Nat.le_refl _)

/-- How a session ends, said without its limit: it ends so iff it does within some number of steps. -/
theorem openSession_eq_iff {start : σ} {r : Ended (σ × Nat)} (hr : r ≠ .unending) :
    openSession e v m stop feed start = r ↔ ∃ fuel, session e v m stop feed fuel 0 0 start = r := by
  constructor
  · intro h
    unfold openSession at h
    split at h
    · exact ⟨_, h⟩
    · cases hf : follow e v m stop feed 0 0 start with
      | none => rw [hf] at h; exact absurd h.symm hr
      | some r' => rw [hf] at h; cases h; exact (session_of_follow hf).2
  · rintro ⟨fuel, h⟩
    have hf := follow_of_session hr h
    cases hl : e.sqzLimit with
    | unlimited => unfold openSession; rw [hl]; simp [hf]
    | blocks n =>
      have hne := openSession_ends (v := v) (m := m) (stop := stop) (feed := feed) hl start
      have ho : openSession e v m stop feed start = session e v m stop feed (v.rate * n + 1) 0 0 start := by
        unfold openSession; rw [hl]
      have := follow_of_session hne ho.symm
      rw [hf] at this
      exact (Option.some.inj this).symm

/-- A session never ends iff it is not over within any number of steps. -/
theorem openSession_unending_iff {start : σ} :
    openSession e v m stop feed start = .unending ↔
      ∀ fuel, session e v m stop feed fuel 0 0 start = .unending := by
  constructor
  · intro h fuel
    by_contra hne
    rw [(openSession_eq_iff hne).2 ⟨fuel, rfl⟩] at h
    exact hne h
  · intro h
    by_contra hne
    obtain ⟨fuel, hf⟩ := (openSession_eq_iff hne).1 rfl
    exact hne (hf.symm.trans (h fuel))

/-- A session aborts for one of the two session causes only. -/
theorem session_aborted {fuel cur nblk : Nat} {st : σ} {c : FaultCode}
    (h : session e v m stop feed fuel cur nblk st = .aborted c) : c = .xofLim ∨ c = .xofErr := by
  induction fuel generalizing cur nblk st with
  | zero => cases h
  | succ fuel ih =>
    rw [session_succ] at h
    rcases sessionStep_cases e v m stop feed cur nblk st with ⟨_, hs⟩ | ⟨_, _, _, hs⟩ | ⟨_, _, _, _, hs⟩ |
      ⟨_, _, _, _, hs⟩ | ⟨_, _, hs⟩ <;> rw [hs] at h
    · cases h
    · cases h; exact .inl rfl
    · cases h; exact .inr rfl
    · exact ih h
    · exact ih h

theorem openSession_aborted {start : σ} {c : FaultCode}
    (h : openSession e v m stop feed start = .aborted c) : c = .xofLim ∨ c = .xofErr := by
  obtain ⟨_, hs⟩ := (openSession_eq_iff (by simp)).1 h
  exact session_aborted hs

/-- A property of the working state that every byte keeps, as long as the stop condition does not hold, is there at the
end, with the stop condition. -/
theorem session_done {P : Nat → σ → Prop} {fuel cur nblk : Nat} {st : σ} {r : σ × Nat}
    (keep : ∀ n st, P n st → stop st = false → P (n + 1) (feed st (e.streamByte v m n)))
    (hP : P cur st) (h : session e v m stop feed fuel cur nblk st = .done r) :
    stop r.1 = true ∧ ∃ n, P n r.1 := by
  induction fuel generalizing cur nblk st with
  | zero => cases h
  | succ fuel ih =>
    rw [session_succ] at h
    rcases sessionStep_cases e v m stop feed cur nblk st with ⟨hst, hs⟩ | ⟨_, _, _, hs⟩ | ⟨_, _, _, _, hs⟩ |
      ⟨hst, _, _, _, hs⟩ | ⟨hst, _, hs⟩ <;> rw [hs] at h
    · cases h; exact ⟨hst, _, hP⟩
    · cases h
    · cases h
    · exact ih (keep _ _ hP hst) h
    · exact ih (keep _ _ hP hst) h

theorem openSession_done {P : Nat → σ → Prop} {start : σ} {r : σ × Nat}
    (keep : ∀ n st, P n st → stop st = false → P (n + 1) (feed st (e.streamByte v m n)))
    (hP : P 0 start) (h : openSession e v m stop feed start = .done r) :
    stop r.1 = true ∧ ∃ n, P n r.1 := by
  obtain ⟨_, hs⟩ := (openSession_eq_iff (by simp)).1 h
  exact session_done keep hP hs

/-! ## A session whose bytes are served -/

/-- The working state after the first `n` bytes of the stream. -/
def afterBytes (e : Env) (v : Variant) (m : List Byte) (feed : σ → Byte → σ) (start : σ) (n : Nat) : σ :=
  (List.range n).foldl (fun st k => feed st (e.streamByte v m k)) start

@[simp] theorem afterBytes_zero (start : σ) : afterBytes e v m feed start 0 = start := rfl

theorem afterBytes_succ (start : σ) (n : Nat) :
    afterBytes e v m feed start (n + 1) = feed (afterBytes e v m feed start n) (e.streamByte v m n) := by
  simp [afterBytes, List.range_succ]

/-- `ceil` of a byte count over the rate, one byte on: a new block at a multiple of the rate, else the same. -/
theorem ceil_succ (v : Variant) (cur : Nat) :
    (cur + 1 + v.rate - 1) / v.rate = cur / v.rate + 1 := by
  rw [show cur + 1 + v.rate - 1 = cur + v.rate by omega, Nat.add_div_right _ (Variant.rate_pos v)]

/-- After `cur` bytes the engine has squeezed `ceil(cur / RATE)` blocks, so the next byte needs a new one exactly at a
multiple of the rate (R171). -/
theorem ceil_eq_div {v : Variant} {cur nblk : Nat} (h : nblk = (cur + v.rate - 1) / v.rate) :
    (cur = nblk * v.rate → nblk = cur / v.rate) ∧
    (cur ≠ nblk * v.rate → nblk = cur / v.rate + 1) := by
  have hr := Variant.rate_pos v
  have he := Nat.div_add_mod cur v.rate
  have hl := Nat.mod_lt cur hr
  have hn : nblk = cur / v.rate + (cur % v.rate + v.rate - 1) / v.rate := by
    rw [h]
    conv_lhs => rw [← he, Nat.add_assoc, Nat.add_sub_assoc (by omega), Nat.mul_add_div hr]
  rcases Nat.eq_zero_or_pos (cur % v.rate) with h0 | h0
  · have : (cur % v.rate + v.rate - 1) / v.rate = 0 := Nat.div_eq_of_lt (by omega)
    rw [this] at hn
    refine ⟨fun _ => by omega, fun hne => absurd ?_ hne⟩
    rw [hn, Nat.add_zero, Nat.mul_comm]; omega
  · have : (cur % v.rate + v.rate - 1) / v.rate = 1 := by
      rw [show cur % v.rate + v.rate - 1 = (cur % v.rate - 1) + v.rate by omega, Nat.add_div_right _ hr,
        Nat.div_eq_of_lt (by omega)]
    rw [this] at hn
    refine ⟨fun heq => ?_, fun _ => hn⟩
    rw [heq, Nat.mul_mod_left] at h0
    omega

/-- A session that does not stop before byte `n`, and whose blocks up to there are within the limit and do not fail,
comes to byte `n` with `ceil(n / RATE)` blocks: with `n` steps more of fuel it ends as it does from there. -/
theorem session_advance {start : σ} {n : Nat} (fuel : Nat)
    (hlim : ∀ k < (n + v.rate - 1) / v.rate, e.atLimit k = false ∧ e.squeezeFails v m k = false)
    (hgo : ∀ k < n, stop (afterBytes e v m feed start k) = false) :
    session e v m stop feed (fuel + n) 0 0 start =
      session e v m stop feed fuel n ((n + v.rate - 1) / v.rate) (afterBytes e v m feed start n) := by
  have hr := Variant.rate_pos v
  suffices H : ∀ d, d ≤ n → session e v m stop feed (fuel + n) 0 0 start =
      session e v m stop feed (fuel + (n - d)) d ((d + v.rate - 1) / v.rate) (afterBytes e v m feed start d) by
    simpa using H n le_rfl
  intro d
  induction d with
  | zero => intro _; simp [Nat.div_eq_of_lt (Nat.sub_lt hr Nat.one_pos)]
  | succ d ih =>
    intro hd
    rw [ih (by omega), show fuel + (n - d) = fuel + (n - (d + 1)) + 1 by omega, session_succ, afterBytes_succ,
      ceil_succ]
    have hb := ceil_eq_div (v := v) (cur := d) rfl
    have hlt : d / v.rate < (n + v.rate - 1) / v.rate := by
      rw [Nat.lt_iff_add_one_le, Nat.le_div_iff_mul_le hr, Nat.succ_mul]
      have := Nat.div_mul_le_self d v.rate
      omega
    rcases sessionStep_cases e v m stop feed d ((d + v.rate - 1) / v.rate) (afterBytes e v m feed start d) with
      ⟨hst, _⟩ | ⟨_, hc, hat, _⟩ | ⟨_, hc, _, hf, _⟩ | ⟨_, hc, _, _, hs⟩ | ⟨_, hc, hs⟩
    · rw [hgo d (by omega)] at hst; cases hst
    · rw [hb.1 hc, (hlim _ hlt).1] at hat; cases hat
    · rw [hb.1 hc, (hlim _ hlt).2] at hf; cases hf
    · rw [hs, ← hb.1 hc]
    · rw [hs, ← hb.2 hc]

/-- Where the stop condition first holds after `n` bytes, and the blocks up to byte `n` are within the limit and do not
fail, the session commits after `n` bytes with `ceil(n / RATE)` blocks. -/
theorem openSession_served {start : σ} {n : Nat}
    (hlim : ∀ k < (n + v.rate - 1) / v.rate, e.atLimit k = false ∧ e.squeezeFails v m k = false)
    (hgo : ∀ k < n, stop (afterBytes e v m feed start k) = false)
    (hstop : stop (afterBytes e v m feed start n) = true) :
    openSession e v m stop feed start = .done (afterBytes e v m feed start n, (n + v.rate - 1) / v.rate) := by
  refine (openSession_eq_iff (by simp)).2 ⟨1 + n, ?_⟩
  rw [session_advance 1 hlim hgo, session_succ]
  simp [sessionStep, hstop]

/-- Where a session needs block `k`, it aborts there: with `F_XOFLIM` at the limit, else with `F_XOFERR` if the block
fails (R172). -/
theorem openSession_at_block {start : σ} {k : Nat}
    (hlim : ∀ b < k, e.atLimit b = false ∧ e.squeezeFails v m b = false)
    (hgo : ∀ c ≤ k * v.rate, stop (afterBytes e v m feed start c) = false) :
    (e.atLimit k = true → openSession e v m stop feed start = .aborted .xofLim) ∧
    (e.atLimit k = false → e.squeezeFails v m k = true →
      openSession e v m stop feed start = .aborted .xofErr) := by
  have hr := Variant.rate_pos v
  have hk : (k * v.rate + v.rate - 1) / v.rate = k := by
    rw [Nat.add_sub_assoc hr, Nat.mul_comm, Nat.mul_add_div hr, Nat.div_eq_of_lt (Nat.sub_lt hr Nat.one_pos),
      Nat.add_zero]
  have hadv := session_advance (stop := stop) (feed := feed) (start := start) (n := k * v.rate) 1 (by rwa [hk])
    (fun c hc => hgo c hc.le)
  rw [hk, session_succ] at hadv
  constructor
  · intro hat
    refine (openSession_eq_iff (by simp)).2 ⟨_, hadv.trans ?_⟩
    simp [sessionStep, hgo _ le_rfl, hat]
  · intro hat hf
    refine (openSession_eq_iff (by simp)).2 ⟨_, hadv.trans ?_⟩
    simp [sessionStep, hgo _ le_rfl, hat, hf]

/-- A session never ends iff there is no limit, no block fails, and the stop condition never holds (R185). -/
theorem openSession_unending {start : σ} :
    openSession e v m stop feed start = .unending ↔
      e.sqzLimit = .unlimited ∧ (∀ k, e.squeezeFails v m k = false) ∧
        ∀ n, stop (afterBytes e v m feed start n) = false := by
  have hr := Variant.rate_pos v
  constructor
  · intro h
    have hl : e.sqzLimit = .unlimited := by
      cases hl : e.sqzLimit with
      | unlimited => rfl
      | blocks n => exact absurd h (openSession_ends hl start)
    have hat : ∀ k, e.atLimit k = false := fun k => by simp [Env.atLimit, hl]
    have key : ∀ n, (∀ k < (n + v.rate - 1) / v.rate, e.squeezeFails v m k = false) ∧
        ∀ c ≤ n, stop (afterBytes e v m feed start c) = false := by
      intro n
      induction n with
      | zero =>
        refine ⟨by simp [Nat.div_eq_of_lt (Nat.sub_lt hr Nat.one_pos)], ?_⟩
        intro c hc
        obtain rfl : c = 0 := by omega
        by_contra hst
        rw [openSession_served (n := 0) (by simp [Nat.div_eq_of_lt (Nat.sub_lt hr Nat.one_pos)]) (by simp)
          (by simpa using hst)] at h
        cases h
      | succ n ih =>
        have hf : ∀ k < (n + 1 + v.rate - 1) / v.rate, e.squeezeFails v m k = false := by
          intro k hk
          rw [ceil_succ] at hk
          by_contra hfail
          have hfail : e.squeezeFails v m k = true := by simpa using hfail
          have hkn : (n + v.rate - 1) / v.rate ≤ k := by
            by_contra hlt
            rw [ih.1 k (by omega)] at hfail; cases hfail
          have hb := ceil_eq_div (v := v) (cur := n) rfl
          have hk' : k * v.rate ≤ n :=
            (Nat.mul_le_mul_right _ (show k ≤ n / v.rate by omega)).trans (Nat.div_mul_le_self _ _)
          rw [(openSession_at_block (k := k)
            (fun b hb' => ⟨hat b, ih.1 b (by
              rcases Decidable.em (n = (n + v.rate - 1) / v.rate * v.rate) with h1 | h1
              · have := hb.1 h1; omega
              · have := hb.2 h1; omega)⟩)
            (fun c hc => ih.2 c (hc.trans hk'))).2 (hat k) hfail] at h
          cases h
        refine ⟨hf, fun c hc => ?_⟩
        rcases Nat.lt_or_ge c (n + 1) with hlt | hge
        · exact ih.2 c (by omega)
        · obtain rfl : c = n + 1 := by omega
          by_contra hst
          rw [openSession_served (n := n + 1) (fun k hk => ⟨hat k, hf k hk⟩) (fun k hk => ih.2 k (by omega))
            (by simpa using hst)] at h
          cases h
    refine ⟨hl, fun k => (key (k * v.rate + 1)).1 k ?_, fun n => (key n).2 n le_rfl⟩
    rw [ceil_succ, Nat.mul_div_cancel _ hr]
    exact Nat.lt_succ_self k
  · rintro ⟨hl, hf, hst⟩
    refine openSession_unending_iff.2 fun fuel => ?_
    have hat : ∀ k, e.atLimit k = false := fun k => by simp [Env.atLimit, hl]
    have := session_advance (e := e) (v := v) (m := m) (stop := stop) (feed := feed) (start := start) (n := fuel) 0
      (fun k _ => ⟨hat k, hf k⟩) (fun k _ => hst k)
    rwa [Nat.zero_add] at this

end Machine

end Sys2Proof
end

