-- ==== Sys2Proof/Laws/Exec.lean ====
section
/-! SUPPORT. All that a command and a step can do, said once: the inversion lemmas that the whole-machine statements go
through. -/

namespace Sys2Proof.Machine

/-- The state `u` before completion is counted, for a command whose checks passed in `s` and whose session, if it has
one, committed: which fields may differ, by command. -/
def Effect : Instr → State → State → Prop
  | .nop, s, u => u = s
  | .chknorm _, s, u => u = { s with norm := u.norm, rej := s.rej || u.norm }
  | .mkhint _ _ _, s, u => u = { s with slots := u.slots, tags := u.tags, hintcnt := u.hintcnt }
  | .sunif _, s, u | .seta _, s, u | .sgam1 _, s, u =>
    s.novf = false ∧ u = { s with
      slots := u.slots, tags := u.tags, sqzcnt := u.sqzcnt, rejcnt := u.rejcnt
      nonce := s.nonce + 1, novf := s.nonce == 0xFFFF }
  | .chal _, s, u | .expmat _, s, u =>
    u = { s with slots := u.slots, tags := u.tags, sqzcnt := u.sqzcnt, rejcnt := u.rejcnt }
  | .settag _ _, s, u => u = { s with tags := u.tags }
  | .ntt _ _, s, u | .invntt _ _, s, u | .pwmul _ _ _, s, u | .add _ _ _, s, u | .sub _ _ _, s, u
  | .reduce _ _, s, u | .csubq _ _, s, u | .freeze _ _, s, u | .shld _ _, s, u
  | .p2r _ _ _, s, u | .decomp _ _ _, s, u | .pwacc _ _ _, s, u | .usehint _ _ _, s, u =>
    u = { s with slots := u.slots, tags := u.tags }

/-- What no effect of any command touches. -/
structure Kept (s u : State) : Prop where
  mem : u.mem = s.mem
  alen : u.alen = s.alen
  bound : u.bound = s.bound
  cmdcnt : u.cmdcnt = s.cmdcnt
  fault : u.fault = s.fault
  fcode : u.fcode = s.fcode
  finfo : u.finfo = s.finfo
  pending : u.pending = s.pending
  reads : u.reads = s.reads
  env : u.env = s.env
  freeIdx : u.freeIdx = s.freeIdx

theorem Effect.kept {i : Instr} {s u : State} (h : Effect i s u) : Kept s u := by
  cases i <;> simp only [Effect] at h <;> first
    | (rw [h]; constructor <;> rfl)
    | (rw [h.2]; constructor <;> rfl)

/-- The commands that run XOF sessions (44_samplers.md R170). -/
def Instr.streams : Instr → Bool
  | .expmat _ | .sunif _ | .seta _ | .sgam1 _ | .chal _ => true
  | .nop | .settag _ _ | .ntt _ _ | .invntt _ _ | .pwmul _ _ _ | .add _ _ _ | .sub _ _ _ | .reduce _ _
  | .csubq _ _ | .freeze _ _ | .shld _ _ | .p2r _ _ _ | .decomp _ _ _ | .chknorm _ | .pwacc _ _ _
  | .mkhint _ _ _ | .usehint _ _ _ => false

/-- The decode-time fault codes a command can report once its word has decoded (60_exceptions.md R244). -/
def Instr.decodeFaults : Instr → List FaultCode
  | .nop => []
  | .settag _ _ => [.illegal]
  | .ntt _ _ | .invntt _ _ | .pwmul _ _ _ | .add _ _ _ | .sub _ _ _ | .chknorm _ | .mkhint _ _ _
  | .usehint _ _ _ => [.uninit, .domain]
  | .reduce _ _ | .csubq _ _ | .freeze _ _ | .shld _ _ => [.uninit]
  | .p2r _ _ _ | .decomp _ _ _ | .pwacc _ _ _ => [.range, .uninit, .domain]
  | .expmat _ => [.range, .alen]
  | .sunif _ | .seta _ | .sgam1 _ => [.alen, .nonce]
  | .chal _ => [.alen]

/-- The three ways a command gives a next state: a precise fault, completion, a session fault. -/
def Ends (i : Instr) (s t : State) : Prop :=
  (∃ c ∈ Instr.decodeFaults i, t = s.raise c (encode i)) ∨
    (∃ u, Effect i s u ∧ t = u.complete) ∨
    (Instr.streams i = true ∧ ∃ c dests, (c = .xofLim ∨ c = .xofErr) ∧ t = s.abort c (encode i) dests)

theorem ends_of_runCommand {i : Instr} {checks : List (FaultCode × Bool)} {effect : State → State} {s t : State}
    (hc : ∀ x ∈ checks, x.1 ∈ Instr.decodeFaults i) (he : Effect i s (effect s))
    (h : runCommand i checks effect s = .next t) : Ends i s t := by
  rcases runCommand_cases h with ⟨c, hv, rfl⟩ | ⟨_, rfl⟩
  · exact .inl ⟨c, hc _ (firstViolated_mem hv), rfl⟩
  · exact .inr (.inl ⟨_, he, rfl⟩)

theorem ends_of_runStream {α : Type} {i : Instr} {checks : List (FaultCode × Bool)} {dests : List Nat}
    {commit : State → α → State} {r : Ended α} {s t : State} (hi : Instr.streams i = true)
    (hc : ∀ x ∈ checks, x.1 ∈ Instr.decodeFaults i)
    (he : ∀ x, firstViolated checks = none → Effect i s (commit s x))
    (hr : ∀ c, r = .aborted c → c = .xofLim ∨ c = .xofErr)
    (h : runStream i checks dests commit r s = .next t) : Ends i s t := by
  rcases runStream_cases h with ⟨c, hv, rfl⟩ | ⟨hn, ⟨x, _, rfl⟩ | ⟨c, hc', rfl⟩ | ⟨_, _, rfl⟩⟩
  · exact .inl ⟨c, hc _ (firstViolated_mem hv), rfl⟩
  · exact .inr (.inl ⟨_, he x hn, rfl⟩)
  · exact .inr (.inr ⟨hi, c, dests, hr c hc', rfl⟩)
  · exact .inr (.inr ⟨hi, _, dests, .inl rfl, rfl⟩)

theorem expandEntries_aborted {e : Env} {rho : List Byte} {l : List (Nat × Nat)} {c : FaultCode}
    (h : expandEntries e rho l = .aborted c) : c = .xofLim ∨ c = .xofErr := by
  induction l with
  | nil => cases h
  | cons ij l ih =>
    rw [expandEntries] at h
    split at h
    · exact ih (Ended.map_eq_aborted.1 h)
    · rename_i hc
      cases h
      exact openSession_aborted (Ended.map_eq_aborted.1 hc)
    · cases h

theorem commitMatrix_fields (p : Params) (d : Nat) (s : State) (xs : List Sample) :
    commitMatrix p d s xs = { s with
      slots := (commitMatrix p d s xs).slots, tags := (commitMatrix p d s xs).tags
      sqzcnt := (commitMatrix p d s xs).sqzcnt, rejcnt := (commitMatrix p d s xs).rejcnt } := by
  have fold : ∀ (l : List ((Nat × Nat) × Sample)) (s : State),
      l.foldl (fun s e => s.setSlot (d + e.1.1 * p.l + e.1.2) e.2.out .ntt) s =
        { s with
          slots := (l.foldl (fun s e => s.setSlot (d + e.1.1 * p.l + e.1.2) e.2.out .ntt) s).slots
          tags := (l.foldl (fun s e => s.setSlot (d + e.1.1 * p.l + e.1.2) e.2.out .ntt) s).tags } := by
    intro l
    induction l with
    | nil => intro s; rfl
    | cons e l ih => intro s; simp only [List.foldl_cons]; exact ih _
  unfold commitMatrix State.recordStream
  simp only []
  rw [fold]

theorem seed_effect {s : State} {i : Instr} {d : Nat} {tag : Tag} {x : Sample}
    (hi : ∀ u, Effect i s u = (s.novf = false ∧ u = { s with
      slots := u.slots, tags := u.tags, sqzcnt := u.sqzcnt, rejcnt := u.rejcnt
      nonce := s.nonce + 1, novf := s.nonce == 0xFFFF }))
    (h : firstViolated s.seedChecks = none) : Effect i s (commitSeed d tag s x) := by
  have hn : s.novf = false := firstViolated_eq_none.1 h (.nonce, s.novf) (by simp [State.seedChecks])
  rw [hi]
  refine ⟨hn, ?_⟩
  simp only [commitSeed, State.bumpNonce, State.recordSession, State.recordStream, State.setSlot, hn, Bool.false_or]

/-- Every next state of every command is one of the three ends. -/
theorem exec_ends {i : Instr} {s t : State} (h : exec i s = .next t) : Ends i s t := by
  cases i with
  | nop =>
    rw [exec, execNop] at h
    refine ends_of_runCommand ?_ ?_ h <;> first | rfl | simp
  | settag d code =>
    simp only [exec, execSettag] at h
    split at h
    · cases h; exact .inl ⟨.illegal, by simp [Instr.decodeFaults], rfl⟩
    · refine ends_of_runCommand ?_ ?_ h <;> first | rfl | simp
  | ntt d a =>
    refine ends_of_runCommand ?_ ?_ h <;> first | rfl | simp [State.sourceChecks, Instr.decodeFaults]
  | invntt d a =>
    refine ends_of_runCommand ?_ ?_ h <;> first | rfl | simp [State.sourceChecks, Instr.decodeFaults]
  | pwmul d a b =>
    refine ends_of_runCommand ?_ ?_ h <;> first | rfl | simp [State.sourceChecks, Instr.decodeFaults]
  | add d a b =>
    refine ends_of_runCommand ?_ ?_ h <;> first | rfl | simp [State.sameTagChecks, Instr.decodeFaults]
  | sub d a b =>
    refine ends_of_runCommand ?_ ?_ h <;> first | rfl | simp [State.sameTagChecks, Instr.decodeFaults]
  | reduce d a =>
    refine ends_of_runCommand ?_ ?_ h <;> first | rfl | simp [State.taggedChecks, Instr.decodeFaults]
  | csubq d a =>
    refine ends_of_runCommand ?_ ?_ h <;> first | rfl | simp [State.taggedChecks, Instr.decodeFaults]
  | freeze d a =>
    refine ends_of_runCommand ?_ ?_ h <;> first | rfl | simp [State.taggedChecks, Instr.decodeFaults]
  | shld d a =>
    refine ends_of_runCommand ?_ ?_ h <;> first | rfl | simp [State.taggedChecks, Instr.decodeFaults]
  | p2r d a b =>
    refine ends_of_runCommand ?_ ?_ h <;> first | rfl | simp [State.splitChecks, State.sourceChecks, Instr.decodeFaults]
  | decomp d a b =>
    refine ends_of_runCommand ?_ ?_ h <;> first | rfl | simp [State.splitChecks, State.sourceChecks, Instr.decodeFaults]
  | chknorm a =>
    rw [exec, execChknorm] at h
    refine ends_of_runCommand ?_ ?_ h <;> first | rfl | simp [State.sourceChecks, Instr.decodeFaults]
  | pwacc d a b =>
    rw [exec, execPwacc] at h
    refine ends_of_runCommand ?_ ?_ h <;> first | rfl | simp [State.accChecks, State.sourceChecks, Instr.decodeFaults]
  | mkhint d a b =>
    rw [exec, execMkhint] at h
    refine ends_of_runCommand ?_ ?_ h <;> first | rfl | simp [State.sourceChecks, Instr.decodeFaults]
  | usehint d a b =>
    rw [exec, execUsehint] at h
    refine ends_of_runCommand ?_ ?_ h <;> first | rfl | simp [State.sourceChecks, Instr.decodeFaults]
  | expmat d =>
    refine ends_of_runStream rfl ?_ ?_ ?_ h
    · simp [State.matrixChecks, Instr.decodeFaults]
    · intro x _; exact commitMatrix_fields _ _ _ _
    · intro c; exact expandEntries_aborted
  | chal d =>
    refine ends_of_runStream rfl ?_ ?_ ?_ h
    · simp [Instr.decodeFaults]
    · intro x _; rfl
    · intro c hc; exact openSession_aborted (Ended.map_eq_aborted.1 hc)
  | sunif d =>
    refine ends_of_runStream rfl ?_ ?_ ?_ h
    · simp [State.seedChecks, Instr.decodeFaults]
    · intro x hn; exact seed_effect (fun _ => rfl) hn
    · intro c hc; exact openSession_aborted (Ended.map_eq_aborted.1 hc)
  | seta d =>
    refine ends_of_runStream rfl ?_ ?_ ?_ h
    · simp [State.seedChecks, Instr.decodeFaults]
    · intro x hn; exact seed_effect (fun _ => rfl) hn
    · intro c hc; exact openSession_aborted (Ended.map_eq_aborted.1 hc)
  | sgam1 d =>
    refine ends_of_runStream rfl ?_ ?_ ?_ h
    · simp [State.seedChecks, Instr.decodeFaults]
    · intro x hn; exact seed_effect (fun _ => rfl) hn
    · intro c hc; exact openSession_aborted (Ended.map_eq_aborted.1 hc)

/-! ## The host's operations -/

/-- A host operation, `s` with the operation taken off the list: what a next state can be. -/
theorem perform_cases {s t : State} {op : HostOp} (h : s.perform op = .next t) :
    (∃ addr bytes v, op = .read addr bytes ∧ s.busRead addr bytes = .ok v ∧ t = { s with reads := s.reads ++ [v] }) ∨
    (∃ addr bytes v, op = .write addr bytes v ∧ s.busWrite addr bytes v = .next t) ∨
    (op = .hardReset ∧ t = s.resetBlock) := by
  cases op with
  | read addr bytes =>
    simp only [State.perform] at h
    split at h <;> cases h
    exact .inl ⟨addr, bytes, _, rfl, ‹_›, rfl⟩
  | write addr bytes v => exact .inr (.inl ⟨addr, bytes, v, rfl, h⟩)
  | hardReset => cases h; exact .inr (.inr ⟨rfl, rfl⟩)

/-- All that an accepted bus write can be. -/
theorem busWrite_cases {s t : State} {addr : BitVec 19} {bytes : Nat} {v : Word}
    (h : s.busWrite addr bytes v = .next t) :
    (access addr bytes = .ok (.reg .ctrl) ∧ t = s.writeCtrl v) ∨
    (access addr bytes = .ok (.reg .cmd) ∧ s.fault = false ∧ runWord v s = .next t) ∨
    (access addr bytes = .ok (.reg .alen) ∧ t = { s with alen := v.setWidth 11 }) ∨
    (access addr bytes = .ok (.reg .nonce) ∧ t = { s with nonce := v.setWidth 16, novf := false }) ∨
    (access addr bytes = .ok (.reg .bound) ∧ t = { s with bound := v }) ∨
    (∃ n, access addr bytes = .ok (.abuf n) ∧ t = { s with mem := Memory.write s.mem (ABUFBASE + n) (wordBytes v) }) ∨
    (∃ k i, access addr bytes = .ok (.slotWord k i) ∧ t = s.setWord k i v) := by
  unfold State.busWrite at h
  split at h
  · cases h
  · rename_i r hr
    rw [hr]
    cases r <;> simp only [State.writeReg] at h <;> first | (cases h; done) | skip
    · cases h; simp
    · unfold State.writeCmd at h
      split at h
      · cases h
      · simp_all
    · cases h; simp
    · cases h; simp
    · cases h; simp
  · rename_i n hn; cases h; simp [hn]
  · rename_i k i hn; cases h; simp [hn]
  · cases h

/-- A command word either decodes and runs, or faults as illegal. -/
theorem runWord_cases {s t : State} {w : Word} (h : runWord w s = .next t) :
    (∃ i, decode w = .ok i ∧ exec i s = .next t) ∨
    ((∀ i, decode w ≠ .ok i) ∧ t = s.raise .illegal w) := by
  unfold runWord at h
  split at h
  · exact .inl ⟨_, ‹_›, h⟩
  · rename_i hd
    cases h
    exact .inr ⟨fun i hi => by simp [hd] at hi, rfl⟩

/-- All that a step with a next state can be. -/
theorem step_cases {s t : State} (h : step s = .next t) :
    s.env.params.legal = true ∧
      ((s.pending = [] ∧ t = s) ∨
        ∃ op rest, s.pending = op :: rest ∧ ({ s with pending := rest } : State).perform op = .next t) := by
  unfold step State.performNext at h
  split at h
  · refine ⟨‹_›, ?_⟩
    split at h
    · cases h; exact .inl ⟨‹_›, rfl⟩
    · exact .inr ⟨_, _, ‹_›, h⟩
  · cases h

theorem placeAt_abuf {addr : BitVec 19} {n : Nat} (h : placeAt addr = .abuf n) :
    addr.toNat = ABUFBASE + n ∧ n < ABUFCAP := by
  unfold placeAt at h
  simp only at h
  split at h
  · split at h <;> cases h
  · split at h
    · cases h
    · split at h
      · injection h with h; subst h; simp only [ABUFBASE, ABUFCAP]; omega
      · split at h <;> cases h

/-- A 32-bit access to `ABUF` stays inside it. -/
theorem access_abuf {addr : BitVec 19} {bytes n : Nat} (h : access addr bytes = .ok (.abuf n)) :
    n + 4 ≤ ABUFCAP := by
  unfold access at h
  split at h
  · cases h
  · split at h
    · cases h
    · rename_i hm
      split at h
      · cases h
      · injection h with h
        have := placeAt_abuf h
        simp only [ABUFBASE, ABUFCAP] at *
        omega

end Sys2Proof.Machine
end

