-- ==== Sys2Proof/Laws/Frame.lean ====
section
/-! SUPPORT. The frames of the shared updates, the precise fault of each template, and the one encoding of a command
word. -/

namespace Sys2Proof.Machine

/-- Writing one slot and completing changes that slot only. -/
theorem Frame.setSlot (s : State) (k : Nat) (p : Poly) (t : Tag) : Frame s (s.setSlot k p t).complete [k] := by
  refine ⟨⟨?_, fun _ => rfl, rfl, rfl, rfl, rfl, rfl, rfl, rfl, rfl, rfl, rfl⟩, ⟨rfl, rfl⟩, ⟨rfl, rfl⟩, rfl, rfl, rfl⟩
  intro j hj
  have hj : ¬ (j = k ∧ k < 256) := fun h => hj (by simp [h.1])
  rw [State.poly_complete, State.tag_complete, State.poly_setSlot, State.tag_setSlot, if_neg hj, if_neg hj]
  exact ⟨rfl, rfl⟩

/-- Writing two slots and completing changes those slots only. -/
theorem Frame.setTwoSlots (s : State) (k j : Nat) (p q : Poly) (t u : Tag) :
    Frame s ((s.setSlot k p t).setSlot j q u).complete [k, j] := by
  refine ⟨⟨?_, fun _ => rfl, rfl, rfl, rfl, rfl, rfl, rfl, rfl, rfl, rfl, rfl⟩, ⟨rfl, rfl⟩, ⟨rfl, rfl⟩, rfl, rfl, rfl⟩
  intro i hi
  have h1 : ¬ (i = k ∧ k < 256) := fun h => hi (by simp [h.1])
  have h2 : ¬ (i = j ∧ j < 256) := fun h => hi (by simp [h.1])
  rw [State.poly_complete, State.tag_complete, State.poly_setSlot, State.tag_setSlot, State.poly_setSlot,
    State.tag_setSlot, if_neg h1, if_neg h2, if_neg h1, if_neg h2]
  exact ⟨rfl, rfl⟩

/-- Setting one tag and completing changes that tag only. -/
theorem Frame.setTag (s : State) (k : Nat) (t : Tag) : Frame s (s.setTag k t).complete [k] := by
  refine ⟨⟨?_, fun _ => rfl, rfl, rfl, rfl, rfl, rfl, rfl, rfl, rfl, rfl, rfl⟩, ⟨rfl, rfl⟩, ⟨rfl, rfl⟩, rfl, rfl, rfl⟩
  intro j hj
  have hj : ¬ (j = k ∧ k < 256) := fun h => hj (by simp [h.1])
  rw [State.poly_complete, State.tag_complete, State.poly_setTag, State.tag_setTag, if_neg hj]
  exact ⟨rfl, rfl⟩

/-- The slot just written, read back. -/
theorem poly_setSlot_self (s : State) (d : Slot) (p : Poly) (t : Tag) :
    (s.setSlot d.toNat p t).complete.poly d.toNat = p := by
  rw [State.poly_complete, State.poly_setSlot, if_pos ⟨rfl, d.isLt⟩]

theorem tag_setSlot_self (s : State) (d : Slot) (p : Poly) (t : Tag) :
    (s.setSlot d.toNat p t).complete.tag d.toNat = t := by
  rw [State.tag_complete, State.tag_setSlot, if_pos ⟨rfl, d.isLt⟩]

/-- A command of the plain template whose first violated check is `c` takes the precise fault. -/
theorem faultsAs_of_runCommand {i : Instr} {checks : List (FaultCode × Bool)} {effect : State → State} {s : State}
    {c : FaultCode} (he : exec i s = runCommand i checks effect s) (h : firstViolated checks = some c) :
    FaultsAs i s c.code := by
  unfold FaultsAs
  rw [he, runCommand_fail h]
  rfl

theorem faultsAs_of_runStream {α : Type} {i : Instr} {checks : List (FaultCode × Bool)} {dests : List Nat}
    {commit : State → α → State} {r : Ended α} {s : State} {c : FaultCode}
    (he : exec i s = runStream i checks dests commit r s) (h : firstViolated checks = some c) :
    FaultsAs i s c.code := by
  unfold FaultsAs
  rw [he, runStream_fail h]
  rfl

/-! ## Formats -/

theorem formF0_assemble {op : Nat} (h : op < 256) (i : Instr) : formF0 (assemble op 0 0 0) i = .ok i := by
  rw [formF0, dOf_assemble h, aOf_assemble h, bOf_assemble h]; rfl

theorem formFD_assemble {op : Nat} (h : op < 256) (d : Slot) (f : Slot → Instr) :
    formFD (assemble op d 0 0) f = .ok (f d) := by
  rw [formFD, dOf_assemble h, aOf_assemble h, bOf_assemble h]; rfl

theorem formFA_assemble {op : Nat} (h : op < 256) (a : Slot) (f : Slot → Instr) :
    formFA (assemble op 0 a 0) f = .ok (f a) := by
  rw [formFA, dOf_assemble h, aOf_assemble h, bOf_assemble h]; rfl

theorem formFDA_assemble {op : Nat} (h : op < 256) (d a : Slot) (f : Slot → Slot → Instr) :
    formFDA (assemble op d a 0) f = .ok (f d a) := by
  rw [formFDA, dOf_assemble h, aOf_assemble h, bOf_assemble h]; rfl

theorem formFDAB_assemble {op : Nat} (h : op < 256) (d a b : Slot) (f : Slot → Slot → Slot → Instr) :
    formFDAB (assemble op d a b) f = .ok (f d a b) := by
  rw [formFDAB, dOf_assemble h, aOf_assemble h, bOf_assemble h]

theorem formFDT_assemble {op : Nat} (h : op < 256) (d : Slot) {b : BitVec 8} (hb : b.toNat < 3)
    (f : Slot → BitVec 8 → Instr) : formFDT (assemble op d 0 b) f = .ok (f d b) := by
  rw [formFDT, dOf_assemble h, aOf_assemble h, bOf_assemble h]; simp [hb]

end Sys2Proof.Machine
end

