-- ==== Sys2Proof/Laws/PerInstr.lean ====
section
/-! SUPPORT. A statement for every instruction as syntax: its row of the opcode table selects its encoding. One lemma per
constructor. -/

namespace Sys2Proof.Laws.TableRow

/-- The row's mnemonic in the opcode table (30_encoding.md R95). -/
def mnemonic : Instr → String
  | .nop => "NOP"
  | .settag _ _ => "SETTAG"
  | .ntt _ _ => "NTT"
  | .invntt _ _ => "INVNTT"
  | .pwmul _ _ _ => "PWMUL"
  | .add _ _ _ => "ADD"
  | .sub _ _ _ => "SUB"
  | .reduce _ _ => "REDUCE"
  | .csubq _ _ => "CSUBQ"
  | .freeze _ _ => "FREEZE"
  | .shld _ _ => "SHLD"
  | .p2r _ _ _ => "P2R"
  | .decomp _ _ _ => "DECOMP"
  | .chknorm _ => "CHKNORM"
  | .pwacc _ _ _ => "PWACC"
  | .expmat _ => "EXPMAT"
  | .sunif _ => "SUNIF"
  | .seta _ => "SETA"
  | .sgam1 _ => "SGAM1"
  | .chal _ => "CHAL"
  | .mkhint _ _ _ => "MKHINT"
  | .usehint _ _ _ => "USEHINT"

/-- R95: the instruction's own row of the table matches its encoding under the row's mask, if it is well formed. -/
def Statement (i : Instr) : Prop :=
  ∃ r ∈ opcodeTable, r.mnemonic = mnemonic i ∧ (i.wellFormed = true → encode i &&& r.mask = r.pattern)

/-- A field the mask leaves free. -/
theorem free (x : Slot) : x &&& (0 : Slot) = 0 := BitVec.and_zero

/-- A row whose mask is given by its four bytes. -/
theorem row {i : Instr} {op mop : Nat} {d a b md ma mb : Slot} (r : OpcodeRow) (hm : r ∈ opcodeTable)
    (hn : r.mnemonic = mnemonic i) (he : encode i = assemble op d a b)
    (hmask : r.mask = assemble mop md ma mb)
    (hp : i.wellFormed = true → r.pattern = assemble (op &&& mop) (d &&& md) (a &&& ma) (b &&& mb)) : Statement i :=
  ⟨r, hm, hn, fun hw => by rw [he, hmask, assemble_and, hp hw]⟩

theorem nop : Statement .nop := ⟨⟨"NOP", 0x00000000, 0xFFFFFFFF⟩, by decide, by decide, fun _ => by decide⟩

theorem settag (d : Slot) (code : BitVec 8) : Statement (.settag d code) := by
  refine row (mop := 0xFF) (md := 0) (ma := 0xFF) (mb := 0xFC)
    ⟨"SETTAG", 0x01000000, 0xFF00FFFC⟩ (by decide) rfl rfl (by decide) ?_
  intro hw
  have h : code.toNat < 3 := of_decide_eq_true hw
  have hc : code = 0 ∨ code = 1 ∨ code = 2 := by
    have e : ∀ x : BitVec 8, code.toNat = x.toNat → code = x := fun x => BitVec.eq_of_toNat_eq
    rcases (show code.toNat = 0 ∨ code.toNat = 1 ∨ code.toNat = 2 by omega) with h | h | h
    · exact .inl (e 0 h)
    · exact .inr (.inl (e 1 h))
    · exact .inr (.inr (e 2 h))
  rw [free]
  rcases hc with rfl | rfl | rfl <;> decide

theorem ntt (d a : Slot) : Statement (.ntt d a) := by
  refine row (mop := 0xFF) (md := 0x0) (ma := 0x0) (mb := 0xff)
    ⟨"NTT", 0x10000000, 0xFF0000FF⟩ (by decide) rfl rfl (by decide) ?_
  intro _
  simp only [free]
  decide

theorem invntt (d a : Slot) : Statement (.invntt d a) := by
  refine row (mop := 0xFF) (md := 0x0) (ma := 0x0) (mb := 0xff)
    ⟨"INVNTT", 0x11000000, 0xFF0000FF⟩ (by decide) rfl rfl (by decide) ?_
  intro _
  simp only [free]
  decide

theorem pwmul (d a b : Slot) : Statement (.pwmul d a b) := by
  refine row (mop := 0xFF) (md := 0x0) (ma := 0x0) (mb := 0x0)
    ⟨"PWMUL", 0x12000000, 0xFF000000⟩ (by decide) rfl rfl (by decide) ?_
  intro _
  simp only [free]
  decide

theorem add (d a b : Slot) : Statement (.add d a b) := by
  refine row (mop := 0xFF) (md := 0x0) (ma := 0x0) (mb := 0x0)
    ⟨"ADD", 0x13000000, 0xFF000000⟩ (by decide) rfl rfl (by decide) ?_
  intro _
  simp only [free]
  decide

theorem sub (d a b : Slot) : Statement (.sub d a b) := by
  refine row (mop := 0xFF) (md := 0x0) (ma := 0x0) (mb := 0x0)
    ⟨"SUB", 0x14000000, 0xFF000000⟩ (by decide) rfl rfl (by decide) ?_
  intro _
  simp only [free]
  decide

theorem reduce (d a : Slot) : Statement (.reduce d a) := by
  refine row (mop := 0xFF) (md := 0x0) (ma := 0x0) (mb := 0xff)
    ⟨"REDUCE", 0x15000000, 0xFF0000FF⟩ (by decide) rfl rfl (by decide) ?_
  intro _
  simp only [free]
  decide

theorem csubq (d a : Slot) : Statement (.csubq d a) := by
  refine row (mop := 0xFF) (md := 0x0) (ma := 0x0) (mb := 0xff)
    ⟨"CSUBQ", 0x16000000, 0xFF0000FF⟩ (by decide) rfl rfl (by decide) ?_
  intro _
  simp only [free]
  decide

theorem freeze (d a : Slot) : Statement (.freeze d a) := by
  refine row (mop := 0xFF) (md := 0x0) (ma := 0x0) (mb := 0xff)
    ⟨"FREEZE", 0x17000000, 0xFF0000FF⟩ (by decide) rfl rfl (by decide) ?_
  intro _
  simp only [free]
  decide

theorem shld (d a : Slot) : Statement (.shld d a) := by
  refine row (mop := 0xFF) (md := 0x0) (ma := 0x0) (mb := 0xff)
    ⟨"SHLD", 0x18000000, 0xFF0000FF⟩ (by decide) rfl rfl (by decide) ?_
  intro _
  simp only [free]
  decide

theorem p2r (d a b : Slot) : Statement (.p2r d a b) := by
  refine row (mop := 0xFF) (md := 0x0) (ma := 0x0) (mb := 0x0)
    ⟨"P2R", 0x20000000, 0xFF000000⟩ (by decide) rfl rfl (by decide) ?_
  intro _
  simp only [free]
  decide

theorem decomp (d a b : Slot) : Statement (.decomp d a b) := by
  refine row (mop := 0xFF) (md := 0x0) (ma := 0x0) (mb := 0x0)
    ⟨"DECOMP", 0x21000000, 0xFF000000⟩ (by decide) rfl rfl (by decide) ?_
  intro _
  simp only [free]
  decide

theorem chknorm (a : Slot) : Statement (.chknorm a) := by
  refine row (mop := 0xFF) (md := 0xff) (ma := 0x0) (mb := 0xff)
    ⟨"CHKNORM", 0x22000000, 0xFFFF00FF⟩ (by decide) rfl rfl (by decide) ?_
  intro _
  simp only [free]
  decide

theorem pwacc (d a b : Slot) : Statement (.pwacc d a b) := by
  refine row (mop := 0xFF) (md := 0x0) (ma := 0x0) (mb := 0x0)
    ⟨"PWACC", 0x30000000, 0xFF000000⟩ (by decide) rfl rfl (by decide) ?_
  intro _
  simp only [free]
  decide

theorem expmat (d : Slot) : Statement (.expmat d) := by
  refine row (mop := 0xFF) (md := 0x0) (ma := 0xff) (mb := 0xff)
    ⟨"EXPMAT", 0x40000000, 0xFF00FFFF⟩ (by decide) rfl rfl (by decide) ?_
  intro _
  simp only [free]
  decide

theorem sunif (d : Slot) : Statement (.sunif d) := by
  refine row (mop := 0xFF) (md := 0x0) (ma := 0xff) (mb := 0xff)
    ⟨"SUNIF", 0x41000000, 0xFF00FFFF⟩ (by decide) rfl rfl (by decide) ?_
  intro _
  simp only [free]
  decide

theorem seta (d : Slot) : Statement (.seta d) := by
  refine row (mop := 0xFF) (md := 0x0) (ma := 0xff) (mb := 0xff)
    ⟨"SETA", 0x42000000, 0xFF00FFFF⟩ (by decide) rfl rfl (by decide) ?_
  intro _
  simp only [free]
  decide

theorem sgam1 (d : Slot) : Statement (.sgam1 d) := by
  refine row (mop := 0xFF) (md := 0x0) (ma := 0xff) (mb := 0xff)
    ⟨"SGAM1", 0x43000000, 0xFF00FFFF⟩ (by decide) rfl rfl (by decide) ?_
  intro _
  simp only [free]
  decide

theorem chal (d : Slot) : Statement (.chal d) := by
  refine row (mop := 0xFF) (md := 0x0) (ma := 0xff) (mb := 0xff)
    ⟨"CHAL", 0x50000000, 0xFF00FFFF⟩ (by decide) rfl rfl (by decide) ?_
  intro _
  simp only [free]
  decide

theorem mkhint (d a b : Slot) : Statement (.mkhint d a b) := by
  refine row (mop := 0xFF) (md := 0x0) (ma := 0x0) (mb := 0x0)
    ⟨"MKHINT", 0x60000000, 0xFF000000⟩ (by decide) rfl rfl (by decide) ?_
  intro _
  simp only [free]
  decide

theorem usehint (d a b : Slot) : Statement (.usehint d a b) := by
  refine row (mop := 0xFF) (md := 0x0) (ma := 0x0) (mb := 0x0)
    ⟨"USEHINT", 0x61000000, 0xFF000000⟩ (by decide) rfl rfl (by decide) ?_
  intro _
  simp only [free]
  decide

end Sys2Proof.Laws.TableRow
end

