-- ==== Sys2Proof/Laws/Profiles.lean ====
section
/-! SUPPORT. Where each profile of the stream machine stands after a number of stream bytes: the uniform and eta sieves,
the gamma1 bit string, the challenge's shuffle. -/

namespace Sys2Proof.Machine

variable {e : Env} {v : Variant} {m : List Byte}

/-! ## Accepted candidates -/

theorem acceptedOf_succ (accept : Nat → Bool) (cand : Nat → Nat) (n : Nat) :
    acceptedOf accept cand (n + 1) = acceptedOf accept cand n ++ if accept (cand n) then [cand n] else [] := by
  rw [acceptedOf, List.range_succ, List.map_append, List.filter_append, ← acceptedOf]
  cases h : accept (cand n) <;> simp [h]

theorem acceptedOf_length_mono (accept : Nat → Bool) (cand : Nat → Nat) {a b : Nat} (h : a ≤ b) :
    (acceptedOf accept cand a).length ≤ (acceptedOf accept cand b).length := by
  induction b, h using Nat.le_induction with
  | base => exact le_rfl
  | succ b _ ih => rw [acceptedOf_succ, List.length_append]; omega

theorem acceptedOf_length_le (accept : Nat → Bool) (cand : Nat → Nat) (n : Nat) :
    (acceptedOf accept cand n).length ≤ n := by
  simpa [acceptedOf] using List.length_filter_le accept ((List.range n).map cand)

/-- The sieve after `n` candidates, `word` the word stored for an accepted one. -/
def sieveAfter (accept : Nat → Bool) (cand : Nat → Nat) (word : Nat → Word) (n : Nat) (part : List Byte) : Sieve :=
  let a := acceptedOf accept cand n
  ⟨a.length, (a.map word).reverse, n - a.length, part⟩

theorem sieveAfter_succ (accept : Nat → Bool) (cand : Nat → Nat) (word : Nat → Word) (n : Nat) (part : List Byte) :
    (if accept (cand n) then (sieveAfter accept cand word n part).accept (word (cand n))
      else (sieveAfter accept cand word n part).reject) = sieveAfter accept cand word (n + 1) [] := by
  have hle := acceptedOf_length_le accept cand n
  simp only [sieveAfter, Sieve.accept, Sieve.reject, acceptedOf_succ]
  cases accept (cand n)
  · simp; omega
  · simp

@[simp] theorem sieveAfter_full {accept : Nat → Bool} {cand : Nat → Nat} {word : Nat → Word} {n : Nat}
    {part : List Byte} :
    (sieveAfter accept cand word n part).full = true ↔ (acceptedOf accept cand n).length = 256 := by
  simp [Sieve.full, sieveAfter]

/-! ## Uniform (R177) -/

/-- After `c` bytes the sieve has taken the `c / 3` whole candidates and holds the bytes of the next. -/
theorem uniform_afterBytes (c : Nat) :
    afterBytes e v m uniformFeed Sieve.start c =
      sieveAfter (fun t => decide (t < Q)) (uniformAt e v m) (BitVec.ofNat 32) (c / 3)
        ((List.range (c % 3)).map fun k => e.streamByte v m (3 * (c / 3) + k)) := by
  induction c with
  | zero => rfl
  | succ c ih =>
    rw [afterBytes_succ, ih]
    have hc := Nat.div_add_mod c 3
    rcases (by omega : c % 3 = 0 ∨ c % 3 = 1 ∨ c % 3 = 2) with h | h | h
    · rw [show (c + 1) / 3 = c / 3 by omega, show (c + 1) % 3 = 1 by omega, h]
      have : e.streamByte v m c = e.streamByte v m (3 * (c / 3)) := by congr 1; omega
      rw [this]; rfl
    · rw [show (c + 1) / 3 = c / 3 by omega, show (c + 1) % 3 = 2 by omega, h]
      have : e.streamByte v m c = e.streamByte v m (3 * (c / 3) + 1) := by congr 1; omega
      rw [this]; rfl
    · rw [show (c + 1) / 3 = c / 3 + 1 by omega, show (c + 1) % 3 = 0 by omega, h,
        show (c : Nat) = 3 * (c / 3) + 2 by omega]
      have hd : (3 * (c / 3) + 2) / 3 = c / 3 := by omega
      rw [hd]
      have hs := sieveAfter_succ (fun t => decide (t < Q)) (uniformAt e v m) (BitVec.ofNat 32) (c / 3)
        ((List.range 2).map fun k => e.streamByte v m (3 * (c / 3) + k))
      refine Eq.trans ?_ hs
      simp only [uniformFeed, sieveAfter, List.range_succ, List.range_zero, List.map_nil,
        List.map_cons, List.nil_append, List.cons_append, Nat.add_zero, decide_eq_true_eq]
      rfl

theorem uniform_goes_on {n : Nat} (h : (acceptedOf (fun t => decide (t < Q)) (uniformAt e v m) (n / 3)).length < 256)
    {c : Nat} (hc : c ≤ n) : (afterBytes e v m uniformFeed Sieve.start c).full = false := by
  rw [uniform_afterBytes, ← Bool.not_eq_true, sieveAfter_full]
  have := acceptedOf_length_mono (fun t => decide (t < Q)) (uniformAt e v m) (Nat.div_le_div_right (c := 3) hc)
  omega

/-- Where some number of candidates holds 256 accepted ones, the sieve is full after some number of bytes. -/
theorem exists_length_eq {accept : Nat → Bool} {cand : Nat → Nat} {n : Nat}
    (h : 256 ≤ (acceptedOf accept cand n).length) : ∃ n', (acceptedOf accept cand n').length = 256 := by
  induction n with
  | zero => simp [acceptedOf] at h
  | succ n ih =>
    rcases Nat.lt_or_ge (acceptedOf accept cand n).length 256 with hlt | hge
    · refine ⟨n + 1, ?_⟩
      have : (if accept (cand n) then [cand n] else []).length ≤ 1 := by split <;> simp
      rw [acceptedOf_succ, List.length_append] at h ⊢
      omega
    · exact ih hge

/-! ## Eta (R179) -/

theorem etaNibble_sieveAfter {eta n : Nat} :
    etaNibble eta (sieveAfter (fun v => decide (v ≤ 2 * eta)) (nibbleAt e m)
      (fun v => BitVec.ofNat 32 (Q + eta - v)) n []) (nibbleAt e m n) =
    sieveAfter (fun v => decide (v ≤ 2 * eta)) (nibbleAt e m) (fun v => BitVec.ofNat 32 (Q + eta - v)) (n + 1) [] := by
  rw [← sieveAfter_succ (part := []), etaNibble]
  simp only [decide_eq_true_eq]

theorem nibbleAt_low (c : Nat) : nibbleAt e m (2 * c) = (e.streamByte .v256 m c).toNat % 16 := by
  rw [nibbleAt, if_pos (by omega), show 2 * c / 2 = c by omega]

theorem nibbleAt_high (c : Nat) : nibbleAt e m (2 * c + 1) = (e.streamByte .v256 m c).toNat / 16 := by
  rw [nibbleAt, if_neg (by omega), show (2 * c + 1) / 2 = c by omega]

/-- One byte of the eta profile on a sieve that has taken `2·c` nibbles: the low nibble, and the high one unless the low
one filled the slot. -/
theorem etaFeed_sieveAfter {eta c : Nat} :
    etaFeed eta (sieveAfter (fun v => decide (v ≤ 2 * eta)) (nibbleAt e m)
      (fun v => BitVec.ofNat 32 (Q + eta - v)) (2 * c) []) (e.streamByte .v256 m c) =
    sieveAfter (fun v => decide (v ≤ 2 * eta)) (nibbleAt e m) (fun v => BitVec.ofNat 32 (Q + eta - v))
      (if (acceptedOf (fun v => decide (v ≤ 2 * eta)) (nibbleAt e m) (2 * c + 1)).length = 256 then 2 * c + 1
        else 2 * c + 2) [] := by
  unfold etaFeed
  rw [← nibbleAt_low, ← nibbleAt_high, etaNibble_sieveAfter]
  dsimp only
  rw [etaNibble_sieveAfter]
  by_cases h : (acceptedOf (fun v => decide (v ≤ 2 * eta)) (nibbleAt e m) (2 * c + 1)).length = 256
  · rw [if_pos h, if_pos (sieveAfter_full.2 h)]
  · rw [if_neg h, if_neg (fun hf => h (sieveAfter_full.1 hf))]

/-- As long as the nibbles before do not fill the slot, `c` bytes are `2·c` nibbles. -/
theorem eta_afterBytes {eta c : Nat}
    (h : (acceptedOf (fun v => decide (v ≤ 2 * eta)) (nibbleAt e m) (2 * c)).length < 256) :
    afterBytes e .v256 m (etaFeed eta) Sieve.start c =
      sieveAfter (fun v => decide (v ≤ 2 * eta)) (nibbleAt e m) (fun v => BitVec.ofNat 32 (Q + eta - v)) (2 * c) [] := by
  induction c with
  | zero => rfl
  | succ c ih =>
    have hm := acceptedOf_length_mono (fun v => decide (v ≤ 2 * eta)) (nibbleAt e m) (show 2 * c ≤ 2 * (c + 1) by omega)
    have hm' := acceptedOf_length_mono (fun v => decide (v ≤ 2 * eta)) (nibbleAt e m)
      (show 2 * c + 1 ≤ 2 * (c + 1) by omega)
    rw [afterBytes_succ, ih (by omega), etaFeed_sieveAfter, if_neg (by omega)]
    rfl

theorem eta_goes_on {eta n : Nat}
    (h : (acceptedOf (fun v => decide (v ≤ 2 * eta)) (nibbleAt e m) (2 * n)).length < 256) {c : Nat} (hc : c ≤ n) :
    (afterBytes e .v256 m (etaFeed eta) Sieve.start c).full = false := by
  have := acceptedOf_length_mono (fun v => decide (v ≤ 2 * eta)) (nibbleAt e m) (show 2 * c ≤ 2 * n by omega)
  rw [eta_afterBytes (by omega), ← Bool.not_eq_true, sieveAfter_full]
  omega

/-! ## Gamma1 (R182) -/

theorem gamma1_afterBytes (c : Nat) : (afterBytes e v m BitString.feed ⟨0, 0⟩ c).len = c := by
  induction c with
  | zero => rfl
  | succ c ih => rw [afterBytes_succ]; simp [BitString.feed, ih]

/-- SGAM1's session ends, whatever the limit (R183, R185). -/
theorem gamma1Sample_ends (e : Env) (m : List Byte) : gamma1Sample e m ≠ .unending := by
  intro h
  have := (openSession_unending.1 (Ended.map_eq_unending.1 h)).2.2 (32 * e.params.ybits)
  simp [gamma1_afterBytes] at this

/-! ## The challenge's shuffle (R201) -/

/-- The 64-bit sign field: the first `c` bytes of the stream, least significant first. -/
def signField (e : Env) (m : List Byte) (c : Nat) : Nat :=
  ∑ n ∈ Finset.range c, (e.streamByte .v256 m n).toNat * 2 ^ (8 * n)

/-- The words of the shuffle after `j` steps, step i done at the byte before `at' (i + 1)`. -/
def shuffleWords (e : Env) (m : List Byte) (at' : Nat → Nat) (j : Nat) : List Word :=
  (List.range j).foldl
    (fun c i =>
      let b := (e.streamByte .v256 m (at' (i + 1) - 1)).toNat
      (c.set (shuffleIndex e.params i) (c.getD b 0)).set b (unitOf (signField e m 8 / 2 ^ i)))
    (List.replicate 256 0)

theorem shuffleWords_succ (at' : Nat → Nat) (j : Nat) :
    shuffleWords e m at' (j + 1) =
      ((shuffleWords e m at' j).set (shuffleIndex e.params j)
        ((shuffleWords e m at' j).getD (e.streamByte .v256 m (at' (j + 1) - 1)).toNat 0)).set
          (e.streamByte .v256 m (at' (j + 1) - 1)).toNat (unitOf (signField e m 8 / 2 ^ j)) := by
  rw [shuffleWords, List.range_succ, List.foldl_append]
  rfl

theorem shuffle_header {c : Nat} (hc : c ≤ 8) :
    afterBytes e .v256 m Shuffle.feed (Shuffle.start e.params) c =
      ⟨c, signField e m c, List.replicate 256 0, 256 - e.params.tau, 0⟩ := by
  induction c with
  | zero => rfl
  | succ c ih =>
    rw [afterBytes_succ, ih (by omega)]
    simp only [Shuffle.feed, if_pos (show c < 8 by omega), signField, Finset.sum_range_succ]

/-- Bytes above the index are counted and change nothing else. -/
theorem shuffle_resamples {c d : Nat} {x : Shuffle} (hx : x.header = 8) (hcd : c ≤ d)
    (h0 : afterBytes e .v256 m Shuffle.feed (Shuffle.start e.params) c = x)
    (h : ∀ n, c ≤ n → n < d → x.i < (e.streamByte .v256 m n).toNat) :
    afterBytes e .v256 m Shuffle.feed (Shuffle.start e.params) d = { x with rej := x.rej + (d - c) } := by
  induction d, hcd using Nat.le_induction with
  | base => rw [h0]; simp
  | succ d hd ih =>
    rw [afterBytes_succ, ih (fun n hn hn' => h n hn (by omega))]
    simp only [Shuffle.feed, hx, if_neg (show ¬ 8 < 8 by omega), if_pos (h d hd (Nat.lt_succ_self d))]
    congr 1
    omega

theorem StepsRead.of_le {at' : Nat → Nat} {j j' : Nat} (h : StepsRead e m at' j) (hj : j' ≤ j) :
    StepsRead e m at' j' := ⟨h.1, fun i hi => h.2 i (by omega)⟩

theorem StepsRead.ge {at' : Nat → Nat} {j : Nat} (h : StepsRead e m at' j) : 8 + j ≤ at' j := by
  induction j with
  | zero => exact h.1.ge
  | succ j ih =>
    have := ih (h.of_le (Nat.le_succ j))
    have := (h.2 j (Nat.lt_succ_self j)).1
    omega

/-- Where the shuffle stands after its first `j` steps. -/
theorem shuffle_afterBytes {at' : Nat → Nat} {j : Nat} (h : StepsRead e m at' j) :
    afterBytes e .v256 m Shuffle.feed (Shuffle.start e.params) (at' j) =
      ⟨8, signField e m 8 / 2 ^ j, shuffleWords e m at' j, shuffleIndex e.params j, at' j - 8 - j⟩ := by
  induction j with
  | zero => rw [h.1, shuffle_header le_rfl, pow_zero, Nat.div_one]; rfl
  | succ j ih =>
    have hj := h.of_le (Nat.le_succ j)
    have hge := hj.ge
    obtain ⟨hlt, hup, hdown⟩ := h.2 j (Nat.lt_succ_self j)
    have hre := shuffle_resamples (d := at' (j + 1) - 1) rfl (by omega) (ih hj)
      (fun n hn hn' => hup n hn (by omega))
    have hs := afterBytes_succ (e := e) (v := .v256) (m := m) (feed := Shuffle.feed)
      (Shuffle.start e.params) (at' (j + 1) - 1)
    rw [show at' (j + 1) - 1 + 1 = at' (j + 1) by omega, hre] at hs
    rw [hs]
    simp only [Shuffle.feed, if_neg (show ¬ 8 < 8 by omega), if_neg (show ¬ _ < _ from Nat.not_lt.2 hdown)]
    congr 1
    · rw [Nat.div_div_eq_div_mul, ← Nat.pow_succ]
    · exact (shuffleWords_succ at' j).symm
    · omega

theorem shuffleIndex_lt {p : Params} {j : Nat} (hp : p.tau ≤ 256) (hj : j < p.tau) : shuffleIndex p j < 256 := by
  unfold shuffleIndex; omega

/-- While a step waits for a byte not above its index, and before it, the shuffle is not finished. -/
theorem shuffle_goes_on {at' : Nat → Nat} {j n : Nat} (hp : e.params.tau ≤ 256) (hj : j < e.params.tau)
    (h : StepsRead e m at' j) (hw : ∀ k, at' j ≤ k → k < n → shuffleIndex e.params j < (e.streamByte .v256 m k).toNat)
    {c : Nat} (hc : c ≤ max n (at' j)) :
    (afterBytes e .v256 m Shuffle.feed (Shuffle.start e.params) c).over = false := by
  rcases Nat.lt_or_ge c 8 with h8 | h8
  · rw [shuffle_header h8.le]; simp [Shuffle.over]; omega
  · -- the step that waits at byte c
    have : ∃ i, i ≤ j ∧ at' i ≤ c ∧ ∀ k, at' i ≤ k → k < c →
        shuffleIndex e.params i < (e.streamByte .v256 m k).toNat := by
      rcases Nat.lt_or_ge c (at' j) with hlt | hge
      · have : ∃ i, i < j ∧ at' i ≤ c ∧ c < at' (i + 1) := by
          clear hw hc
          induction j with
          | zero => rw [h.1] at hlt; omega
          | succ j ih =>
            rcases Nat.lt_or_ge c (at' j) with hlt' | hge'
            · obtain ⟨i, hi, hi'⟩ := ih (by omega) (h.of_le (Nat.le_succ j)) hlt'
              exact ⟨i, by omega, hi'⟩
            · exact ⟨j, Nat.lt_succ_self j, hge', hlt⟩
        obtain ⟨i, hi, h1, h2⟩ := this
        exact ⟨i, hi.le, h1, fun k hk hk' => (h.2 i hi).2.1 k hk (by omega)⟩
      · exact ⟨j, le_rfl, hge, fun k hk hk' => hw k hk (by omega)⟩
    obtain ⟨i, hi, h1, h2⟩ := this
    rw [shuffle_resamples rfl h1 (shuffle_afterBytes (h.of_le hi)) h2]
    have := shuffleIndex_lt hp (show i < e.params.tau by omega)
    simp [Shuffle.over]; omega

/-- A stream lets the shuffle take its first `j` steps, or leaves one of them waiting for ever. -/
theorem stepsRead_or_waits (e : Env) (m : List Byte) (j : Nat) :
    (∃ at', StepsRead e m at' j) ∨ ∃ i < j, ∃ at', StepsRead e m at' i ∧
      ∀ n, at' i ≤ n → shuffleIndex e.params i < (e.streamByte .v256 m n).toNat := by
  induction j with
  | zero => exact .inl ⟨fun _ => 8, rfl, fun i hi => absurd hi (Nat.not_lt_zero i)⟩
  | succ j ih =>
    rcases ih with ⟨at', h⟩ | ⟨i, hi, w⟩
    · by_cases hw : ∀ n, at' j ≤ n → shuffleIndex e.params j < (e.streamByte .v256 m n).toNat
      · exact .inr ⟨j, Nat.lt_succ_self j, at', h, hw⟩
      · push Not at hw
        have hex : ∃ n, at' j ≤ n ∧ (e.streamByte .v256 m n).toNat ≤ shuffleIndex e.params j := hw
        classical
        obtain ⟨hn, hle⟩ := Nat.find_spec hex
        have hmin : ∀ k, at' j ≤ k → k < Nat.find hex → shuffleIndex e.params j < (e.streamByte .v256 m k).toNat := by
          intro k hk hk'
          by_contra hc
          exact Nat.find_min hex hk' ⟨hk, Nat.not_lt.1 hc⟩
        refine .inl ⟨fun i => if i ≤ j then at' i else Nat.find hex + 1, ?_, ?_⟩
        · simpa using h.1
        · intro i hi
          rcases Nat.lt_or_ge i j with hij | hij
          · simpa [show i ≤ j by omega, show i + 1 ≤ j by omega] using h.2 i hij
          · obtain rfl : i = j := by omega
            simp only [le_refl, if_true, show ¬ i + 1 ≤ i by omega, if_false, Nat.add_sub_cancel]
            exact ⟨by omega, fun n h1 h2 => hmin n h1 (by omega), hle⟩
    · exact .inr ⟨i, by omega, w⟩

end Sys2Proof.Machine
end

