-- ==== Sys2Proof/Tests/Slice0.lean ====
section
/-! SUPPORT. The model's own tests. Expected values come from spec/: the vectors of 95_test_vectors.md (named by their
number) and the examples of the rules. Then, for every statement with hypotheses, states and operands that meet them, at
the boundary values of its clauses. -/

namespace Sys2Proof.Tests

open Sys2Proof.Machine

set_option Elab.async false

/-! ## Helpers -/

/-- The outcome is a next state with the property. -/
def after (o : Host.Outcome State Fault Refusal) (p : State → Bool) : Bool :=
  match o with
  | .next t => p t
  | .fault _ => false
  | .refused _ => false

/-- The outcome is this refusal. -/
def refuses (o : Host.Outcome State Fault Refusal) (r : Refusal) : Bool :=
  match o with
  | .next _ => false
  | .fault _ => false
  | .refused r' => r' == r

/-- The reset state with some tags set. -/
def tagged (l : List (Nat × Tag)) : State := l.foldl (fun s x => s.setTag x.1 x.2) State.reset

/-- A state with words written to slots: (slot, index, word). -/
def poke (s : State) (l : List (Nat × Nat × Word)) : State := l.foldl (fun s x => s.setWord x.1 x.2.1 x.2.2) s

/-- The reset state with one host operation pending. -/
def withOp (op : HostOp) : State := { State.reset with pending := [op] }

/-- A command faulted with this code, and counted nothing. -/
def faults (i : Instr) (s : State) (code : BitVec 4) : Bool :=
  after (exec i s) fun t => t.fault && t.fcode == code && t.finfo == encode i && t.cmdcnt == s.cmdcnt

/-- Listed answers: `blocks` blocks of the stream whose byte n is `f n`. -/
def toy (v : Variant) (m : List Byte) (blocks : Nat) (f : Nat → Nat) : List XofReply :=
  (List.range blocks).map fun b =>
    ⟨v, m, b, some ((List.range v.rate).map fun i => BitVec.ofNat 8 (f (b * v.rate + i)))⟩

/-- A byte pattern repeated. -/
def pat (l : List Nat) (n : Nat) : Nat := l.getD (n % l.length) 0

/-- The reset state with listed answers of the XOF collaborator. -/
def withXof (r : List XofReply) : State := { State.reset with env := { envT0 with replies := r } }

/-- The reset state with a block limit. -/
def withLimit (n : Nat) : State := { State.reset with env := { envT0 with sqzLimit := .blocks n } }

/-- A next state with the property is there. -/
theorem next_of_after {o : Host.Outcome State Fault Refusal} {p : State → Bool} (h : after o p = true) :
    ∃ t, o = .next t ∧ p t = true := by
  unfold after at h
  split at h
  · exact ⟨_, rfl, h⟩
  · cases h
  · cases h

/-- The session committed. -/
def committed {α : Type} (r : Ended α) : Bool :=
  match r with
  | .done _ => true
  | .aborted _ => false
  | .unending => false

theorem done_of_committed {α : Type} {r : Ended α} (h : committed r = true) : ∃ x, r = .done x := by
  cases r with
  | done x => exact ⟨x, rfl⟩
  | aborted c => cases h
  | unending => cases h

/-- Under a limit the collaborator serves what its blocks within the limit hold, if none of them fails. -/
theorem serves_of_blocks {e : Env} {v : Variant} {m : List Byte} {bytes n : Nat} (hl : e.sqzLimit = .blocks n)
    (hb : blocksFor v bytes ≤ n) (hf : ∀ k < blocksFor v bytes, e.squeezeFails v m k = false) :
    Serves e v m bytes := by
  intro k hk
  refine ⟨fun n' hn => ?_, hf k hk⟩
  rw [hl] at hn
  cases hn
  omega

/-! ## Well-formedness and decoding -/

/-- R93: the one ill-formed shape, a SETTAG with a code of 3 or more, is refused; 2 is the last code accepted. -/
theorem test_settag_code_refused :
    (Instr.settag 9 3).wellFormed = false ∧ (Instr.settag 9 255).wellFormed = false ∧
      (Instr.settag 9 2).wellFormed = true := by decide

/-- R95, R98, bit by bit: op, d, a, b. -/
theorem test_decode_system :
    decode 0b00000000_00000000_00000000_00000000 = .ok .nop ∧
    decode 0b00000001_00001001_00000000_00000001 = .ok (.settag 9 1) := by decide

theorem test_decode_ring :
    decode 0b00010000_00000100_00000011_00000000 = .ok (.ntt 4 3) ∧
    decode 0b00010001_00000110_00000101_00000000 = .ok (.invntt 6 5) ∧
    decode 0b00010010_00001001_00000100_00000101 = .ok (.pwmul 9 4 5) ∧
    decode 0b00010011_00000001_00000010_00000011 = .ok (.add 1 2 3) ∧
    decode 0b00010100_00000001_00000010_00000011 = .ok (.sub 1 2 3) ∧
    decode 0b00010101_00000010_00000001_00000000 = .ok (.reduce 2 1) ∧
    decode 0b00010110_00000010_00000001_00000000 = .ok (.csubq 2 1) ∧
    decode 0b00010111_00000010_00000001_00000000 = .ok (.freeze 2 1) ∧
    decode 0b00011000_00000010_00000001_00000000 = .ok (.shld 2 1) := by decide

theorem test_decode_rounding :
    decode 0b00100000_00001010_00001000_00001011 = .ok (.p2r 10 8 11) ∧
    decode 0b00100001_00011011_00011010_00011100 = .ok (.decomp 27 26 28) ∧
    decode 0b00100010_00000000_00000111_00000000 = .ok (.chknorm 7) := by decide

theorem test_decode_vector_and_matrix :
    decode 0b00110000_00011110_00001010_00010100 = .ok (.pwacc 30 10 20) ∧
    decode 0b01000000_11110000_00000000_00000000 = .ok (.expmat 240) := by decide

theorem test_decode_samplers :
    decode 0b01000001_00000111_00000000_00000000 = .ok (.sunif 7) ∧
    decode 0b01000010_00001000_00000000_00000000 = .ok (.seta 8) ∧
    decode 0b01000011_00001001_00000000_00000000 = .ok (.sgam1 9) ∧
    decode 0b01010000_01000110_00000000_00000000 = .ok (.chal 70) := by decide

theorem test_decode_hint :
    decode 0b01100000_00000100_00000001_00000010 = .ok (.mkhint 4 1 2) ∧
    decode 0b01100001_00000101_00000011_00000100 = .ok (.usehint 5 3 4) := by decide

/-- Vectors 2.7-5, 2.8-1 to 2.8-5: illegal words, by reason. -/
theorem test_decode_illegal :
    decode 0x01090003 = .error .badTagCode ∧ decode 0x10040301 = .error .unusedFieldNonzero ∧
    decode 0x02000000 = .error .unassignedOpcode ∧ decode 0x22010500 = .error .unusedFieldNonzero ∧
    decode 0x40200100 = .error .unusedFieldNonzero ∧ decode 0xFFFFFFFF = .error .unassignedOpcode := by decide

theorem test_decodeTableWord :
    decodeTableWord 32 0x301E0A14 = some (.pwacc 30 10 20) ∧ decodeTableWord 32 0x02000000 = none := by decide

/-! ## Commands -/

/-- Vector 2.7-1, as a step. -/
theorem test_nop_counts :
    after (step (State.reset.withFetchWord 32 0)) (fun t => t.cmdcnt == 1 && !t.fault && t.pending == []) = true := by
  decide +kernel

/-- Vectors 2.7-2 and 2.7-4. -/
theorem test_settag :
    after (step (State.reset.withFetchWord 32 0x01090001)) (fun t => t.tag 9 == .std && t.cmdcnt == 1) = true ∧
    after (exec (.settag 9 0) (tagged [(9, .ntt)])) (fun t => t.tag 9 == .none) = true := by
  decide +kernel

/-- Vector 2.7-5, as a step: `F_ILLEGAL`. -/
theorem test_settag_illegal :
    after (step (State.reset.withFetchWord 32 0x01090003))
      (fun t => t.fault && t.fcode == 1 && t.finfo == 0x01090003 && t.cmdcnt == 0 && t.tag 9 == .none) = true := by
  decide +kernel

/-- Program 4: NTT of (5, 0, ..., 0). -/
theorem test_ntt :
    after (exec (.ntt 2 1) (poke (tagged [(1, .std)]) [(1, 0, 5)])) (fun t =>
      t.word 2 0 == 5 && t.word 2 1 == 16760839 && t.word 2 2 == 25141256 && t.tag 2 == .ntt) = true := by
  decide +kernel

/-- Vectors 2.8-16 to 2.8-18. -/
theorem test_domain_faults :
    faults (.ntt 2 1) (tagged [(1, .ntt)]) 3 = true ∧ faults (.invntt 2 1) (tagged [(1, .std)]) 3 = true ∧
    faults (.pwmul 3 2 1) (tagged [(2, .ntt), (1, .std)]) 3 = true := by
  decide +kernel

/-- Vector 2.2-18: INVNTT of the all-ones slot. -/
theorem test_invntt :
    after (exec (.invntt 2 1) ((tagged []).setSlot 1 (Vector.replicate 256 1) .ntt)) (fun t =>
      t.word 2 0 == 4193792 && t.word 2 1 == 8380417 && t.word 2 255 == 8380417 && t.tag 2 == .std) = true := by
  decide +kernel

/-- Vectors 2.2-11 to 2.2-13, and `mr((2^32-1)^2) = 8265823` of R116. -/
theorem test_pwmul :
    after (exec (.pwmul 3 1 2) (poke (tagged [(1, .ntt), (2, .ntt)])
        [(1, 0, 4193792), (2, 0, 5), (1, 1, 3), (2, 1, 5), (1, 2, 8380416), (2, 2, 8380416),
          (1, 3, 0xFFFFFFFF), (2, 3, 0xFFFFFFFF)])) (fun t =>
      t.word 3 0 == 5 && t.word 3 1 == 6661537 && t.word 3 2 == 8265825 && t.word 3 3 == 8265823 &&
        t.tag 3 == .ntt) = true := by
  decide +kernel

/-- Vectors 2.2-1, 2.2-2, the destination one of the sources. -/
theorem test_add :
    after (exec (.add 2 1 2) (poke (tagged [(1, .std), (2, .std)])
        [(1, 0, 8380416), (2, 0, 5), (1, 1, 4294967295), (2, 1, 2)])) (fun t =>
      t.word 2 0 == 8380421 && t.word 2 1 == 1 && t.tag 2 == .std) = true := by
  decide +kernel

/-- Vectors 2.8-9 to 2.8-11. -/
theorem test_add_faults :
    faults (.add 1 2 3) State.reset 2 = true ∧ faults (.add 1 2 3) (tagged [(2, .std), (3, .ntt)]) 3 = true ∧
    faults (.add 1 2 3) (tagged [(2, .std)]) 2 = true := by
  decide +kernel

/-- Vectors 2.2-3, 2.2-4. -/
theorem test_sub :
    after (exec (.sub 3 1 2) (poke (tagged [(1, .ntt), (2, .ntt)]) [(1, 0, 5), (2, 0, 7), (2, 1, 16760835)]))
      (fun t => t.word 3 0 == 16760832 && t.word 3 1 == 4294967295 && t.tag 3 == .ntt) = true := by
  decide +kernel

/-- Vector 2.2-5, `reduce32(2^32-1)` of 2.1. -/
theorem test_reduce :
    after (exec (.reduce 2 1) (poke (tagged [(1, .ntt)]) [(1, 0, 75423754), (1, 1, 4294967295)]))
      (fun t => t.word 2 0 == 8380418 && t.word 2 1 == 12574208 && t.tag 2 == .ntt) = true := by
  decide +kernel

/-- Vector 2.2-6, and the two edges of `csubq` of 2.1. -/
theorem test_csubq :
    after (exec (.csubq 1 1) (poke (tagged [(1, .std)]) [(1, 0, 75423754), (1, 1, 2155864064), (1, 2, 2155864065)]))
      (fun t => t.word 1 0 == 67043337 && t.word 1 1 == 2147483647 && t.word 1 2 == 2155864065) = true := by
  decide +kernel

/-- Vector 2.2-7, `freeze(2^32-1)` and `freeze(2Q)` of 2.1. -/
theorem test_freeze :
    after (exec (.freeze 2 1) (poke (tagged [(1, .std)]) [(1, 0, 75423754), (1, 1, 4294967295), (1, 2, 16760834)]))
      (fun t => t.word 2 0 == 1 && t.word 2 1 == 4193791 && t.word 2 2 == 0 && t.tag 2 == .std) = true := by
  decide +kernel

/-- Vectors 2.2-8, 2.2-10. -/
theorem test_shld :
    after (exec (.shld 2 1) (poke (tagged [(1, .std)]) [(1, 0, 511), (1, 1, 262145)]))
      (fun t => t.word 2 0 == 8372224 && t.word 2 1 == 16384) = true := by
  decide +kernel

/-- Vector 2.3-1: both sides of the tie, and the last canonical word; the source is the low destination. -/
theorem test_p2r :
    after (exec (.p2r 3 1 1) (poke (tagged [(1, .std)]) [(1, 0, 8192), (1, 1, 8193), (1, 2, 8380416)]))
      (fun t => t.word 3 0 == 0 && t.word 1 0 == 8388609 && t.word 3 1 == 1 && t.word 1 1 == 8372226 &&
        t.word 3 2 == 511 && t.word 1 2 == 8388609 && t.word 1 3 == 8380417) = true := by
  decide +kernel

/-- Vectors 2.8-6 to 2.8-8. -/
theorem test_p2r_faults :
    faults (.p2r 5 9 5) State.reset 4 = true ∧ faults (.p2r 5 9 6) State.reset 2 = true ∧
    faults (.p2r 5 9 6) (tagged [(9, .ntt)]) 3 = true := by
  decide +kernel

/-- Vector 2.3-2: the tie, one more, the bottom of the top band, its top, a word that is not canonical. -/
theorem test_decomp :
    after (exec (.decomp 3 1 2) (poke (tagged [(1, .std)])
        [(1, 0, 261888), (1, 1, 261889), (1, 2, 8118529), (1, 3, 8380416), (1, 4, 8642306)]))
      (fun t => t.word 3 0 == 0 && t.word 2 0 == 8642305 && t.word 3 1 == 1 && t.word 2 1 == 8118530 &&
        t.word 3 2 == 0 && t.word 2 2 == 8118529 && t.word 3 3 == 0 && t.word 2 3 == 8380416 &&
        t.word 3 4 == 17 && t.word 2 4 == 8118531) = true := by
  decide +kernel

/-- Vector 2.3-3: v = BOUND sets the flags, one less does not; `REJ` stays. -/
theorem test_chknorm :
    after (exec (.chknorm 1) { poke (tagged [(1, .std)]) [(1, 0, 8380415)] with bound := 2 })
      (fun t => t.norm && t.rej && t.status == 6) = true ∧
    after (exec (.chknorm 1) { poke (tagged [(1, .std)]) [(1, 0, 8380416)] with bound := 2, rej := true })
      (fun t => !t.norm && t.rej && t.status == 2) = true := by
  decide +kernel

/-- Vector 2.4-1, on one word. -/
theorem test_pwacc :
    after (exec (.pwacc 30 10 20) (poke
        (tagged [(10, .ntt), (11, .ntt), (12, .ntt), (13, .ntt), (20, .ntt), (21, .ntt), (22, .ntt), (23, .ntt)])
        [(10, 7, 4193792), (11, 7, 4193792), (12, 7, 4193792), (13, 7, 4193792), (20, 7, 1), (21, 7, 2), (22, 7, 3),
          (23, 7, 4)])) (fun t => t.word 30 7 == 10 && t.tag 30 == .ntt) = true := by
  decide +kernel

/-- Vectors 2.4-3, 2.4-4: the run that ends at slot 255, and the one that passes it. -/
theorem test_pwacc_run_end :
    faults (.pwacc 30 252 20) State.reset 2 = true ∧ faults (.pwacc 30 253 20) State.reset 4 = true := by
  decide +kernel

/-- Vectors 2.8-13, 2.8-14. -/
theorem test_expmat_faults :
    faults (.expmat 240) { State.reset with alen := 2047 } 4 = true ∧
    faults (.expmat 236) { State.reset with alen := 2047 } 5 = true := by
  decide +kernel

/-- The stream `01 00 00` repeated for the absorbed string `00 00`, five blocks (section 2.5). -/
def ones : State := withXof (toy .v128 [0, 0] 5 (pat [1, 0, 0]))

/-- The same stream for a block with one matrix entry. -/
def onesOneEntry : State :=
  { ones with env := { ones.env with params := { paramsT0 with k := 1, l := 1 } } }

/-- R161 with the stream of section 2.5, one entry: every word 1, tagged `NTT`, 5 blocks, `NONCE` not touched. -/
theorem test_expmat :
    after (exec (.expmat 255) onesOneEntry) (fun t =>
      !t.fault && t.word 255 0 == 1 && t.word 255 255 == 1 && t.sqzcnt == 5 && t.rejcnt == 0 && t.nonce == 0 &&
        t.tag 255 == .ntt) = true := by
  decide +kernel

/-- Vector 2.5-1. -/
theorem test_sunif :
    after (exec (.sunif 7) ones) (fun t =>
      !t.fault && t.word 7 0 == 1 && t.word 7 255 == 1 && t.sqzcnt == 5 && t.rejcnt == 0 && t.nonce == 1 && t.cmdcnt == 1 &&
        t.tag 7 == .ntt) = true := by
  decide +kernel

/-- Vector 2.5-6a: the limit is tested before any squeeze. -/
theorem test_sunif_limit :
    after (exec (.sunif 7) (withLimit 0)) (fun t =>
      t.fault && t.fcode == 7 && t.finfo == 0x41070000 && t.tag 7 == .none && t.nonce == 0 && t.cmdcnt == 0) = true := by
  decide +kernel

/-- The stream `FF` repeated, three blocks of it, and then a failing one (vector 2.5-9b without its limit). -/
def full : State := withXof (toy .v256 [] 3 (pat [0xFF]) ++ [⟨.v256, [], 3, none⟩] ++ toy .v128 [] 1 (pat [0xFF]) ++
  [⟨.v128, [], 1, none⟩])

/-- Vectors 2.5-8d and 2.5-9b: the limit after blocks that were served; and a block that fails at the limit. -/
theorem test_limit_after_blocks :
    after (exec (.sgam1 9) { withLimit 4 with env := { envT0 with sqzLimit := .blocks 4, replies := toy .v256 [0, 0] 4 (pat [0]) } })
      (fun t => t.fault && t.fcode == 7 && t.finfo == 0x43090000 && t.nonce == 0) = true ∧
    after (exec (.chal 70) { full with env := { full.env with sqzLimit := .blocks 3 } })
      (fun t => t.fault && t.fcode == 7 && t.finfo == 0x50460000 && t.tag 70 == .none) = true ∧
    after (exec (.chal 70) full) (fun t => t.fault && t.fcode == 8) = true := by
  decide +kernel

/-- Vector 2.5-7. -/
theorem test_seta :
    after (exec (.seta 8) (withXof (toy .v256 [0, 0] 1 (pat [0xA3])))) (fun t =>
      t.word 8 0 == 8380419 && t.word 8 1 == 8380412 && t.word 8 255 == 8380412 && t.sqzcnt == 1 && t.rejcnt == 0 &&
        t.nonce == 1 && t.tag 8 == .std) = true := by
  decide +kernel

/-- Vector 2.8-12 and the nonce latch of 2.5. -/
theorem test_seta_faults :
    faults (.seta 1) { State.reset with alen := 1025, novf := true } 5 = true ∧
    faults (.seta 1) { State.reset with alen := 1024, novf := true } 6 = true := by
  decide +kernel

/-- Vector 2.5-8c, on the nonce 0xFFFF, which wraps. -/
theorem test_sgam1 :
    after (exec (.sgam1 9) { withXof (toy .v256 [0xFF, 0xFF] 5 (pat [0x12, 0x34, 0x56, 0x78, 0x9A])) with
        nonce := 0xFFFF }) (fun t =>
      t.word 9 254 == 8498159 && t.word 9 255 == 8271996 && t.sqzcnt == 5 && t.rejcnt == 0 && t.nonce == 0 && t.novf &&
        t.status == 8) = true := by
  decide +kernel

/-- Vector 2.5-9. -/
theorem test_chal :
    after (exec (.chal 70) (withXof (toy .v256 [] 1 (fun n =>
        ([5, 0, 0, 0, 0, 0, 0, 0, 0xC8, 3, 0xC5, 3] ++ (List.range 57).map (· + 199)).getD n 0)))) (fun t =>
      t.word 70 3 == 8380416 && t.word 70 196 == 0 && t.word 70 197 == 1 && t.word 70 198 == 8380416 &&
        t.word 70 255 == 1 && t.sqzcnt == 1 && t.rejcnt == 1 && t.nonce == 0) = true := by
  decide +kernel

/-- Vector 2.6-1. -/
theorem test_mkhint :
    after (exec (.mkhint 4 1 2) (poke (tagged [(1, .std), (2, .std)])
        [(1, 0, 261888), (2, 0, 3), (1, 1, 261889), (2, 1, 3), (1, 2, 8118529), (2, 2, 3), (1, 3, 8118529),
          (1, 4, 8118530), (2, 4, 3)])) (fun t =>
      t.word 4 0 == 0 && t.word 4 1 == 1 && t.word 4 2 == 1 && t.word 4 3 == 0 && t.word 4 4 == 0 &&
        t.hintcnt == 2 && t.tag 4 == .std) = true := by
  decide +kernel

/-- Vector 2.6-2. -/
theorem test_usehint :
    after (exec (.usehint 5 3 4) (poke (tagged [(3, .std), (4, .std)])
        [(3, 0, 1000000), (3, 1, 1000000), (4, 1, 7), (4, 2, 1), (3, 3, 8118528), (4, 3, 1)])) (fun t =>
      t.word 5 0 == 2 && t.word 5 1 == 1 && t.word 5 2 == 15 && t.word 5 3 == 0) = true := by
  decide +kernel

/-! ## The bus (section 2.9) and reset -/

/-- What a read gives the host. -/
def reads (addr : BitVec 19) (v : Word) : Bool :=
  after (step (withOp (.read addr 4))) fun t => t.reads == [v]

theorem test_bus_reads :
    reads 0x00000 0x4E54544D = true ∧ reads 0x00004 1 = true ∧ reads 0x00044 0x00000504 = true ∧
    reads 0x0005C 65535 = true ∧ reads 0x0000C 0 = true ∧ reads 0x00010 0 = true ∧ reads 0x7FFFC 0 = true := by
  decide +kernel

theorem test_bus_writes :
    after (step (withOp (.write 0x00018 4 0xFFFFFFFF))) (fun t => t.alen == 2047) = true ∧
    after (step (withOp (.write 0x0001C 4 0x12345))) (fun t => t.nonce == 0x2345) = true ∧
    after (step (withOp (.write 0x00400 4 0xDDCCBBAA)))
      (fun t => t.abuf 0 == 0xAA && t.abuf 1 == 0xBB && t.abuf 2 == 0xCC && t.abuf 3 == 0xDD && t.abuf 4 == 0) = true ∧
    after (step (withOp (.write 0x40404 4 7))) (fun t => t.word 1 1 == 7 && t.tag 1 == .none) = true := by
  decide +kernel

theorem test_bus_errors :
    refuses (step (withOp (.write 0x00014 4 0))) (.busError .readOnly) = true ∧
    refuses (step (withOp (.read 0x00038 4))) (.busError .unassigned) = true ∧
    refuses (step (withOp (.read 0x00402 4))) (.busError .misaligned) = true ∧
    refuses (step (withOp (.read 0x00800 4))) (.busError .unassigned) = true ∧
    refuses (step (withOp (.read 0x3FFFC 4))) (.busError .unassigned) = true ∧
    refuses (step (withOp (.read 0x00400 1))) (.busError .notWord) = true := by
  decide +kernel

/-- Section 2.10: bit 0 of `CTRL` wins. -/
theorem test_soft_reset :
    after (step { withOp (.write 0x0C 4 0xF) with hintcnt := 3, alen := 4, fault := true, fcode := 2, finfo := 9 })
      (fun t => t.hintcnt == 0 && t.alen == 0 && !t.fault && t.fcode == 0 && t.finfo == 0) = true := by
  decide +kernel

/-- Program 4: `csrw CTRL, 2` leaves the fault state and nothing else. -/
theorem test_clear_fault :
    after (step { withOp (.write 0x0C 4 2) with hintcnt := 3, fault := true, fcode := 2, finfo := 0x10020100 })
      (fun t => t.hintcnt == 3 && !t.fault && t.fcode == 0 && t.finfo == 0) = true := by
  decide +kernel

/-! ## The hypotheses of the statements are met -/

/-- The arguments of the reset state are a legal record. -/
theorem witness_legal : State.reset.env.params.legal = true ∧ ones.env.params.legal = true ∧
    onesOneEntry.env.params.legal = true := by decide

theorem witness_DecodeOfEncode :
    (Instr.settag 255 2).wellFormed = true ∧ (Instr.pwacc 255 0 255).wellFormed = true := by decide

theorem witness_EncodeOfDecode :
    decode 0x01FF0002 = .ok (.settag 255 2) ∧ decode 0x6100FF00 = .ok (.usehint 0 255 0) := by decide

theorem witness_StepRunsTheCommand :
    State.reset.env.params.legal = true ∧ State.reset.fault = false ∧ decode 0x17FFFF00 = .ok (.freeze 255 255) ∧
      (withOp (.write 0x10 4 0x17FFFF00)).pending = .write 0x10 4 0x17FFFF00 :: [] := by decide

/-- Both clauses, at SETTAG's last legal code and the first illegal one. -/
theorem witness_IllegalWordFaults :
    (withOp (.write 0x10 4 0x01090002)).env.params.legal = true ∧ (withOp (.write 0x10 4 0x01090002)).fault = false ∧
    (∃ r ∈ opcodeTable, 0x01090002 &&& r.mask = r.pattern ∧ ¬(r.mnemonic = "SETTAG" ∧ bOf 0x01090002 = 3)) ∧
    ¬(∃ r ∈ opcodeTable, 0x01090003 &&& r.mask = r.pattern ∧ ¬(r.mnemonic = "SETTAG" ∧ bOf 0x01090003 = 3)) := by
  decide

theorem witness_NopCommand :
    (0x00FFFFFF : Word).toNat / 2 ^ 24 = 0 ∧ (0x00FFFFFF : Word) ≠ 0 ∧
    ({ State.reset with fault := true } : State).env.params.legal = true ∧
    ({ State.reset with fault := true } : State).fault = true := by decide

theorem witness_SettagCommand :
    ((2 : BitVec 8) = 2 ∧ Tag.ntt = Tag.ntt) ∧ ((0 : BitVec 8) = 0 ∧ Tag.none = Tag.none) ∧
    ((1 : BitVec 8) = 1 ∧ Tag.std = Tag.std) ∧ 3 ≤ (3 : BitVec 8).toNat := by decide

/-- The tag clauses of every command with one source slot: NTT, INVNTT, REDUCE, CSUBQ, FREEZE, SHLD, CHKNORM. -/
theorem witness_one_source :
    State.reset.tag (0xFF : Slot).toNat = .none ∧ (tagged [(255, .std)]).tag (0xFF : Slot).toNat = .std ∧
    (tagged [(255, .ntt)]).tag (0xFF : Slot).toNat = .ntt := by decide +kernel

/-- The tag clauses of every command with two source slots: PWMUL, ADD, SUB, MKHINT, USEHINT. -/
theorem witness_two_sources :
    (State.reset.tag 1 = .none ∧ State.reset.tag 2 = .none) ∧
    ((tagged [(1, .std), (2, .ntt)]).tag 1 = .std ∧ (tagged [(1, .std), (2, .ntt)]).tag 2 = .ntt) ∧
    ((tagged [(1, .std), (2, .std)]).tag 1 = .std ∧ (tagged [(1, .std), (2, .std)]).tag 2 = .std) ∧
    ((tagged [(1, .ntt), (2, .ntt)]).tag 1 = .ntt ∧ (tagged [(1, .ntt), (2, .ntt)]).tag 2 = .ntt) := by
  decide +kernel

/-- The largest bound R113 admits, with a word just below it. -/
theorem witness_NttBound_NttEvaluates :
    (poke (tagged [(1, .std)]) [(1, 0, 4160880623)]).tag (1 : Slot).toNat = .std ∧
    4160880624 + 16 * Q ≤ 2 ^ 32 ∧
    ∀ i < 256, (((poke (tagged [(1, .std)]) [(1, 0, 4160880623)]).poly (1 : Slot).toNat).word i).toNat < 4160880624 := by
  decide +kernel

/-- The slot of ones is the evaluation vector of the polynomial 1 (R114's example). -/
theorem witness_InvnttContract :
    (State.reset.setSlot 1 (Vector.replicate 256 1) .ntt).tag (1 : Slot).toNat = .ntt ∧
    ((State.reset.setSlot 1 (Vector.replicate 256 1) .ntt).poly (1 : Slot).toNat).Below (2 * Q) ∧
    ∀ i < 256, ((State.reset.setSlot 1 (Vector.replicate 256 1) .ntt).poly (1 : Slot).toNat).nat i % Q =
      evalAt (fun j => if j = 0 then 1 else 0) i % Q := by
  have hw : ∀ i < 256, ((State.reset.setSlot 1 (Vector.replicate 256 1) .ntt).poly (1 : Slot).toNat).word i = 1 := by
    decide +kernel
  refine ⟨by decide +kernel, ?_, ?_⟩
  · intro i hi
    rw [hw i hi]
    decide
  · intro i hi
    have he : evalAt (fun j => if j = 0 then 1 else 0) i = 1 := by
      unfold evalAt
      rw [Finset.sum_eq_single 0]
      · rfl
      · intro j _ hj; simp [hj]
      · intro h; exact absurd (Finset.mem_range.2 (by omega)) h
    rw [Poly.nat, hw i hi, he]
    rfl

theorem witness_FourCommandsMultiply :
    (3 : Slot) ≠ 2 ∧ (3 : Slot) ≠ 4 ∧
    (poke (tagged [(1, .std), (2, .std)]) [(1, 0, 16760833)]).tag 1 = .std ∧
    (poke (tagged [(1, .std), (2, .std)]) [(1, 0, 16760833)]).tag 2 = .std ∧
    ∀ i < 256, (((poke (tagged [(1, .std), (2, .std)]) [(1, 0, 16760833)]).poly 1).word i).toNat < 2 * Q ∧
      (((poke (tagged [(1, .std), (2, .std)]) [(1, 0, 16760833)]).poly 2).word i).toNat < 2 * Q := by
  decide +kernel

/-- The edge of the product bound, and the largest words of the sufficient condition. -/
theorem witness_PwmulContract :
    (tagged [(1, .ntt), (2, .ntt)]).tag 1 = .ntt ∧ (tagged [(1, .ntt), (2, .ntt)]).tag 2 = .ntt ∧
    8380416 * 4294967295 ≤ Q * 2 ^ 32 ∧ 22 * Q - 1 < 22 * Q := by
  decide +kernel

/-- Equal destinations; then each tag; the last canonical word. -/
theorem witness_P2rCommand :
    State.reset.env.params.legal = true ∧ (5 : Slot) = 5 ∧ (5 : Slot) ≠ 6 ∧ State.reset.tag 9 = .none ∧
    (tagged [(9, .ntt)]).tag 9 = .ntt ∧ (poke (tagged [(9, .std)]) [(9, 0, 8380416)]).tag 9 = .std ∧
    ((poke (tagged [(9, .std)]) [(9, 0, 8380416)]).word 9 0).toNat < Q := by
  decide +kernel

/-- Canonical words, among them Q - 1, whose high part is the wrapped one, and 0, whose high part is not. -/
theorem witness_DecompCommand_DecompContract :
    State.reset.env.params.legal = true ∧ (5 : Slot) ≠ 6 ∧
    (poke (tagged [(9, .std)]) [(9, 0, 8380416)]).tag 9 = .std ∧
    (∀ i < 256, (((poke (tagged [(9, .std)]) [(9, 0, 8380416)]).poly 9).word i).toNat < Q) ∧
    (8380416 : Int) = 16 * (2 * 261888) + 0 ∧ (16 : Int) * (2 * 261888) = Q - 1 ∧ (0 : Int) * (2 * 261888) ≠ Q - 1 := by
  decide +kernel

/-- Vector 2.3-3, its words that are not canonical: Q has v = 0, below 1; 2Q - 1 is at its v and below the next. -/
theorem test_chknorm_not_canonical :
    [(8380417, 1), (16760833, 4286586880), (16760833, 4286586881)].map (fun x : Nat × Nat =>
      after (exec (.chknorm 1) { poke (tagged [(1, .std)]) [(1, 0, BitVec.ofNat 32 x.1)] with
        bound := BitVec.ofNat 32 x.2 }) (·.norm)) = [false, true, false] := by
  decide +kernel

/-- `BOUND` 0, and a canonical slot that holds both middle words. -/
theorem witness_ChknormCommand_ChknormContract :
    State.reset.bound = 0 ∧ (poke (tagged [(1, .std)]) [(1, 0, 4190208), (1, 1, 4190209)]).tag 1 = .std ∧
    ∀ i < 256, (((poke (tagged [(1, .std)]) [(1, 0, 4190208), (1, 1, 4190209)]).poly 1).word i).toNat < Q := by
  decide +kernel

/-- Four `NTT` slots up to slot 255, four more from slot 20. -/
def runs (t : Tag) : State :=
  tagged [(252, .ntt), (253, .ntt), (254, .ntt), (255, t), (20, .ntt), (21, .ntt), (22, .ntt), (23, .ntt)]

/-- Every clause: runs that end at 255 and past it; a `NONE`, a `STD` and no other tag in a run. -/
theorem witness_PwaccCommand_PwaccContract :
    State.reset.env.params.l = 4 ∧ 1 ≤ 4 ∧ (252 : Slot).toNat + 4 - 1 ≤ 255 ∧ (20 : Slot).toNat + 4 - 1 ≤ 255 ∧
    255 < (253 : Slot).toNat + 4 - 1 ∧
    (∃ j < 4, (runs .none).tag (252 + j) = .none ∨ (runs .none).tag (20 + j) = .none) ∧
    (∀ j < 4, (runs .std).tag (252 + j) ≠ .none ∧ (runs .std).tag (20 + j) ≠ .none) ∧
    (∃ j < 4, (runs .std).tag (252 + j) = .std ∨ (runs .std).tag (20 + j) = .std) ∧
    (∀ j < 4, (runs .ntt).tag (252 + j) = .ntt ∧ (runs .ntt).tag (20 + j) = .ntt) ∧
    ∀ j < 4, ((runs .ntt).word (252 + j) 0).toNat * ((runs .ntt).word (20 + j) 0).toNat ≤ Q * 2 ^ 32 := by
  decide +kernel

/-- `ALEN` 1025 and 1024, `NOVF`; a matrix that ends at slot 255 and one that passes it. -/
theorem witness_StreamDecodeFaults :
    1024 < ({ State.reset with alen := 1025 } : State).alen.toNat ∧
    ({ State.reset with alen := 1024, novf := true } : State).alen.toNat ≤ 1024 ∧
    ({ State.reset with alen := 1024, novf := true } : State).novf = true ∧
    255 < (237 : Slot).toNat + State.reset.env.params.k * State.reset.env.params.l - 1 ∧
    (236 : Slot).toNat + State.reset.env.params.k * State.reset.env.params.l - 1 ≤ 255 := by
  decide

theorem witness_SunifCommand :
    ones.alen.toNat ≤ 1024 ∧ ones.novf = false ∧
    ([0, 0] : List Byte) = (List.range ones.alen.toNat).map ones.abuf ++
      [BitVec.ofNat 8 (ones.nonce.toNat % 256), BitVec.ofNat 8 (ones.nonce.toNat / 256)] ∧
    FillsAt (fun t => decide (t < Q)) (uniformAt ones.env .v128 [0, 0]) 256 ∧
    Serves ones.env .v128 [0, 0] (3 * 256) := by
  refine ⟨by decide, by decide, by decide, ?_, ?_⟩
  · unfold FillsAt; decide +kernel
  · exact serves_of_blocks (n := 65535) rfl (show blocksFor .v128 (3 * 256) ≤ 65535 by decide) (by decide +kernel)

/-- The stream `A3` repeated (vector 2.5-7). -/
def nibbles : State := withXof (toy .v256 [0, 0] 1 (pat [0xA3]))

theorem witness_SetaCommand :
    nibbles.env.params.legal = true ∧ nibbles.alen.toNat ≤ 1024 ∧ nibbles.novf = false ∧
    ([0, 0] : List Byte) = (List.range nibbles.alen.toNat).map nibbles.abuf ++
      [BitVec.ofNat 8 (nibbles.nonce.toNat % 256), BitVec.ofNat 8 (nibbles.nonce.toNat / 256)] ∧
    FillsAt (fun v => decide (v ≤ 2 * nibbles.env.params.eta)) (nibbleAt nibbles.env [0, 0]) 256 ∧
    Serves nibbles.env .v256 [0, 0] ((256 + 1) / 2) := by
  refine ⟨by decide, by decide, by decide, by decide, ?_, ?_⟩
  · unfold FillsAt; decide +kernel
  · exact serves_of_blocks (n := 65535) rfl (show blocksFor .v256 ((256 + 1) / 2) ≤ 65535 by decide) (by decide +kernel)

/-- The smallest field width, 2, whose 64 bytes are one block. -/
def fields : State :=
  { nibbles with env := { nibbles.env with params := { paramsT0 with ybits := 2 } } }

theorem witness_Sgam1Command :
    fields.env.params.legal = true ∧ fields.alen.toNat ≤ 1024 ∧ fields.novf = false ∧
    ([0, 0] : List Byte) = (List.range fields.alen.toNat).map fields.abuf ++
      [BitVec.ofNat 8 (fields.nonce.toNat % 256), BitVec.ofNat 8 (fields.nonce.toNat / 256)] ∧
    Serves fields.env .v256 [0, 0] (32 * fields.env.params.ybits) := by
  refine ⟨by decide, by decide, by decide, by decide, ?_⟩
  exact serves_of_blocks (n := 65535) rfl (show blocksFor .v256 (32 * 2) ≤ 65535 by decide) (by decide +kernel)

/-- The stream of zeros for the empty string (vector 2.5-9a). -/
def zeros : State := withXof (toy .v256 [] 1 (pat [0]))

theorem witness_ChalCommand :
    zeros.env.params.legal = true ∧ zeros.alen.toNat ≤ 1024 ∧
    ∃ x, challengeSample zeros.env ((List.range zeros.alen.toNat).map zeros.abuf) = .done x :=
  ⟨by decide, by decide, done_of_committed (by decide +kernel)⟩

/-- The stream of vector 2.5-9, which has one byte to resample, C8 at index 196. -/
def resampled : State :=
  withXof (toy .v256 [] 1 fun n => ([5, 0, 0, 0, 0, 0, 0, 0, 0xC8, 3, 0xC5, 3] ++ (List.range 57).map (· + 199)).getD n 0)

/-- A stream with a byte to resample, in the first step; the other steps read one byte each. -/
theorem witness_ChalShuffle :
    resampled.env.params.legal = true ∧ resampled.alen.toNat ≤ 1024 ∧
    ([] : List Byte) = (List.range resampled.alen.toNat).map resampled.abuf ∧
    StepsRead resampled.env [] (fun j => if j = 0 then 8 else 9 + j) resampled.env.params.tau ∧
    Serves resampled.env .v256 [] (if resampled.env.params.tau = 0 then 8 else 9 + resampled.env.params.tau) := by
  refine ⟨by decide, by decide, by decide, ⟨rfl, ?_⟩, ?_⟩
  · intro i hi
    refine ⟨by show (if i = 0 then 8 else 9 + i) < 9 + (i + 1); split <;> omega, ?_, ?_⟩
    · intro n hn hn'
      obtain ⟨rfl, rfl⟩ : i = 0 ∧ n = 8 := by
        have h1 : (if i = 0 then 8 else 9 + i) ≤ n := hn
        have h2 : n + 1 < 9 + (i + 1) := hn'
        split at h1 <;> omega
      decide +kernel
    · exact (by decide +kernel : ∀ i < 60, (resampled.env.streamByte .v256 [] (9 + (i + 1) - 1)).toNat ≤
        shuffleIndex resampled.env.params i) i hi
  · exact serves_of_blocks (n := 65535) rfl (show blocksFor .v256 (9 + 60) ≤ 65535 by decide) (by decide +kernel)

/-- One matrix entry, in slot 255. -/
theorem witness_ExpmatCommand :
    onesOneEntry.env.params.legal = true ∧ (255 : Slot).toNat + 1 * 1 - 1 ≤ 255 ∧ onesOneEntry.alen.toNat ≤ 1024 ∧
    ∃ x : Nat → Nat → Sample, ∀ i < 1, ∀ j < 1, uniformSample onesOneEntry.env .v128
      ((List.range onesOneEntry.alen.toNat).map onesOneEntry.abuf ++ [BitVec.ofNat 8 j, BitVec.ofNat 8 i]) =
        .done (x i j) := by
  refine ⟨by decide, by decide, by decide, ?_⟩
  obtain ⟨x, hx⟩ := done_of_committed (r := uniformSample onesOneEntry.env .v128
    ((List.range onesOneEntry.alen.toNat).map onesOneEntry.abuf ++ [BitVec.ofNat 8 0, BitVec.ofNat 8 0]))
    (by decide +kernel)
  refine ⟨fun _ _ => x, ?_⟩
  intro i hi j hj
  obtain rfl : i = 0 := by omega
  obtain rfl : j = 0 := by omega
  exact hx

theorem witness_ExpmatEntryIsSunif :
    onesOneEntry.env.params.legal = true ∧ onesOneEntry.fault = false ∧
    (∃ t, exec (.expmat 255) onesOneEntry = .next t ∧ t.fault = false) ∧
    0 < onesOneEntry.env.params.k ∧ 0 < onesOneEntry.env.params.l ∧
    (255 : Slot).toNat = (255 : Slot).toNat + 0 * onesOneEntry.env.params.l + 0 := by
  refine ⟨by decide, by decide, ?_, by decide, by decide, by decide⟩
  obtain ⟨t, ht, hp⟩ := next_of_after test_expmat
  refine ⟨t, ht, ?_⟩
  simp only [Bool.and_eq_true, Bool.not_eq_true'] at hp
  exact hp.1.1.1.1.1.1

/-- A limit of no blocks aborts every session; a failing first squeeze does too, with the other code. -/
theorem witness_SessionFaults :
    (withLimit 0).alen.toNat ≤ 1024 ∧ (withLimit 0).novf = false ∧
    uniformSample (withLimit 0).env .v128 (withLimit 0).seedString = .aborted .xofLim ∧
    etaSample (withLimit 0).env (withLimit 0).seedString = .aborted .xofLim ∧
    gamma1Sample (withLimit 0).env (withLimit 0).seedString = .aborted .xofLim ∧
    challengeSample (withLimit 0).env (withLimit 0).absorbed = .aborted .xofLim ∧
    challengeSample (withXof [⟨.v256, [], 0, none⟩]).env (withXof [⟨.v256, [], 0, none⟩]).absorbed =
      .aborted .xofErr :=
  ⟨by decide, by decide, rfl, rfl, rfl, rfl, rfl⟩

/-- Two entries: the first commits, the second one's first squeeze fails. -/
def secondFails : State :=
  { State.reset with
    env := { envT0 with
      replies := toy .v128 [0, 0] 5 (pat [1, 0, 0]) ++ [⟨.v128, [1, 0], 0, none⟩]
      params := { paramsT0 with k := 1, l := 2 } } }

theorem witness_ExpmatSessionFaults :
    secondFails.env.params.legal = true ∧
    (254 : Slot).toNat + secondFails.env.params.k * secondFails.env.params.l - 1 ≤ 255 ∧
    secondFails.alen.toNat ≤ 1024 ∧ 1 < secondFails.env.params.k * secondFails.env.params.l ∧
    (∃ x : Nat → Sample, ∀ n' < 1, uniformSample secondFails.env .v128 (secondFails.absorbed ++
      [BitVec.ofNat 8 (n' % secondFails.env.params.l), BitVec.ofNat 8 (n' / secondFails.env.params.l)]) =
        .done (x n')) ∧
    uniformSample secondFails.env .v128 (secondFails.absorbed ++
      [BitVec.ofNat 8 (1 % secondFails.env.params.l), BitVec.ofNat 8 (1 / secondFails.env.params.l)]) =
        .aborted .xofErr := by
  refine ⟨by decide, by decide, by decide, by decide, ?_, by decide +kernel⟩
  obtain ⟨x, hx⟩ := done_of_committed (r := uniformSample secondFails.env .v128 (secondFails.absorbed ++
      [BitVec.ofNat 8 (0 % secondFails.env.params.l), BitVec.ofNat 8 (0 / secondFails.env.params.l)]))
    (by decide +kernel)
  refine ⟨fun _ => x, ?_⟩
  intro n' hn
  obtain rfl : n' = 0 := by omega
  exact hx

/-- Each clause, at a block after the first: the blocks before it are served and do not bring the profile to its stop
condition; the block fails, or is at the limit. -/
theorem witness_LimitBeforeSqueeze :
    (∀ b < 1, full.env.squeezeFails .v128 [] b = false) ∧ full.env.squeezeFails .v128 [] 1 = true ∧
    (acceptedOf (fun t => decide (t < Q)) (uniformAt full.env .v128 []) (1 * Variant.v128.rate / 3)).length < 256 ∧
    (∀ b < 3, full.env.squeezeFails .v256 [] b = false) ∧ full.env.squeezeFails .v256 [] 3 = true ∧
    (acceptedOf (fun v => decide (v ≤ 2 * full.env.params.eta)) (nibbleAt full.env []) (2 * (3 * 136))).length < 256 ∧
    3 * 136 < 32 * full.env.params.ybits ∧ full.env.params.legal = true ∧ 0 < full.env.params.tau ∧
    (∀ n, 8 ≤ n → n < 3 * 136 → shuffleIndex full.env.params 0 < (full.env.streamByte .v256 [] n).toNat) ∧
    WithinLimit full.env 3 ∧ (withLimit 3).env.sqzLimit = .blocks 3 := by
  refine ⟨by decide +kernel, by decide +kernel, by decide +kernel, by decide +kernel, by decide +kernel,
    by decide +kernel, by decide, by decide, by decide, ?_, ?_, rfl⟩
  · exact fun n _ hn => (by decide +kernel :
      ∀ n < 3 * 136, shuffleIndex full.env.params 0 < (full.env.streamByte .v256 [] n).toNat) n hn
  · intro n hn
    cases hn
    decide

theorem witness_LimitedCommandsEnd :
    State.reset.env.sqzLimit = .blocks 65535 ∧ (withLimit 0).env.sqzLimit = .blocks 0 ∧
    (withLimit 0).env.params.legal = true := by decide

/-- A sum of an absorb string above 1024 bytes, and one of 1024, K = 7 being the last (92_eei_decisions.md D14). With
M = 3, 256 coefficients are 405.75 bits, so 51 bytes: K = 19 leaves 55 of the 1024, and K = 31 passes them alone. -/
theorem test_absorb_sum :
    ({ paramsT0 with crhBytes := 1024, seedBytes := 1024 } : Params).legal = false ∧
    ({ paramsT0 with crhBytes := 384 } : Params).legal = true ∧ ({ paramsT0 with crhBytes := 385 } : Params).legal = false ∧
    ({ paramsT0 with k := 7 } : Params).legal = true ∧ ({ paramsT0 with k := 8 } : Params).legal = false ∧
    ({ paramsT0 with k := 19, gamma2 := 1396736, crhBytes := 55 } : Params).legal = true ∧
    ({ paramsT0 with k := 19, gamma2 := 1396736, crhBytes := 56 } : Params).legal = false ∧
    ({ paramsT0 with k := 31, gamma2 := 1396736, crhBytes := 32 } : Params).legal = false := by
  decide

/-- Two states that agree on what R186 names and differ in a slot, a tag and `BOUND`. -/
theorem witness_StreamDeterminism :
    ones.env.params.legal = true ∧ Instr.sunif 7 ∈ [Instr.sunif 7, .seta 7, .sgam1 7, .chal 7, .expmat 7] ∧
    ones.alen = ({ (ones.setSlot 7 (Vector.replicate 256 9) .std) with bound := 5 } : State).alen ∧
    ones.nonce = ({ (ones.setSlot 7 (Vector.replicate 256 9) .std) with bound := 5 } : State).nonce ∧
    ones.env = ({ (ones.setSlot 7 (Vector.replicate 256 9) .std) with bound := 5 } : State).env ∧
    ones.fault = false ∧ ∃ t, exec (.sunif 7) ones = .next t ∧ t.fault = false := by
  refine ⟨by decide, by decide, rfl, rfl, rfl, by decide, ?_⟩
  obtain ⟨t, ht, hp⟩ := next_of_after test_sunif
  refine ⟨t, ht, ?_⟩
  simp only [Bool.and_eq_true, Bool.not_eq_true'] at hp
  exact hp.1.1.1.1.1.1.1

/-- The low word on R213's three edges, with high words 0 and M - 1. -/
theorem witness_MkhintCommand :
    State.reset.env.params.legal = true ∧ (15 : Word).toNat < State.reset.env.params.m ∧
    (261888 : Word).toNat ≤ State.reset.env.params.gamma2 ∧
    Q - State.reset.env.params.gamma2 < (8118530 : Word).toNat ∧
    (8118529 : Word).toNat = Q - State.reset.env.params.gamma2 ∧ (8118529 : Word).toNat < Q := by
  decide

/-- A zero low part counts as not positive; a positive one; a hint word 0. -/
theorem witness_UsehintCommand :
    decompose State.reset.env.params.gamma2 0 = (0, 0) ∧ decompose State.reset.env.params.gamma2 261888 = (0, 261888) ∧
    (8380416 : Word).toNat < Q := by
  decide

/-- Words at the two ends of R215's range for T0: d = 523499 with w1 = 15, d = -523499 with w1 = 0. -/
def hinted : State :=
  poke (tagged [(1, .std), (2, .std), (3, .std)])
    [(1, 0, 523499), (2, 0, 15), (3, 0, 8380139), (1, 1, 7856918), (3, 1, 7856918)]

/-- The d of those words. -/
def delta (i : Nat) : Int := if i = 0 then 523499 else if i = 1 then -523499 else 0

theorem witness_HintRoundTrip :
    hinted.env.params.legal = true ∧ (4 : Slot) ≠ 3 ∧
    hinted.tag 1 = .std ∧ hinted.tag 2 = .std ∧ hinted.tag 3 = .std ∧
    ∀ i < 256, (hinted.word 2 i).toNat < hinted.env.params.m ∧
      |delta i| + hinted.env.params.beta + 2 ≤ 2 * hinted.env.params.gamma2 ∧
      ((hinted.word 1 i).toNat : Int) = delta i % Q ∧
      ((hinted.word 3 i).toNat : Int) =
        (((hinted.word 2 i).toNat : Int) * (2 * hinted.env.params.gamma2) + delta i) % Q := by
  decide +kernel

theorem witness_ResetState_ControlWrites :
    State.reset.env.params.legal = true ∧ (0xF : Word).getLsbD 0 = true ∧ (0xE : Word).getLsbD 0 = false ∧
    (0xE : Word).getLsbD 1 = true ∧ (0xE : Word).getLsbD 2 = true ∧ (0xE : Word).getLsbD 3 = true := by decide

/-- A state that meets the invariant and has work to do: a `CMD` write of a sampler command under a limit of 0 blocks,
which takes a session fault. -/
theorem witness_StepKeepsInvariant :
    ({ (withLimit 0) with pending := [.write 0x10 4 0x41070000] } : State).Inv ∧
    ∃ t, step { (withLimit 0) with pending := [.write 0x10 4 0x41070000] } = .next t := by
  refine ⟨⟨by decide, fun _ => ⟨rfl, rfl⟩, (by simp [withLimit, State.reset]), (by simp [withLimit, State.reset]),
    (by simp [withLimit, State.reset])⟩, ?_⟩
  obtain ⟨t, ht, _⟩ := next_of_after (o := step { (withLimit 0) with pending := [.write 0x10 4 0x41070000] })
    (p := fun t => t.fault) (by decide +kernel)
  exact ⟨t, ht⟩

/-- A command that completes, one that faults at decode, one that faults in its session: the hypotheses of
CommandCounter, DecodeFaultsArePrecise, FaultTable, SideEffectsAreTheListed and CommandsKeepHostInputs. -/
theorem witness_command_ends :
    State.reset.fault = false ∧ (Instr.ntt 2 1).wellFormed = true ∧
    (∃ t, exec .nop State.reset = .next t ∧ t.fault = false) ∧
    (∃ t, exec (.ntt 2 1) State.reset = .next t ∧ t.fault = true ∧ t.fcode.toNat ≤ 6) ∧
    ∃ t, exec (.sunif 7) (withLimit 0) = .next t ∧ t.fault = true :=
  ⟨rfl, rfl, ⟨_, rfl, rfl⟩, ⟨_, rfl, rfl, by decide⟩, ⟨_, rfl, rfl⟩⟩

theorem witness_FaultLeftOnlyByHost :
    ({ withOp (.write 0x0C 4 2) with fault := true } : State).fault = true ∧
    ∃ t, step { withOp (.write 0x0C 4 2) with fault := true } = .next t ∧ t.fault = false :=
  ⟨rfl, _, rfl, rfl⟩

/-- Both kinds of limit. -/
theorem witness_BusReads :
    State.reset.env.params.legal = true ∧ State.reset.env.sqzLimit = .blocks 65535 ∧
    ({ envT0 with sqzLimit := .unlimited } : Env).sqzLimit = .unlimited ∧ 65535 < 2 ^ 32 := by decide

/-- The edges of the map: the last unassigned and the first assigned address of each range, read. -/
theorem witness_BusErrors :
    refuses (step (withOp (.read 0x0003C 4))) (.busError .unassigned) = true ∧ reads 0x00040 8380417 = true ∧
    reads 0x0005C 65535 = true ∧ refuses (step (withOp (.read 0x00060 4))) (.busError .unassigned) = true ∧
    refuses (step (withOp (.read 0x003FC 4))) (.busError .unassigned) = true ∧ reads 0x00400 0 = true ∧
    reads 0x007FC 0 = true ∧ refuses (step (withOp (.read 0x00800 4))) (.busError .unassigned) = true ∧
    refuses (step (withOp (.read 0x3FFFC 4))) (.busError .unassigned) = true ∧ reads 0x40000 0 = true ∧
    refuses (step { withOp (.write 0x10 4 0) with fault := true }) (.busError .cmdWhileFault) = true ∧
    refuses (step (withOp (.write 0x5C 4 0))) (.busError .readOnly) = true := by
  decide +kernel

/-- The last slot word and the last buffer word are written. -/
theorem witness_HostWrites :
    after (step (withOp (.write (BitVec.ofNat 19 (0x40000 + 0x400 * 255 + 4 * 255)) 4 0xFFFFFFFF)))
      (fun t => t.word 255 255 == 0xFFFFFFFF && t.word 255 254 == 0) = true ∧
    after (step (withOp (.write (BitVec.ofNat 19 (0x400 + 4 * 255)) 4 0xDD000000)))
      (fun t => t.abuf 1023 == 0xDD && t.mem == [(0x7FF, 0xDD)]) = true := by
  decide +kernel

end Sys2Proof.Tests
end

section
/-! PROOFS. The reset of the block (10_state.md R46, 70_reset_and_hazards.md R260, R261): what its state reads as, and
the two host operations that cause it. -/

namespace Sys2Proof.Machine

/-! ## The state after a reset, read through its accessors -/

/-- A constant vector reads its constant everywhere when that constant is also the default. -/
theorem getD_replicate_default {α : Type} (n : Nat) (x : α) (j : Nat) :
    (Vector.replicate n x).toList.getD j x = x := by
  rw [Vector.toList_replicate, List.getD_eq_getElem?_getD, List.getElem?_getD_replicate_default_eq]

@[simp] theorem State.word_resetBlock (s : State) (k i : Nat) : s.resetBlock.word k i = 0 := by
  have hpoly : s.resetBlock.poly k = Vector.replicate 256 0 := getD_replicate_default _ _ k
  rw [State.word, hpoly, Poly.word_zero]

@[simp] theorem State.tag_resetBlock (s : State) (k : Nat) : s.resetBlock.tag k = .none :=
  getD_replicate_default _ _ k

@[simp] theorem State.abuf_resetBlock (s : State) (n : Nat) : s.resetBlock.abuf n = 0 := rfl

/-- A reset of the reset state changes nothing: what holds of every reset block holds of `State.reset`. -/
@[simp] theorem State.resetBlock_reset : State.reset.resetBlock = State.reset := rfl

/-! ## The host operations that reset -/

/-- Under legal parameters a step takes the first pending host operation off the list and performs it (R71, R104). -/
theorem step_cons {s : State} (hlegal : s.env.params.legal = true) (op : HostOp) (rest : List HostOp) :
    step { s with pending := op :: rest } = ({ s with pending := rest } : State).perform op :=
  if_pos hlegal

/-- A word write to 0x0C reaches `CTRL` (R29). -/
theorem perform_write_ctrl (s : State) (v : Word) :
    s.perform (.write 0x0C 4 v) = .next (s.writeCtrl v) := rfl

/-- `SRST` makes a `CTRL` write a reset, whatever its other bits ask for (R32, R261). -/
theorem State.writeCtrl_of_srst (s : State) {v : Word} (h : v.getLsbD 0 = true) : s.writeCtrl v = s.resetBlock :=
  if_pos h

theorem step_hardReset {s : State} (hlegal : s.env.params.legal = true) (rest : List HostOp) :
    step { s with pending := .hardReset :: rest } = .next ({ s with pending := rest } : State).resetBlock :=
  step_cons hlegal _ _

theorem step_write_srst {s : State} (hlegal : s.env.params.legal = true) (rest : List HostOp) {v : Word}
    (hsrst : v.getLsbD 0 = true) :
    step { s with pending := .write 0x0C 4 v :: rest } = .next ({ s with pending := rest } : State).resetBlock := by
  rw [step_cons hlegal, perform_write_ctrl, State.writeCtrl_of_srst _ hsrst]

/-- Settles O46: all three states are reset blocks, and every reset block reads as the table of R46 says. -/
theorem resetState : Obligations.ResetState := by
  unfold Obligations.ResetState
  intro asTheTable
  have resetBlock_asTheTable (s : State) : asTheTable s.resetBlock :=
    ⟨s.word_resetBlock, s.tag_resetBlock, s.abuf_resetBlock,
      rfl, rfl, rfl, rfl, rfl, rfl, rfl, rfl, rfl, rfl, rfl, rfl, rfl⟩
  refine ⟨State.resetBlock_reset ▸ resetBlock_asTheTable State.reset, fun s rest v hlegal hsrst => ⟨?_, ?_⟩⟩
  · exact ⟨_, step_hardReset hlegal rest, resetBlock_asTheTable _⟩
  · exact ⟨_, step_write_srst hlegal rest hsrst, resetBlock_asTheTable _⟩

end Sys2Proof.Machine
end

section
/-! PROOFS. The contract of PWMUL (40_ring.md R117): on `NTT` sources it completes, and below the edge `Q·2^32` its
words are the Montgomery reductions that R15 describes. -/

namespace Sys2Proof.Machine

/-- Word `i` of a slot just written is word `i` of the ring element written. -/
theorem word_setSlot_self (s : State) (d : Slot) (p : Poly) (t : Tag) (i : Nat) :
    (s.setSlot d.toNat p t).complete.word d.toNat i = p.word i := by
  rw [State.word, poly_setSlot_self]

/-- On two sources tagged `NTT`, PWMUL writes the Montgomery products and completes (R116). -/
theorem exec_pwmul_of_ntt {s : State} (d : Slot) {a b : Slot} (ha : s.tag a.toNat = .ntt) (hb : s.tag b.toNat = .ntt) :
    exec (.pwmul d a b) s =
      .next (s.setSlot d.toNat (Poly.zipWords mulMr (s.poly a.toNat) (s.poly b.toNat)) .ntt).complete :=
  runCommand_pass (State.sourceChecks_pass (by decide) (by simp [ha, hb]))

/-- `(22·Q)² ≤ Q·2^32`: words below `22·Q` stay below the edge of R15. -/
theorem mul_le_of_lt_22Q {x y : Nat} (hx : x < 22 * Q) (hy : y < 22 * Q) : x * y ≤ Q * 2 ^ 32 :=
  calc x * y ≤ (22 * Q) * (22 * Q) := Nat.mul_le_mul hx.le hy.le
    _ ≤ Q * 2 ^ 32 := by decide

/-- Settles O16: each result word is `mr` of the product, whose contract below the edge is `mr_spec`. -/
theorem pwmulContract : Obligations.PwmulContract := by
  unfold Obligations.PwmulContract
  intro s d a b ha hb
  refine ⟨_, exec_pwmul_of_ntt d ha hb, fun i hi => ⟨mul_le_of_lt_22Q, fun hedge => ?_⟩⟩
  rw [word_setSlot_self, Poly.word_zipWords mulMr _ _ hi]
  exact mr_spec hedge

end Sys2Proof.Machine
end

section
/-! PROOFS. The contract of CHKNORM (41_rounding.md R149): on canonical words it compares the distance to the nearest
multiple of Q, which is the absolute value of the centred remainder, with `BOUND`. -/

namespace Sys2Proof.Machine

/-- On a source tagged `STD`, CHKNORM sets `NORM` and `REJ` by `overBound` and completes (R148). -/
theorem exec_chknorm_of_std {s : State} {a : Slot} (ha : s.tag a.toNat = .std) :
    exec (.chknorm a) s = .next (s.setNorm (overBound s.bound (s.poly a.toNat))).complete := by
  have hpass : firstViolated (s.sourceChecks .std [a.toNat]) = none :=
    State.sourceChecks_pass (by decide) (by simp [ha])
  rw [exec, execChknorm, runCommand_pass hpass]

theorem overBound_eq_true {bound : Word} {p : Poly} :
    overBound bound p = true ↔ ∃ i < 256, bound.toNat ≤ (normValue (p.word i)).toNat := by
  simp [overBound, Poly.mem_words]

/-- The centred remainder of a canonical number is at distance `min w (Q - w)` from 0 (R12); Q is odd, so the upper half
starts at `(Q + 1) / 2`. -/
theorem abs_centred_of_lt_Q {w : Nat} (h : w < Q) : |centred w Q| = ((min w (Q - w) : Nat) : Int) := by
  have hmod : (w : Int) % (Q : Int) = w := Int.emod_eq_of_lt (by omega) (by omega)
  unfold centred
  simp only [hmod]
  split
  case isTrue hupper => rw [abs_of_neg (by omega)]; omega
  case isFalse hlower => rw [abs_of_nonneg (by omega)]; omega

/-- Settles O27: on canonical words `normValue` is the minimum (`toNat_normValue`), and `NORM` is `overBound`. -/
theorem chknormContract : Obligations.ChknormContract := by
  unfold Obligations.ChknormContract
  intro s a ha hcanonical
  have hword : ∀ i < 256, (s.word a.toNat i).toNat < Q := hcanonical
  have hvalue : ∀ i < 256, (normValue (s.word a.toNat i)).toNat =
      min (s.word a.toNat i).toNat (Q - (s.word a.toNat i).toNat) :=
    fun i hi => toNat_normValue (hword i hi)
  refine ⟨_, exec_chknorm_of_std ha, fun i hi => ⟨hvalue i hi, ?_⟩, ?_⟩
  · rw [hvalue i hi, abs_centred_of_lt_Q (hword i hi)]
  · calc overBound s.bound (s.poly a.toNat) = true
        ↔ ∃ i < 256, s.bound.toNat ≤ (normValue (s.word a.toNat i)).toNat := overBound_eq_true
      _ ↔ ∃ i < 256, s.bound.toNat ≤ min (s.word a.toNat i).toNat (Q - (s.word a.toNat i).toNat) :=
        exists_congr fun i => and_congr_right fun hi => by rw [hvalue i hi]

end Sys2Proof.Machine
end

section
/-! PROOFS. CHAL completes (45_challenge.md R201, R202): the shuffle keeps its words sparse, one more of them nonzero
with each step, so a session that commits leaves exactly TAU. -/

namespace Sys2Proof.Machine

/-! ## The words of a ring element, counted and one by one -/

theorem Poly.words_eq_map_word (p : Poly) : p.words = (List.range 256).map p.word := by
  refine List.ext_getElem (by simp) fun i hi _ => ?_
  rw [p.getElem_words hi, List.getElem_map, List.getElem_range]

/-- Counting the indices of the words with a property counts the words. -/
theorem Poly.length_filter_word (p : Poly) (f : Word → Bool) :
    ((List.range 256).filter fun k => f (p.word k)).length = p.words.countP f := by
  rw [p.words_eq_map_word, List.countP_map, List.countP_eq_length_filter]
  rfl

/-! ## One move of the shuffle -/

/-- A word of the challenge: 0, or a coefficient +1 or -1 (R202). -/
def IsSparseWord (w : Word) : Prop := w.toNat = 0 ∨ w.toNat = 1 ∨ w.toNat = Q - 1

theorem isSparseWord_zero : IsSparseWord 0 := .inl rfl

theorem isSparseWord_unitOf (signs : Nat) : IsSparseWord (unitOf signs) := by
  unfold unitOf
  split
  · exact .inr (.inr (by decide))
  · exact .inr (.inl rfl)

theorem unitOf_ne_zero (signs : Nat) : unitOf signs ≠ 0 := by
  unfold unitOf
  split <;> decide

/-- `c[i] = c[b] ; c[b] = u`, R201's move (`Shuffle.feed_of_le`). -/
def moveWord (l : List Word) (i b : Nat) (u : Word) : List Word := (l.set i (l.getD b 0)).set b u

@[simp] theorem length_moveWord (l : List Word) (i b : Nat) (u : Word) : (moveWord l i b u).length = l.length := by
  simp [moveWord]

/-- The move leaves the words above `i` alone. -/
theorem getD_moveWord_of_lt {l : List Word} {i b k : Nat} (hb : b ≤ i) (hk : i < k) (u : Word) :
    (moveWord l i b u).getD k 0 = l.getD k 0 := by
  simp only [moveWord, List.getD_eq_getElem?_getD]
  rw [List.getElem?_set_ne (by omega), List.getElem?_set_ne (by omega)]

/-- Where `l[i]` was 0, the old `l[b]` survives at `i`, and the new nonzero word is one more. -/
theorem countP_moveWord {l : List Word} {i b : Nat} {u : Word} (hi : i < l.length) (hb : b ≤ i)
    (hzero : l.getD i 0 = 0) (hu : u ≠ 0) :
    (moveWord l i b u).countP (· != 0) = l.countP (· != 0) + 1 := by
  have hbl : b < l.length := by omega
  have hzero' : l[i] = 0 := by simpa [List.getD_eq_getElem?_getD, hi] using hzero
  have hkept : (l.set i l[b])[b]'(by simpa) = l[b] := by
    rw [List.getElem_set]; split <;> rfl
  have hset : (l.set i l[b]).countP (· != 0) = l.countP (· != 0) + if l[b] != 0 then 1 else 0 := by
    simp [List.countP_set hi, hzero']
  rw [moveWord, List.getD_eq_getElem _ _ hbl, List.countP_set (by simpa), hkept, hset,
    Nat.add_sub_cancel, if_pos (bne_iff_ne.2 hu)]

theorem isSparseWord_of_mem_moveWord {l : List Word} {i b : Nat} {u w : Word} (hl : ∀ w ∈ l, IsSparseWord w)
    (hu : IsSparseWord u) (hw : w ∈ moveWord l i b u) : IsSparseWord w := by
  have hmoved : IsSparseWord (l.getD b 0) := by
    rw [List.getD_eq_getElem?_getD]
    cases hget : l[b]? with
    | none => exact isSparseWord_zero
    | some v => exact hl v (List.mem_of_getElem? hget)
  rcases List.mem_or_eq_of_mem_set hw with hw | rfl
  · rcases List.mem_or_eq_of_mem_set hw with hw | rfl
    · exact hl w hw
    · exact hmoved
  · exact hu

/-! ## The parse rule, case by case -/

theorem Shuffle.feed_of_header {x : Shuffle} (h : x.header < 8) (byte : Byte) :
    x.feed byte =
      { x with header := x.header + 1, signs := x.signs + byte.toNat * 2 ^ (8 * x.header) } :=
  if_pos h

theorem Shuffle.feed_of_lt {x : Shuffle} (h : ¬ x.header < 8) {byte : Byte} (hb : x.i < byte.toNat) :
    x.feed byte = { x with rej := x.rej + 1 } :=
  (if_neg h).trans (if_pos hb)

theorem Shuffle.feed_of_le {x : Shuffle} (h : ¬ x.header < 8) {byte : Byte} (hb : byte.toNat ≤ x.i) :
    x.feed byte =
      { x with
        c := moveWord x.c x.i byte.toNat (unitOf x.signs)
        signs := x.signs / 2
        i := x.i + 1 } :=
  (if_neg h).trans (if_neg (Nat.not_lt.2 hb))

theorem Shuffle.over_eq_true {x : Shuffle} : x.over = true ↔ x.header = 8 ∧ 256 ≤ x.i := by
  simp [Shuffle.over]

/-! ## The invariant of the shuffle -/

/-- What every byte of the stream keeps: of the 256 words those from index `i` on are 0, and as many are nonzero as
steps are done. -/
structure Shuffle.Sparse (p : Params) (x : Shuffle) : Prop where
  header : x.header ≤ 8
  index : x.i ≤ 256
  length : x.c.length = 256
  above : ∀ k, x.i ≤ k → x.c.getD k 0 = 0
  count : 256 - p.tau + x.c.countP (· != 0) = x.i
  words : ∀ w ∈ x.c, IsSparseWord w

theorem Shuffle.sparse_start (p : Params) : (Shuffle.start p).Sparse p where
  header := Nat.zero_le 8
  index := Nat.sub_le 256 p.tau
  length := List.length_replicate
  above _ _ := List.getD_eq_getElem?_getD.trans (List.getElem?_getD_replicate_default_eq ..)
  count := congrArg (256 - p.tau + ·) List.countP_replicate
  words _ hw := List.eq_of_mem_replicate hw ▸ isSparseWord_zero

theorem Shuffle.Sparse.feed {p : Params} {x : Shuffle} (h : x.Sparse p) (hgo : x.over = false) (byte : Byte) :
    (x.feed byte).Sparse p := by
  obtain ⟨hheader, hindex, hlength, habove, hcount, hwords⟩ := h
  by_cases hsign : x.header < 8
  · rw [Shuffle.feed_of_header hsign]
    exact ⟨hsign, hindex, hlength, habove, hcount, hwords⟩
  rcases Nat.lt_or_ge x.i byte.toNat with hb | hb
  · rw [Shuffle.feed_of_lt hsign hb]
    exact ⟨hheader, hindex, hlength, habove, hcount, hwords⟩
  · have hi : x.i < 256 := by
      by_contra hi
      exact Bool.false_ne_true (hgo.symm.trans (Shuffle.over_eq_true.2 ⟨by omega, by omega⟩))
    have hmove := countP_moveWord (hlength ▸ hi) hb (habove x.i le_rfl) (unitOf_ne_zero x.signs)
    rw [Shuffle.feed_of_le hsign hb]
    exact {
      header := hheader
      index := hi
      length := (length_moveWord ..).trans hlength
      above := fun k hk => (getD_moveWord_of_lt hb hk _).trans (habove k (Nat.le_of_succ_le hk))
      count := by dsimp only; omega
      words := fun w => isSparseWord_of_mem_moveWord hwords (isSparseWord_unitOf _) }

/-- R202: the words of a session that commits. -/
theorem challengeSample_done {e : Env} {m : List Byte} {x : Sample} (htau : e.params.tau ≤ 256)
    (hdone : challengeSample e m = .done x) :
    (∀ w ∈ x.out.words, IsSparseWord w) ∧ x.out.words.countP (· != 0) = e.params.tau := by
  obtain ⟨⟨y, nblk⟩, hsession, rfl⟩ := Ended.map_eq_done.1 hdone
  obtain ⟨hover, -, hsparse⟩ := openSession_done (P := fun _ => Shuffle.Sparse e.params)
    (fun _ _ h hgo => h.feed hgo _) (Shuffle.sparse_start e.params) hsession
  obtain ⟨-, hi⟩ := Shuffle.over_eq_true.1 hover
  have hindex := hsparse.index
  have hcount := hsparse.count
  rw [Poly.words_ofList_of_length hsparse.length]
  exact ⟨hsparse.words, by omega⟩

/-! ## The command -/

theorem Params.tau_le_of_legal {p : Params} (h : p.legal = true) : p.tau ≤ 64 := by
  simp only [Params.legal, decide_eq_true_eq] at h
  omega

theorem toNat_fitWord {n : Nat} (h : n < 2 ^ 32) (wide : Nat → Word) : (fitWord wide n).toNat = n := by
  rw [fitWord, if_pos h, BitVec.toNat_ofNat, Nat.mod_eq_of_lt h]

/-- Where its session commits, CHAL commits the sample and completes (R201). -/
theorem exec_chal_of_done {s : State} (d : Slot) {x : Sample} (halen : s.alen.toNat ≤ 1024)
    (hdone : challengeSample s.env s.absorbed = .done x) :
    exec (.chal d) s = .next (commitChallenge d.toNat s x).complete := by
  have hpass : firstViolated [(.alen, s.alenTooLong)] = none := by
    simpa [firstViolated_eq_none, ← Bool.not_eq_true] using halen
  rw [exec, execChal, hdone, runStream_done hpass]

theorem commitChallenge_frame (s : State) (k : Nat) (x : Sample) :
    CommonFrame s (commitChallenge k s x).complete [k] :=
  { (Frame.setSlot s k x.out .std).1 with }

/-- Settles O34: the session's end is committed, and the invariant of the shuffle says what words it has. -/
theorem chalCommand : Obligations.ChalCommand := by
  unfold Obligations.ChalCommand
  intro s d x hlegal halen hdone
  obtain ⟨hwords, hcount⟩ := challengeSample_done (by have := Params.tau_le_of_legal hlegal; omega) hdone
  have hpoly : (commitChallenge d.toNat s x).complete.poly d.toNat = x.out := poly_setSlot_self s d x.out .std
  have htag : (commitChallenge d.toNat s x).complete.tag d.toNat = .std := tag_setSlot_self s d x.out .std
  refine ⟨⟨rfl, ?_⟩, _, exec_chal_of_done d halen hdone, commitChallenge_frame s _ x, ⟨rfl, rfl⟩, ⟨rfl, rfl⟩, rfl,
    htag, hpoly, fun h => toNat_fitWord h _, fun h => toNat_fitWord h _, ?_, ?_⟩
  · rw [decode_chal (opOf_assemble (by decide) d 0 0), formFD_assemble (by decide)]
  · intro k hk
    rw [State.word, hpoly]
    exact hwords _ (Poly.mem_words.2 ⟨k, hk, rfl⟩)
  · simp only [State.word, hpoly]
    exact (x.out.length_filter_word (· != 0)).trans hcount

end Sys2Proof.Machine
end

section
/-! PROOFS. MKHINT and USEHINT (46_hint.md R211 to R215). A canonical value lies in one band of `Decompose`; the closed
form of the hint bit and the round trip both follow from which band that is. -/

namespace Sys2Proof.Machine

/-! ## The bands of `Decompose` (41_rounding.md R141) -/

/-- The quotient and the centred low part of a number at an even step are unique. -/
theorem band_unique {g q r q' r' : Int} (hr : -g < r ∧ r ≤ g) (hr' : -g < r' ∧ r' ≤ g)
    (h : q * (2 * g) + r = q' * (2 * g) + r') : q = q' ∧ r = r' := by
  have quotient {x y : Int} (hy : -g < y ∧ y ≤ g) : (x * (2 * g) + y + (g - 1)) / (2 * g) = x :=
    ((Int.ediv_emod_unique (r := y + (g - 1)) (by omega)).2 ⟨by ring, by omega, by omega⟩).1
  obtain rfl : q = q' := by rw [← quotient (x := q) hr, h, quotient hr']
  exact ⟨rfl, by omega⟩

/-- A value in band `q` splits as `q` and its offset from the band's centre; the top band counts as band 0, its offset
one less. -/
theorem decompose_of_band {g w : Nat} {q r : Int} (hr : -(g : Int) < r ∧ r ≤ g) (hw : (w : Int) = q * (2 * g) + r) :
    decompose g w = if q * (2 * g) = (Q : Int) - 1 then (0, r - 1) else (q, r) := by
  obtain ⟨q', r', hlow, hhigh, hw', hsplit⟩ := decompose_spec (g := g) (by omega) w
  obtain ⟨rfl, rfl⟩ := band_unique hr ⟨hlow, hhigh⟩ (hw.symm.trans hw')
  exact hsplit

/-- `M·ALPHA = Q - 1` (00_scope.md R8). -/
theorem Params.m_mul_of_legal {p : Params} (h : p.legal = true) : (p.m : Int) * (2 * p.gamma2) = Q - 1 := by
  simp only [Params.legal, decide_eq_true_eq] at h
  obtain ⟨-, -, -, -, -, -, -, -, -, hmod, -⟩ := h
  have hmul : p.m * (2 * p.gamma2) = Q - 1 := Nat.div_mul_cancel (Nat.dvd_of_mod_eq_zero hmod)
  rw [← Nat.cast_ofNat (n := 2), ← Nat.cast_mul, ← Nat.cast_mul, hmul]
  rfl

section
variable {g m : Nat} (hm : (m : Int) * (2 * g) = Q - 1)
include hm

theorem gamma2_pos : 0 < g := by
  refine Nat.pos_of_ne_zero fun h => ?_
  rw [h, Q_eq] at hm
  omega

/-- A high word below M names a band under the top one. -/
theorem mul_alpha_add_alpha_le {a1 : Nat} (ha1 : a1 < m) : (a1 : Int) * (2 * g) + 2 * g ≤ Q - 1 :=
  calc (a1 : Int) * (2 * g) + 2 * g = (a1 + 1) * (2 * g) := by ring
    _ ≤ m * (2 * g) := mul_le_mul_of_nonneg_right (by omega) (by omega)
    _ = Q - 1 := hm

/-- The top band counts as band 0, with a low part of at most 0. -/
theorem decompose_of_top {w : Nat} (hlow : (Q : Int) - g ≤ w) (hw : w < Q) : decompose g w = (0, (w : Int) - Q) := by
  have hg := gamma2_pos hm
  rw [decompose_of_band (q := m) (r := w - (Q - 1)) (by omega) (by omega), if_pos hm]
  congr 1
  omega

/-- A band below the top one splits as itself. -/
theorem decompose_of_lt_top {a1 w : Nat} {r : Int} (ha1 : a1 < m) (hr : -(g : Int) < r ∧ r ≤ g)
    (hw : (w : Int) = a1 * (2 * g) + r) : decompose g w = (↑a1, r) := by
  have := mul_alpha_add_alpha_le hm ha1
  rw [decompose_of_band hr hw, if_neg (by omega)]

/-- The high part of a canonical value is `a1` in band `a1`, and for `a1 = 0` in the top band too. -/
theorem decompose_fst_eq_iff {a1 w : Nat} (ha1 : a1 < m) (hw : w < Q) :
    (decompose g w).1 = (a1 : Int) ↔
      (-(g : Int) < w - a1 * (2 * g) ∧ w - a1 * (2 * g) ≤ (g : Int)) ∨ (a1 = 0 ∧ (Q : Int) - g ≤ w) := by
  constructor
  · obtain ⟨q, r, hlow, hhigh, hsum, hsplit⟩ := decompose_spec (gamma2_pos hm) w
    rw [hsplit]
    split <;> intro h
    case isTrue htop => exact .inr ⟨by simpa using h.symm, by omega⟩
    case isFalse => subst h; exact .inl (by omega)
  · rintro (hband | ⟨rfl, htop⟩)
    · rw [decompose_of_lt_top hm ha1 hband (by omega)]
    · rw [decompose_of_top hm htop hw]; rfl

/-- The value `(a1·ALPHA + d) mod Q` of R215: it wraps only below 0, which takes `a1 = 0`. -/
theorem corrected_cases {a1 v : Nat} {d : Int} (ha1 : a1 < m) (hd : |d| + 2 ≤ 2 * g)
    (hv : (v : Int) = ((a1 : Int) * (2 * g) + d) % Q) :
    (v : Int) = a1 * (2 * g) + d ∨ a1 = 0 ∧ d < 0 ∧ (v : Int) = Q + d := by
  have hle := mul_alpha_add_alpha_le hm ha1
  obtain ⟨hlow, hhigh⟩ := abs_le.1 (by omega : |d| ≤ 2 * g - 2)
  rcases Nat.eq_zero_or_pos a1 with rfl | hpos
  · rw [Q_eq] at *; omega
  · have hstep : (2 * g : Int) ≤ a1 * (2 * g) := le_mul_of_one_le_left (by omega) (by omega)
    exact .inl (by rw [Q_eq] at *; omega)

/-- A value above band `a1` has a low part of at most 0, and one step down leads back to `a1`. -/
theorem step_down_of_above {a1 v : Nat} {d : Int} (ha1 : a1 < m) (hlow : g < d) (hhigh : d + 2 ≤ 2 * g)
    (hv : (v : Int) = a1 * (2 * g) + d) :
    (decompose g v).2 ≤ 0 ∧ ((decompose g v).1 - 1) % (m : Int) = a1 := by
  rcases Nat.lt_or_eq_of_le ha1 with hnext | hlast
  · rw [decompose_of_lt_top hm (r := d - 2 * g) hnext (by omega) (by rw [hv]; push_cast; ring)]
    exact ⟨by dsimp only; omega, by simpa using Int.emod_eq_of_lt (by omega) (by omega)⟩
  · have hcentre : (a1 : Int) * (2 * g) + 2 * g = Q - 1 := by rw [← hm, ← hlast]; push_cast; ring
    rw [decompose_of_top hm (by omega) (by omega), ← hlast]
    exact ⟨by dsimp only; omega,
      ((Int.ediv_emod_unique (q := -1) (by omega)).2 ⟨by push_cast; ring, by omega, by omega⟩).2⟩

/-- A value below band `a1` that has not wrapped has a positive low part, and one step up leads back to `a1`. -/
theorem step_up_of_below {a1 v : Nat} {d : Int} (ha1 : a1 < m) (hlow : 2 ≤ d + 2 * g) (hhigh : d ≤ -g)
    (hv : (v : Int) = a1 * (2 * g) + d) :
    0 < (decompose g v).2 ∧ ((decompose g v).1 + 1) % (m : Int) = a1 := by
  have hg := gamma2_pos hm
  obtain ⟨b, rfl⟩ : ∃ b, a1 = b + 1 :=
    Nat.exists_eq_add_one.2 (Nat.pos_of_ne_zero fun h => by subst h; omega)
  rw [decompose_of_lt_top hm (a1 := b) (r := d + 2 * g) (by omega) (by omega) (by rw [hv]; push_cast; ring)]
  exact ⟨by dsimp only; omega, by simpa using Int.emod_eq_of_lt (by omega) (by omega)⟩

/-- A value wrapped to band `M - 1` has a positive low part, and one step up leads to 0. -/
theorem step_up_of_wrapped {v : Nat} {d : Int} (hlow : 2 ≤ d + 2 * g) (hhigh : d < -g) (hv : (v : Int) = Q + d) :
    0 < (decompose g v).2 ∧ ((decompose g v).1 + 1) % (m : Int) = 0 := by
  obtain ⟨b, rfl⟩ : ∃ b, m = b + 1 :=
    Nat.exists_eq_add_one.2 (Nat.pos_of_ne_zero fun h => by rw [h, Q_eq] at hm; omega)
  rw [decompose_of_lt_top hm (a1 := b) (r := d + 1 + 2 * g) (by omega) (by omega) (by push_cast at hm; linarith)]
  exact ⟨by dsimp only; omega, by simp⟩

/-- A value of R215 whose high part is not `a1` is led back to it by USEHINT's step modulo M. -/
theorem decompose_of_hint {a1 v : Nat} {d : Int} (ha1 : a1 < m) (hd : |d| + 2 ≤ 2 * g)
    (hv : (v : Int) = ((a1 : Int) * (2 * g) + d) % Q) (hne : (decompose g v).1 ≠ (a1 : Int)) :
    (0 < (decompose g v).2 ∧ ((decompose g v).1 + 1) % (m : Int) = a1) ∨
      ((decompose g v).2 ≤ 0 ∧ ((decompose g v).1 - 1) % (m : Int) = a1) := by
  have hlt : v < Q := by rw [Q_eq] at *; omega
  obtain ⟨hlow, hhigh⟩ := abs_le.1 (by omega : |d| ≤ 2 * g - 2)
  rw [Ne, decompose_fst_eq_iff hm ha1 hlt] at hne
  rcases corrected_cases hm ha1 hd hv with hsum | ⟨rfl, hneg, hsum⟩
  · rcases le_or_gt d g with hbelow | habove
    · exact .inl (step_up_of_below hm ha1 (by omega) (by omega) hsum)
    · exact .inr (step_down_of_above hm ha1 habove (by omega) hsum)
  · exact .inl (step_up_of_wrapped hm (by omega) (by omega) hsum)

end

/-! ## The words of the two commands -/

theorem hintBit_eq (p : Params) (low high : Word) :
    hintBit p low high =
      if (decompose p.gamma2 ((high.toNat * (2 * p.gamma2) + low.toNat) % Q)).1 = (high.toNat : Int) then 0 else 1 :=
  rfl

theorem hintBit_eq_zero_or_one (p : Params) (low high : Word) : hintBit p low high = 0 ∨ hintBit p low high = 1 := by
  rw [hintBit_eq]
  split
  · exact .inl rfl
  · exact .inr rfl

theorem hintBit_eq_zero_iff {p : Params} {low high : Word} :
    hintBit p low high = 0 ↔
      (decompose p.gamma2 ((high.toNat * (2 * p.gamma2) + low.toNat) % Q)).1 = (high.toNat : Int) := by
  rw [hintBit_eq]
  split <;> simp [*]

/-- R213: the closed form of the hint bit. -/
theorem hintBit_eq_zero_iff_of_canonical {p : Params} (hlegal : p.legal = true) {low high : Word}
    (hlow : low.toNat < Q) (hhigh : high.toNat < p.m) :
    hintBit p low high = 0 ↔
      low.toNat ≤ p.gamma2 ∨ Q - p.gamma2 < low.toNat ∨ (low.toNat = Q - p.gamma2 ∧ high.toNat = 0) := by
  have hm := Params.m_mul_of_legal hlegal
  have hle := mul_alpha_add_alpha_le hm hhigh
  have hg := gamma2_pos hm
  rw [hintBit_eq_zero_iff, decompose_fst_eq_iff hm hhigh (Nat.mod_lt _ (by decide))]
  push_cast
  rcases Nat.eq_zero_or_pos high.toNat with hzero | hpos
  · rw [hzero, Q_eq] at *
    omega
  · have hstep : (2 * p.gamma2 : Int) ≤ high.toNat * (2 * p.gamma2) := le_mul_of_one_le_left (by omega) (by omega)
    generalize (high.toNat : Int) * (2 * p.gamma2) = centre at *
    rw [Q_eq] at *
    omega

theorem applyHint_zero (p : Params) (value : Word) :
    applyHint p value 0 = wordOfInt (decompose p.gamma2 value.toNat).1 := by
  simp [applyHint]

theorem applyHint_one_of_pos {p : Params} {value : Word} (h : 0 < (decompose p.gamma2 value.toNat).2) :
    applyHint p value 1 = wordOfInt (((decompose p.gamma2 value.toNat).1 + 1) % (p.m : Int)) := if_pos h

theorem applyHint_one_of_nonpos {p : Params} {value : Word} (h : (decompose p.gamma2 value.toNat).2 ≤ 0) :
    applyHint p value 1 = wordOfInt (((decompose p.gamma2 value.toNat).1 - 1) % (p.m : Int)) := if_neg h.not_gt

theorem wordOfInt_toNat (w : Word) : wordOfInt w.toNat = w := by
  rw [wordOfInt, BitVec.ofInt_natCast, BitVec.ofNat_toNat, BitVec.setWidth_eq]

/-- R215 on one coefficient: the value USEHINT corrects is the one MKHINT compared, so a hint of 0 keeps a right high
part and a hint of 1 moves a wrong one back. -/
theorem applyHint_hintBit {p : Params} (hlegal : p.legal = true) {low high value : Word} {d : Int}
    (hhigh : high.toNat < p.m) (hd : |d| + 2 ≤ 2 * p.gamma2) (hlow : (low.toNat : Int) = d % Q)
    (hvalue : (value.toNat : Int) = ((high.toNat : Int) * (2 * p.gamma2) + d) % Q) :
    applyHint p value (hintBit p low high) = high := by
  have hsame : (high.toNat * (2 * p.gamma2) + low.toNat) % Q = value.toNat := by
    zify
    rw [hvalue, hlow, Int.add_emod_emod]
  rw [hintBit_eq, hsame]
  split
  case isTrue hright => rw [applyHint_zero, hright, wordOfInt_toNat]
  case isFalse hwrong =>
    have hm := Params.m_mul_of_legal hlegal
    rcases decompose_of_hint hm hhigh hd hvalue hwrong with ⟨hpos, hback⟩ | ⟨hnonpos, hback⟩
    · rw [applyHint_one_of_pos hpos, hback, wordOfInt_toNat]
    · rw [applyHint_one_of_nonpos hnonpos, hback, wordOfInt_toNat]

/-! ## The tag checks (R211) -/

theorem State.sourceChecks_uninit {s : State} {t : Tag} {srcs : List Nat} (h : ∃ k ∈ srcs, s.tag k = .none) :
    firstViolated (s.sourceChecks t srcs) = some .uninit :=
  if_pos (by simpa [State.anyUntagged] using h)

theorem State.sourceChecks_domain {s : State} {t : Tag} {srcs : List Nat} (htagged : ∀ k ∈ srcs, s.tag k ≠ .none)
    (h : ∃ k ∈ srcs, s.tag k ≠ t) : firstViolated (s.sourceChecks t srcs) = some .domain :=
  (if_neg (by simpa [State.anyUntagged] using htagged)).trans (if_pos (by simpa [State.anyNot] using h))

/-! ## MKHINT -/

/-- The hint bits of two slots (R212). -/
def hintPoly (s : State) (a b : Slot) : Poly :=
  Poly.zipWords (hintBit s.env.params) (s.poly a.toNat) (s.poly b.toNat)

/-- The effect of MKHINT (R212; `exec_mkhint`). -/
def writeHints (d a b : Slot) (s : State) : State :=
  (s.setSlot d.toNat (hintPoly s a b) .std).addHints (hintWeight (hintPoly s a b))

theorem exec_mkhint (d a b : Slot) (s : State) :
    exec (.mkhint d a b) s =
      runCommand (.mkhint d a b) (s.sourceChecks .std [a.toNat, b.toNat]) (writeHints d a b) s :=
  rfl

theorem exec_mkhint_of_std {s : State} (d : Slot) {a b : Slot} (ha : s.tag a.toNat = .std) (hb : s.tag b.toNat = .std) :
    exec (.mkhint d a b) s = .next (writeHints d a b s).complete := by
  rw [exec_mkhint, runCommand_pass (State.sourceChecks_pass (by decide) (by simp [ha, hb]))]

theorem encodes_mkhint (d a b : Slot) : Encodes 0x60 d a b (.mkhint d a b) :=
  ⟨rfl, by rw [decode_mkhint (opOf_assemble (by decide) d a b), formFDAB_assemble (by decide)]⟩

theorem word_hintPoly (s : State) (a b : Slot) {i : Nat} (hi : i < 256) :
    (hintPoly s a b).word i = hintBit s.env.params (s.word a.toNat i) (s.word b.toNat i) :=
  Poly.word_zipWords _ _ _ hi

theorem word_hintPoly_eq_zero_or_one (s : State) (a b : Slot) {i : Nat} (hi : i < 256) :
    (hintPoly s a b).word i = 0 ∨ (hintPoly s a b).word i = 1 := by
  rw [word_hintPoly s a b hi]
  exact hintBit_eq_zero_or_one _ _ _

theorem sum_toNat_eq_countP_one {l : List Word} (h : ∀ w ∈ l, w = 0 ∨ w = 1) :
    (l.map BitVec.toNat).sum = l.countP (· == 1) := by
  induction l with
  | nil => rfl
  | cons w ws ih =>
    obtain ⟨hw, hws⟩ := List.forall_mem_cons.1 h
    rw [List.map_cons, List.sum_cons, ih hws, List.countP_cons, Nat.add_comm]
    rcases hw with rfl | rfl <;> rfl

/-- The weight of a polynomial of bits is the number of its ones. -/
theorem hintWeight_eq_length_filter {p : Poly} (h : ∀ i < 256, p.word i = 0 ∨ p.word i = 1) :
    hintWeight p = ((List.range 256).filter fun i => p.word i == 1).length := by
  rw [p.length_filter_word (· == 1), hintWeight, sum_toNat_eq_countP_one]
  intro w hw
  obtain ⟨i, hi, rfl⟩ := Poly.mem_words.1 hw
  exact h i hi

theorem writeHints_frame (d a b : Slot) (s : State) : CommonFrame s (writeHints d a b s).complete [d.toNat] :=
  { (Frame.setSlot s d.toNat (hintPoly s a b) .std).1 with }

theorem poly_writeHints (d a b : Slot) (s : State) : (writeHints d a b s).complete.poly d.toNat = hintPoly s a b :=
  poly_setSlot_self s d (hintPoly s a b) .std

theorem tag_writeHints (d a b : Slot) (s : State) : (writeHints d a b s).complete.tag d.toNat = .std :=
  tag_setSlot_self s d (hintPoly s a b) .std

/-- Settles O43: a hint bit is 0 iff the high part is right (`hintBit_eq_zero_iff`), which its closed form says by the
band of the corrected value (`hintBit_eq_zero_iff_of_canonical`). -/
theorem mkhintCommand : Obligations.MkhintCommand := by
  unfold Obligations.MkhintCommand
  intro s d a b hlegal
  refine ⟨encodes_mkhint d a b, fun hnone => ?uninit, fun ha hb hntt => ?domain, fun ha hb => ?completes⟩
  case uninit =>
    exact faultsAs_of_runCommand (exec_mkhint d a b s) (State.sourceChecks_uninit (by simpa using hnone))
  case domain =>
    refine faultsAs_of_runCommand (exec_mkhint d a b s) (State.sourceChecks_domain (by simp [ha, hb]) ?_)
    rcases hntt with h | h
    · exact ⟨a.toNat, by simp, by simp [h]⟩
    · exact ⟨b.toNat, by simp, by simp [h]⟩
  case completes =>
    refine ⟨_, exec_mkhint_of_std d ha hb, writeHints_frame d a b s, ⟨rfl, rfl⟩, ⟨rfl, rfl⟩, ⟨rfl, rfl⟩,
      tag_writeHints d a b s, ?_⟩
    simp only [State.word, poly_writeHints]
    refine ⟨fun i hi => word_hintPoly_eq_zero_or_one s a b hi, ?_, fun i hi => ?_, fun i hi hlow hhigh => ?_⟩
    · rw [← hintWeight_eq_length_filter fun i hi => word_hintPoly_eq_zero_or_one s a b hi]
      rfl
    · rw [word_hintPoly s a b hi]
      exact hintBit_eq_zero_iff
    · rw [word_hintPoly s a b hi]
      exact hintBit_eq_zero_iff_of_canonical hlegal hlow hhigh

/-! ## The round trip -/

/-- The effect of USEHINT (R214; `exec_usehint`). -/
def writeCorrected (d a b : Slot) (s : State) : State :=
  s.setSlot d.toNat (Poly.zipWords (applyHint s.env.params) (s.poly a.toNat) (s.poly b.toNat)) .std

theorem exec_usehint (d a b : Slot) (s : State) :
    exec (.usehint d a b) s =
      runCommand (.usehint d a b) (s.sourceChecks .std [a.toNat, b.toNat]) (writeCorrected d a b) s :=
  rfl

theorem exec_usehint_of_std {s : State} (d : Slot) {a b : Slot} (ha : s.tag a.toNat = .std)
    (hb : s.tag b.toNat = .std) :
    exec (.usehint d a b) s = .next (writeCorrected d a b s).complete := by
  rw [exec_usehint, runCommand_pass (State.sourceChecks_pass (by decide) (by simp [ha, hb]))]

theorem word_writeCorrected (d a b : Slot) (s : State) {i : Nat} (hi : i < 256) :
    (writeCorrected d a b s).complete.word d.toNat i =
      applyHint s.env.params (s.word a.toNat i) (s.word b.toNat i) :=
  (word_setSlot_self s d _ .std i).trans (Poly.word_zipWords _ _ _ hi)

/-- Settles O45: MKHINT leaves the values alone, so USEHINT meets them with their hints, and `applyHint_hintBit` is the
round trip of each coefficient. -/
theorem hintRoundTrip : Obligations.HintRoundTrip := by
  unfold Obligations.HintRoundTrip
  intro s h low high val r delta hlegal hne hlow hhigh hval hwords
  have hkept : (writeHints h low high s).complete.poly val.toNat = s.poly val.toNat ∧
      (writeHints h low high s).complete.tag val.toNat = s.tag val.toNat :=
    (writeHints_frame h low high s).slots val.toNat (by simpa [BitVec.toNat_inj] using hne.symm)
  refine ⟨_, _, exec_mkhint_of_std h hlow hhigh,
    exec_usehint_of_std r (hkept.2.trans hval) (tag_writeHints h low high s), fun i hi => ?_⟩
  obtain ⟨hw1, hdelta, hlowWord, hvalWord⟩ := hwords i hi
  rw [word_writeCorrected r val h _ hi, State.word, State.word, hkept.1, poly_writeHints, word_hintPoly s low high hi]
  exact applyHint_hintBit hlegal hw1 (by omega) hlowWord hvalWord

end Sys2Proof.Machine
end

section
/-! PROOFS. The decoder read backwards (30_encoding.md R95, R96): a word that decodes to a command is the encoding of
that command. One lemma per format of R91. -/

namespace Sys2Proof

theorem ifUnusedZero_eq_ok {unused : List Slot} {i j : Instr} :
    ifUnusedZero unused i = .ok j ↔ (∀ x ∈ unused, x = 0) ∧ i = j := by
  simp [ifUnusedZero, ite_eq_iff]

section
variable {w : Word} {op : Nat} {i : Instr} (hop : opOf w = op)
include hop

theorem encode_of_formF0 {j : Instr} (henc : encode j = assemble op 0 0 0) (h : formF0 w j = .ok i) :
    encode i = w := by
  obtain ⟨hzero, rfl⟩ := ifUnusedZero_eq_ok.1 h
  have hfields := assemble_fields w
  rwa [hop, hzero (dOf w) (by simp), hzero (aOf w) (by simp), hzero (bOf w) (by simp), ← henc] at hfields

theorem encode_of_formFD {f : Slot → Instr} (henc : ∀ d, encode (f d) = assemble op d 0 0)
    (h : formFD w f = .ok i) : encode i = w := by
  obtain ⟨hzero, rfl⟩ := ifUnusedZero_eq_ok.1 h
  have hfields := assemble_fields w
  rwa [hop, hzero (aOf w) (by simp), hzero (bOf w) (by simp), ← henc] at hfields

theorem encode_of_formFA {f : Slot → Instr} (henc : ∀ a, encode (f a) = assemble op 0 a 0)
    (h : formFA w f = .ok i) : encode i = w := by
  obtain ⟨hzero, rfl⟩ := ifUnusedZero_eq_ok.1 h
  have hfields := assemble_fields w
  rwa [hop, hzero (dOf w) (by simp), hzero (bOf w) (by simp), ← henc] at hfields

theorem encode_of_formFDA {f : Slot → Slot → Instr} (henc : ∀ d a, encode (f d a) = assemble op d a 0)
    (h : formFDA w f = .ok i) : encode i = w := by
  obtain ⟨hzero, rfl⟩ := ifUnusedZero_eq_ok.1 h
  have hfields := assemble_fields w
  rwa [hop, hzero (bOf w) (by simp), ← henc] at hfields

theorem encode_of_formFDAB {f : Slot → Slot → Slot → Instr} (henc : ∀ d a b, encode (f d a b) = assemble op d a b)
    (h : formFDAB w f = .ok i) : encode i = w := by
  cases h
  rw [henc, ← hop, assemble_fields]

theorem encode_of_formFDT {f : Slot → BitVec 8 → Instr} (henc : ∀ d code, encode (f d code) = assemble op d 0 code)
    (h : formFDT w f = .ok i) : encode i = w := by
  unfold formFDT at h
  split at h
  case isTrue hnonzero => cases h
  case isFalse hzero =>
    split at h <;> cases h
    have hfields := assemble_fields w
    rwa [hop, not_not.1 hzero, ← henc] at hfields

end

theorem encode_nop : encode .nop = 0 := rfl

/-- A word selects a command only as that command's encoding: by opcode, each branch of `decode` is one format. -/
theorem encode_of_decode {w : Word} {i : Instr} (h : decode w = .ok i) : encode i = w := by
  unfold decode at h
  split at h
  case h_1 hop => exact encode_of_formF0 hop encode_nop h
  case h_2 hop => exact encode_of_formFDT hop (fun _ _ => rfl) h
  case h_3 hop | h_4 hop | h_8 hop | h_9 hop | h_10 hop | h_11 hop =>
    exact encode_of_formFDA hop (fun _ _ => rfl) h
  case h_5 hop | h_6 hop | h_7 hop | h_12 hop | h_13 hop | h_15 hop | h_21 hop | h_22 hop =>
    exact encode_of_formFDAB hop (fun _ _ _ => rfl) h
  case h_14 hop => exact encode_of_formFA hop (fun _ => rfl) h
  case h_16 hop | h_17 hop | h_18 hop | h_19 hop | h_20 hop => exact encode_of_formFD hop (fun _ => rfl) h
  case h_23 => cases h

end Sys2Proof
end

section
/-! PROOFS. NOP (47_system.md R221): its effect, its one encoding and the refusal of its write while `FAULT` is 1. -/

namespace Sys2Proof.Machine

theorem exec_nop (s : State) : exec .nop s = .next s.complete :=
  runCommand_pass (i := .nop) firstViolated_nil

/-- The zero word is the one encoding of NOP (R95). -/
theorem decode_eq_nop_iff {w : Word} : decode w = .ok .nop ↔ w = 0 := by
  constructor
  · intro h
    exact (encode_of_decode h).symm.trans encode_nop
  · rintro rfl
    rfl

/-- With op 0x00 every nonzero word is illegal: format F0 offers NOP alone (R91, R221). -/
theorem decode_illegal_of_op_zero {w : Word} (hop : opOf w = 0x00) (hne : w ≠ 0) : ∃ e, decode w = .error e := by
  cases h : decode w with
  | error e => exact ⟨e, rfl⟩
  | ok i =>
    obtain ⟨-, rfl⟩ := ifUnusedZero_eq_ok.1 ((decode_nop hop).symm.trans h)
    exact absurd (decode_eq_nop_iff.1 h) hne

/-- A word write to 0x10 reaches `CMD` (R29). -/
theorem perform_write_cmd (s : State) (v : Word) : s.perform (.write 0x10 4 v) = s.writeCmd v := rfl

/-- While `FAULT` is 1 a `CMD` write gets a bus error, whatever its word (R239). -/
theorem State.writeCmd_of_fault {s : State} (h : s.fault = true) (w : Word) :
    s.writeCmd w = .refused (.busError .cmdWhileFault) :=
  if_pos h

/-- Settles O7: NOP checks nothing and has no effect but its completion, and `decode_eq_nop_iff` is its encoding. -/
theorem nopCommand : Obligations.NopCommand := by
  unfold Obligations.NopCommand
  refine ⟨exec_nop, encode_nop, fun w => decode_eq_nop_iff, fun w => decode_illegal_of_op_zero,
    fun s rest hlegal hfault => ?_⟩
  rw [step_cons hlegal, perform_write_cmd]
  exact State.writeCmd_of_fault (s := { s with pending := rest }) hfault 0

end Sys2Proof.Machine
end

section
/-! PROOFS. Legality by the opcode table (30_encoding.md R95, 60_exceptions.md R232): masks compared field by field leave
one row for an opcode, and what that row asks of the other fields is what the decoder's format asks (R91, R96). -/

namespace Sys2Proof

/-! ## Words compared field by field -/

theorem opOf_lt (w : Word) : opOf w < 256 := by
  have := w.isLt
  unfold opOf
  omega

/-- A row's test on a word is a test on each of the four fields (R90). -/
theorem and_eq_iff_fields (w mask pattern : Word) :
    w &&& mask = pattern ↔ opOf w &&& opOf mask = opOf pattern ∧ dOf w &&& dOf mask = dOf pattern ∧
      aOf w &&& aOf mask = aOf pattern ∧ bOf w &&& bOf mask = bOf pattern := by
  have hand : w &&& mask = assemble (opOf w &&& opOf mask) (dOf w &&& dOf mask) (aOf w &&& aOf mask)
      (bOf w &&& bOf mask) := by
    rw [← assemble_and, assemble_fields, assemble_fields]
  constructor
  · rintro rfl
    have hop : opOf w &&& opOf mask < 256 := Nat.and_le_left.trans_lt (opOf_lt w)
    rw [hand, opOf_assemble hop, dOf_assemble hop, aOf_assemble hop, bOf_assemble hop]
    exact ⟨rfl, rfl, rfl, rfl⟩
  · rintro ⟨hop, hd, ha, hb⟩
    rw [hand, hop, hd, ha, hb, assemble_fields]

/-! ## The row of an opcode -/

/-- The row of the opcode table for an opcode. -/
def rowOf (op : Nat) : Option OpcodeRow := opcodeTable.find? fun r => opOf r.pattern == op

theorem rowOf_eq_some {op : Nat} {r : OpcodeRow} (h : rowOf op = some r) : r ∈ opcodeTable ∧ opOf r.pattern = op := by
  have hop := List.find?_some h
  exact ⟨List.mem_of_find?_eq_some h, eq_of_beq hop⟩

/-- The opcodes that have a row are the 22 of R95. -/
theorem mem_of_rowOf_eq_some {op : Nat} {r : OpcodeRow} (h : rowOf op = some r) :
    op ∈ [0x00, 0x01, 0x10, 0x11, 0x12, 0x13, 0x14, 0x15, 0x16, 0x17, 0x18, 0x20, 0x21, 0x22, 0x30, 0x40, 0x41, 0x42,
      0x43, 0x50, 0x60, 0x61] := by
  obtain ⟨hr, rfl⟩ := rowOf_eq_some h
  exact List.mem_map_of_mem (f := fun r => opOf r.pattern) hr

/-- What a row asks of the fields beside the opcode: those under its mask are zero, and SETTAG's b is not 3. -/
def OpcodeRow.FieldsFit (r : OpcodeRow) (w : Word) : Prop :=
  dOf w &&& dOf r.mask = 0 ∧ aOf w &&& aOf r.mask = 0 ∧ bOf w &&& bOf r.mask = 0 ∧
    ¬(r.mnemonic = "SETTAG" ∧ bOf w = 3)

/-- Every row is the row of its opcode, masks the whole opcode and has a pattern with no other field set. -/
theorem opcodeTable_rows : ∀ r ∈ opcodeTable, rowOf (opOf r.pattern) = some r ∧ opOf r.mask = 0xFF ∧
    dOf r.pattern = 0 ∧ aOf r.pattern = 0 ∧ bOf r.pattern = 0 := by
  decide

theorem row_matches_iff {r : OpcodeRow} (hr : r ∈ opcodeTable) (w : Word) :
    (w &&& r.mask = r.pattern ∧ ¬(r.mnemonic = "SETTAG" ∧ bOf w = 3)) ↔
      opOf w = opOf r.pattern ∧ r.FieldsFit w := by
  obtain ⟨-, hmask, hd, ha, hb⟩ := opcodeTable_rows r hr
  have hop : opOf w &&& 0xFF = opOf w := by
    rw [Nat.and_two_pow_sub_one_eq_mod _ 8, Nat.mod_eq_of_lt (opOf_lt w)]
  rw [and_eq_iff_fields, hmask, hop, hd, ha, hb, OpcodeRow.FieldsFit]
  simp only [and_assoc]

theorem legalWord_iff (w : Word) :
    legalWord w = true ↔
      ∃ r ∈ opcodeTable, w &&& r.mask = r.pattern ∧ ¬(r.mnemonic = "SETTAG" ∧ bOf w = 3) := by
  simp [legalWord, or_iff_not_imp_left]

/-- A word is legal by the table iff its opcode has a row and its fields fit that row. -/
theorem legalWord_iff_rowOf (w : Word) : legalWord w = true ↔ ∃ r, rowOf (opOf w) = some r ∧ r.FieldsFit w := by
  rw [legalWord_iff]
  constructor
  · rintro ⟨r, hr, hmatch⟩
    obtain ⟨hop, hfit⟩ := (row_matches_iff hr w).1 hmatch
    obtain ⟨hrow, -⟩ := opcodeTable_rows r hr
    exact ⟨r, hop ▸ hrow, hfit⟩
  · rintro ⟨r, hrow, hfit⟩
    obtain ⟨hr, hop⟩ := rowOf_eq_some hrow
    exact ⟨r, hr, (row_matches_iff hr w).2 ⟨hop.symm, hfit⟩⟩

theorem legalWord_iff_of_op {w : Word} {op : Nat} {r : OpcodeRow} (hop : opOf w = op) (hrow : rowOf op = some r) :
    legalWord w = true ↔ r.FieldsFit w := by
  simp [legalWord_iff_rowOf, hop, hrow]

/-! ## What each format asks of the fields is what its mask asks -/

/-- A field the mask covers. -/
theorem and_full (x : Slot) : x &&& 0xFF#8 = x := BitVec.and_allOnes

/-- Under SETTAG's mask the codes 0 to 3 are left, of which 3 is excluded (R93, R95). -/
theorem tag_code_iff : ∀ b : BitVec 8, (b &&& 0xFC = 0 ∧ b ≠ 3) ↔ b.toNat < 3 := by decide

theorem fieldsFit_iff {r : OpcodeRow} {md ma mb : Slot} (hmask : r.mask = assemble 0xFF md ma mb) (w : Word) :
    r.FieldsFit w ↔ dOf w &&& md = 0 ∧ aOf w &&& ma = 0 ∧ bOf w &&& mb = 0 ∧
      ¬(r.mnemonic = "SETTAG" ∧ bOf w = 3) := by
  rw [OpcodeRow.FieldsFit, hmask, dOf_assemble (by decide), aOf_assemble (by decide), bOf_assemble (by decide)]

section
variable {r : OpcodeRow} {w : Word}

theorem exists_ifUnusedZero_eq_ok {unused : List Slot} {i : Instr} :
    (∃ j, ifUnusedZero unused i = .ok j) ↔ ∀ x ∈ unused, x = 0 := by
  simp [ifUnusedZero_eq_ok]

theorem formF0_ok_iff {i : Instr} (hmask : r.mask = assemble 0xFF 0xFF 0xFF 0xFF) (hname : r.mnemonic ≠ "SETTAG") :
    (∃ j, formF0 w i = .ok j) ↔ r.FieldsFit w := by
  simp [formF0, exists_ifUnusedZero_eq_ok, fieldsFit_iff hmask, and_full, hname]

theorem formFD_ok_iff {f : Slot → Instr} (hmask : r.mask = assemble 0xFF 0 0xFF 0xFF) (hname : r.mnemonic ≠ "SETTAG") :
    (∃ j, formFD w f = .ok j) ↔ r.FieldsFit w := by
  simp [formFD, exists_ifUnusedZero_eq_ok, fieldsFit_iff hmask, and_full, hname]

theorem formFA_ok_iff {f : Slot → Instr} (hmask : r.mask = assemble 0xFF 0xFF 0 0xFF) (hname : r.mnemonic ≠ "SETTAG") :
    (∃ j, formFA w f = .ok j) ↔ r.FieldsFit w := by
  simp [formFA, exists_ifUnusedZero_eq_ok, fieldsFit_iff hmask, and_full, hname]

theorem formFDA_ok_iff {f : Slot → Slot → Instr} (hmask : r.mask = assemble 0xFF 0 0 0xFF)
    (hname : r.mnemonic ≠ "SETTAG") : (∃ j, formFDA w f = .ok j) ↔ r.FieldsFit w := by
  simp [formFDA, exists_ifUnusedZero_eq_ok, fieldsFit_iff hmask, and_full, hname]

theorem formFDAB_ok_iff {f : Slot → Slot → Slot → Instr} (hmask : r.mask = assemble 0xFF 0 0 0)
    (hname : r.mnemonic ≠ "SETTAG") : (∃ j, formFDAB w f = .ok j) ↔ r.FieldsFit w := by
  simp [formFDAB, fieldsFit_iff hmask, hname]

theorem formFDT_ok_iff {f : Slot → BitVec 8 → Instr} (hmask : r.mask = assemble 0xFF 0 0xFF 0xFC)
    (hname : r.mnemonic = "SETTAG") : (∃ j, formFDT w f = .ok j) ↔ r.FieldsFit w := by
  have hform : (∃ j, formFDT w f = .ok j) ↔ aOf w = 0 ∧ (bOf w).toNat < 3 := by
    simp [formFDT, ite_eq_iff]
  rw [hform, ← tag_code_iff]
  simp [fieldsFit_iff hmask, and_full, hname]

end

/-! ## The decoder and the table agree -/

/-- R232: a word decodes iff the table makes it legal; by opcode, the format's conditions are its row's. -/
theorem decode_ok_iff_legalWord (w : Word) : (∃ i, decode w = .ok i) ↔ legalWord w = true := by
  unfold decode
  split
  case h_1 hop =>
    rw [legalWord_iff_of_op hop rfl]
    exact formF0_ok_iff rfl (by decide)
  case h_2 hop =>
    rw [legalWord_iff_of_op hop rfl]
    exact formFDT_ok_iff rfl rfl
  case h_3 hop | h_4 hop | h_8 hop | h_9 hop | h_10 hop | h_11 hop =>
    rw [legalWord_iff_of_op hop rfl]
    exact formFDA_ok_iff rfl (by decide)
  case h_5 hop | h_6 hop | h_7 hop | h_12 hop | h_13 hop | h_15 hop | h_21 hop | h_22 hop =>
    rw [legalWord_iff_of_op hop rfl]
    exact formFDAB_ok_iff rfl (by decide)
  case h_14 hop =>
    rw [legalWord_iff_of_op hop rfl]
    exact formFA_ok_iff rfl (by decide)
  case h_16 hop | h_17 hop | h_18 hop | h_19 hop | h_20 hop =>
    rw [legalWord_iff_of_op hop rfl]
    exact formFD_ok_iff rfl (by decide)
  case h_23 =>
    have hnone (r : OpcodeRow) : rowOf (opOf w) ≠ some r := fun hrow => by
      have hmem := mem_of_rowOf_eq_some hrow
      simp_all
    simp [legalWord_iff_rowOf, hnone]

end Sys2Proof
end

section
/-! PROOFS. A write to `CMD` while no fault is recorded (10_state.md R33, 60_exceptions.md R232): the command the word
selects, or `F_ILLEGAL`. -/

namespace Sys2Proof.Machine

theorem State.writeCmd_of_no_fault {s : State} (h : s.fault = false) (w : Word) : s.writeCmd w = runWord w s :=
  if_neg (by simp [h])

theorem runWord_of_decode {w : Word} {i : Instr} (h : decode w = .ok i) (s : State) : runWord w s = exec i s := by
  rw [runWord, h]

theorem runWord_of_illegal {w : Word} (h : ¬∃ i, decode w = .ok i) (s : State) :
    runWord w s = .next (s.raise .illegal w) := by
  cases hdec : decode w with
  | ok i => exact absurd ⟨i, hdec⟩ h
  | error e => rw [runWord, hdec]

/-- With no fault recorded, a pending `CMD` write hands its word to the command engine (R33, R104). -/
theorem step_write_cmd {s : State} {w : Word} {rest : List HostOp} (hlegal : s.env.params.legal = true)
    (hfault : s.fault = false) (hpending : s.pending = .write 0x10 4 w :: rest) :
    step s = runWord w { s with pending := rest } := by
  have hstep := step_cons hlegal (.write 0x10 4 w) rest
  rw [← hpending, perform_write_cmd] at hstep
  exact hstep.trans (State.writeCmd_of_no_fault (s := { s with pending := rest }) hfault w)

/-- Settles O6: the command engine runs what `decode` selects and faults otherwise, and `decode` selects a command
exactly where a row of the table matches. -/
theorem illegalWordFaults : Obligations.IllegalWordFaults := by
  unfold Obligations.IllegalWordFaults
  intro s w rest hlegal hfault hpending
  rw [step_write_cmd hlegal hfault hpending, ← legalWord_iff, ← decode_ok_iff_legalWord]
  constructor
  · rintro ⟨i, hdec⟩
    exact ⟨i, hdec, runWord_of_decode hdec _⟩
  · intro hillegal
    exact runWord_of_illegal hillegal _

end Sys2Proof.Machine
end

section
/-! PROOFS. The decoder undoes the encoder (30_encoding.md R90, R91, R95), by format; with the converse, each command has
one encoding (R96, R98), and the legal words are the table's (60_exceptions.md R232). -/

namespace Sys2Proof.Machine

section
variable {op : Nat} (hop : op < 256)
include hop

theorem decode_assemble_formFD {f : Slot → Instr} (hdec : ∀ {w}, opOf w = op → decode w = formFD w f) (d : Slot) :
    decode (assemble op d 0 0) = .ok (f d) := by
  rw [hdec (opOf_assemble hop ..), formFD_assemble hop]

theorem decode_assemble_formFA {f : Slot → Instr} (hdec : ∀ {w}, opOf w = op → decode w = formFA w f) (a : Slot) :
    decode (assemble op 0 a 0) = .ok (f a) := by
  rw [hdec (opOf_assemble hop ..), formFA_assemble hop]

theorem decode_assemble_formFDA {f : Slot → Slot → Instr} (hdec : ∀ {w}, opOf w = op → decode w = formFDA w f)
    (d a : Slot) : decode (assemble op d a 0) = .ok (f d a) := by
  rw [hdec (opOf_assemble hop ..), formFDA_assemble hop]

theorem decode_assemble_formFDAB {f : Slot → Slot → Slot → Instr}
    (hdec : ∀ {w}, opOf w = op → decode w = formFDAB w f) (d a b : Slot) :
    decode (assemble op d a b) = .ok (f d a b) := by
  rw [hdec (opOf_assemble hop ..), formFDAB_assemble hop]

end

/-- SETTAG decodes from its encoding exactly where its code is a tag's (R93, R96). -/
theorem decode_encode_settag_iff {d : Slot} {code : BitVec 8} :
    decode (encode (.settag d code)) = .ok (.settag d code) ↔ code.toNat < 3 := by
  rw [encode, decode_settag (opOf_assemble (by decide) ..)]
  constructor
  · rw [formFDT, aOf_assemble (by decide), bOf_assemble (by decide), if_neg (by decide)]
    split
    case isTrue hcode => exact fun _ => hcode
    case isFalse => exact nofun
  · exact fun hcode => formFDT_assemble (by decide) d hcode _

/-- R95: a well-formed command decodes from its encoding; by command, the encoding has the command's opcode and format. -/
theorem decode_encode {i : Instr} (hwf : i.wellFormed = true) : decode (encode i) = .ok i := by
  cases i with
  | nop => rfl
  | settag d code => exact decode_encode_settag_iff.2 (of_decide_eq_true hwf)
  | ntt d a => exact decode_assemble_formFDA (by decide) decode_ntt d a
  | invntt d a => exact decode_assemble_formFDA (by decide) decode_invntt d a
  | pwmul d a b => exact decode_assemble_formFDAB (by decide) decode_pwmul d a b
  | add d a b => exact decode_assemble_formFDAB (by decide) decode_add d a b
  | sub d a b => exact decode_assemble_formFDAB (by decide) decode_sub d a b
  | reduce d a => exact decode_assemble_formFDA (by decide) decode_reduce d a
  | csubq d a => exact decode_assemble_formFDA (by decide) decode_csubq d a
  | freeze d a => exact decode_assemble_formFDA (by decide) decode_freeze d a
  | shld d a => exact decode_assemble_formFDA (by decide) decode_shld d a
  | p2r d a b => exact decode_assemble_formFDAB (by decide) decode_p2r d a b
  | decomp d a b => exact decode_assemble_formFDAB (by decide) decode_decomp d a b
  | chknorm a => exact decode_assemble_formFA (by decide) decode_chknorm a
  | pwacc d a b => exact decode_assemble_formFDAB (by decide) decode_pwacc d a b
  | expmat d => exact decode_assemble_formFD (by decide) decode_expmat d
  | sunif d => exact decode_assemble_formFD (by decide) decode_sunif d
  | seta d => exact decode_assemble_formFD (by decide) decode_seta d
  | sgam1 d => exact decode_assemble_formFD (by decide) decode_sgam1 d
  | chal d => exact decode_assemble_formFD (by decide) decode_chal d
  | mkhint d a b => exact decode_assemble_formFDAB (by decide) decode_mkhint d a b
  | usehint d a b => exact decode_assemble_formFDAB (by decide) decode_usehint d a b

/-- Settles O1: the decoder undoes the encoder. -/
theorem decodeOfEncode : Obligations.DecodeOfEncode := by
  unfold Obligations.DecodeOfEncode
  exact fun i hwf => decode_encode hwf

/-- What decodes is well formed: SETTAG's code was checked by the decoder, and no other command can be ill formed. -/
theorem wellFormed_of_decode {w : Word} {i : Instr} (h : decode w = .ok i) : i.wellFormed = true := by
  cases i with
  | settag d code =>
    rw [← encode_of_decode h] at h
    exact decide_eq_true (decode_encode_settag_iff.1 h)
  | _ => rfl

/-- Settles O2: `encode_of_decode` gives the word back, and the decoder checked SETTAG's code. -/
theorem encodeOfDecode : Obligations.EncodeOfDecode := by
  unfold Obligations.EncodeOfDecode
  exact fun w i h => ⟨wellFormed_of_decode h, encode_of_decode h⟩

/-- Settles O3: the decoder and the table agree (`decode_ok_iff_legalWord`). -/
theorem legalWordsAreTheTables : Obligations.LegalWordsAreTheTables := by
  unfold Obligations.LegalWordsAreTheTables
  exact fun w => (decode_ok_iff_legalWord w).trans (legalWord_iff w)

/-- A well-formed command's one encoding is the word its fields assemble to. -/
theorem encodes_of_encode_eq {op : Nat} {d a b : Slot} {i : Instr} (hwf : i.wellFormed = true)
    (h : encode i = assemble op d a b) : Encodes op d a b i :=
  ⟨h, h ▸ decode_encode hwf⟩

/-- Settles O4: the decoder runs on the thirteen words. -/
theorem printedWordsDecode : Obligations.PrintedWordsDecode := by
  unfold Obligations.PrintedWordsDecode
  decide

/-- A command word placed by `withFetchWord` is a pending `CMD` write of that word (R104). -/
theorem State.withFetchWord_toNat (s : State) (w : Word) :
    s.withFetchWord 32 w.toNat = { s with pending := .write 0x10 4 w :: s.pending } := by
  rw [State.withFetchWord, Nat.mod_eq_of_lt w.isLt, BitVec.ofNat_toNat, BitVec.setWidth_eq]
  rfl

/-- Settles O5: either way the next operation is a `CMD` write of the word, which runs the command it decodes to. -/
theorem stepRunsTheCommand : Obligations.StepRunsTheCommand := by
  unfold Obligations.StepRunsTheCommand
  intro s w i rest hlegal hfault hdec
  have hrun {t : State} {rest : List HostOp} (hlegal : t.env.params.legal = true) (hfault : t.fault = false)
      (hpending : t.pending = .write 0x10 4 w :: rest) : step t = exec i { t with pending := rest } := by
    rw [step_write_cmd hlegal hfault hpending, runWord_of_decode hdec]
  refine ⟨hrun hlegal hfault, ?_⟩
  rw [State.withFetchWord_toNat]
  exact hrun hlegal hfault rfl

end Sys2Proof.Machine
end

section
/-! PROOFS. What every step keeps (60_exceptions.md R231, R236; 10_state.md R31, R37, R41): the invariant, piece by piece
through the ends of a command (`exec_ends`) and the host operations (`perform_cases`, `busWrite_cases`). -/

namespace Sys2Proof.Machine

/-- Settles O47: the reset buffer is empty and no flag is set. -/
theorem resetMeetsInvariant : Obligations.ResetMeetsInvariant where
  memory := Memory.wf_nil
  clear _ := ⟨rfl, rfl⟩
  recorded := nofun
  wrapped := nofun
  sticky := nofun

theorem State.Inv.raise {s : State} (h : s.Inv) (c : FaultCode) (w : Word) : (s.raise c w).Inv :=
  { h with
    clear := nofun
    recorded := fun _ => c.code_range }

theorem State.Inv.abort {s : State} (h : s.Inv) (c : FaultCode) (w : Word) (dests : List Nat) :
    (s.abort c w dests).Inv := by
  rw [abort_fields]
  exact { h.raise c w with }

theorem State.Inv.resetBlock (s : State) : s.resetBlock.Inv :=
  { resetMeetsInvariant with }

/-- An effect keeps the invariant: the commands that touch its fields are CHKNORM, which sets `REJ` with `NORM` (R148),
and the seed samplers, which set `NOVF` where `NONCE` wraps (R37). -/
theorem State.Inv.effect {i : Instr} {s u : State} (h : s.Inv) (he : Effect i s u) : u.Inv := by
  cases i with
  | chknorm a =>
    rw [he]
    exact { h with sticky := fun hnorm => Bool.or_eq_true_iff.2 (.inr hnorm) }
  | sunif d | seta d | sgam1 d =>
    rw [he.2]
    refine { h with wrapped := fun hnovf => ?_ }
    have hlast : s.nonce = 0xFFFF := eq_of_beq hnovf
    show s.nonce + 1 = 0
    rw [hlast]
    rfl
  | _ =>
    rw [he]
    exact { h with }

theorem State.Inv.exec {i : Instr} {s t : State} (h : s.Inv) (ht : exec i s = .next t) : t.Inv := by
  rcases exec_ends ht with ⟨c, -, rfl⟩ | ⟨u, he, rfl⟩ | ⟨-, c, dests, -, rfl⟩
  · exact h.raise c _
  · exact { h.effect he with }
  · exact h.abort c _ dests

theorem State.Inv.runWord {w : Word} {s t : State} (h : s.Inv) (ht : runWord w s = .next t) : t.Inv := by
  rcases runWord_cases ht with ⟨i, -, hexec⟩ | ⟨-, rfl⟩
  · exact h.exec hexec
  · exact h.raise _ _

theorem State.Inv.clearFault {s : State} (h : s.Inv) : s.clearFault.Inv :=
  { h with
    clear := fun _ => ⟨rfl, rfl⟩
    recorded := nofun }

theorem State.Inv.clearRej {s : State} (h : s.Inv) : s.clearRej.Inv :=
  { h with sticky := nofun }

theorem State.Inv.writeCtrl {s : State} (h : s.Inv) (v : Word) : (s.writeCtrl v).Inv := by
  unfold State.writeCtrl
  split
  case isTrue => exact .resetBlock s
  case isFalse =>
    have hfault : (if v.getLsbD 1 then s.clearFault else s).Inv := by split <;> [exact h.clearFault; exact h]
    have hrej (s : State) (h : s.Inv) : (if v.getLsbD 2 then s.clearRej else s).Inv := by
      split <;> [exact h.clearRej; exact h]
    have hhint (s : State) (h : s.Inv) : (if v.getLsbD 3 then s.clearHints else s).Inv := by
      split <;> [exact { h with }; exact h]
    exact hhint _ (hrej _ hfault)

theorem State.Inv.busWrite {s t : State} {addr : BitVec 19} {bytes : Nat} {v : Word} (h : s.Inv)
    (ht : s.busWrite addr bytes v = .next t) : t.Inv := by
  rcases busWrite_cases ht with ⟨-, rfl⟩ | ⟨-, -, hrun⟩ | ⟨-, rfl⟩ | ⟨-, rfl⟩ | ⟨-, rfl⟩ | ⟨n, haddr, rfl⟩ | ⟨k, i, -, rfl⟩
  · exact h.writeCtrl v
  · exact h.runWord hrun
  · exact { h with }
  · exact { h with wrapped := nofun }
  · exact { h with }
  · have hin := access_abuf haddr
    exact { h with memory := Memory.wf_write h.memory (Nat.le_add_right _ n) (by rw [length_wordBytes]; omega) }
  · exact { h with }

theorem State.Inv.perform {s t : State} {op : HostOp} (h : s.Inv) (ht : s.perform op = .next t) : t.Inv := by
  rcases perform_cases ht with ⟨addr, bytes, v, -, -, rfl⟩ | ⟨addr, bytes, v, -, hwrite⟩ | ⟨-, rfl⟩
  · exact { h with }
  · exact h.busWrite hwrite
  · exact .resetBlock s

/-- Settles O48: a step is idle or performs one host operation, and each operation keeps the invariant. -/
theorem stepKeepsInvariant : Obligations.StepKeepsInvariant := by
  unfold Obligations.StepKeepsInvariant
  intro s t h ht
  obtain ⟨-, ⟨-, rfl⟩ | ⟨op, rest, -, hop⟩⟩ := step_cases ht
  · exact h
  · exact State.Inv.perform (s := { s with pending := rest }) { h with } hop

end Sys2Proof.Machine
end

section
/-! PROOFS. The rules over all commands (10_state.md R34 to R43, 60_exceptions.md R236, R244): each is read off the three
ends a command can have (`exec_ends`). -/

namespace Sys2Proof.Machine

/-- A session fault's code is 7 or 8, so it is none of the decode-time codes. -/
theorem FaultCode.code_of_session {c : FaultCode} (h : c = .xofLim ∨ c = .xofErr) : c.code ∈ ([7, 8] : List (BitVec 4)) := by
  rcases h with rfl | rfl <;> decide

/-- Settles O49: a completing command counts itself, and neither kind of fault does. -/
theorem commandCounter : Obligations.CommandCounter := by
  unfold Obligations.CommandCounter
  intro s t i hfault ht
  rcases exec_ends ht with ⟨c, -, rfl⟩ | ⟨u, he, rfl⟩ | ⟨-, c, dests, -, rfl⟩
  · exact ⟨nofun, fun _ => rfl⟩
  · have hkept := he.kept
    refine ⟨fun _ => ?_, fun h => ?_⟩
    · rw [State.complete_cmdcnt, hkept.cmdcnt]
      exact BitVec.toNat_add ..
    · rw [State.complete_fault, hkept.fault, hfault] at h
      cases h
  · exact ⟨fun h => by simp at h, fun _ => State.abort_cmdcnt ..⟩

/-- Settles O50: a code of at most 6 is no session fault's, and the other faults are precise. -/
theorem decodeFaultsArePrecise : Obligations.DecodeFaultsArePrecise := by
  unfold Obligations.DecodeFaultsArePrecise
  intro s t i hfault ht htfault hcode
  rcases exec_ends ht with ⟨c, -, rfl⟩ | ⟨u, he, rfl⟩ | ⟨-, c, dests, hc, rfl⟩
  · exact ⟨c.code_range.1, rfl⟩
  · rw [State.complete_fault, he.kept.fault, hfault] at htfault
    cases htfault
  · rw [State.abort_fcode, FaultCode.code_le_six] at hcode
    exact (hc.elim hcode.1 hcode.2).elim

/-- A command that faults has recorded one of its decode-time causes, or, if it runs sessions, a session's. -/
theorem fcode_of_fault {i : Instr} {s t : State} (hfault : s.fault = false) (ht : exec i s = .next t)
    (htfault : t.fault = true) :
    (∃ c ∈ Instr.decodeFaults i, t.fcode = c.code) ∨
      (Instr.streams i = true ∧ t.fcode ∈ ([7, 8] : List (BitVec 4))) := by
  rcases exec_ends ht with ⟨c, hc, rfl⟩ | ⟨u, he, rfl⟩ | ⟨hi, c, dests, hc, rfl⟩
  · exact .inl ⟨c, hc, rfl⟩
  · rw [State.complete_fault, he.kept.fault, hfault] at htfault
    cases htfault
  · exact .inr ⟨hi, FaultCode.code_of_session hc⟩

end Sys2Proof.Machine
end

section
/-! PROOFS. Which faults a command can raise and which fields it can write (10_state.md R43, 60_exceptions.md R244). -/

namespace Sys2Proof.Machine

/-- A well-formed code of SETTAG names a tag (30_encoding.md R93). -/
theorem exists_tagOfCode {code : BitVec 8} (h : code.toNat < 3) : ∃ t, tagOfCode code = some t := by
  obtain hcode | hcode | hcode : code.toNat = 0 ∨ code.toNat = 1 ∨ code.toNat = 2 := by omega
  all_goals simp [tagOfCode, hcode]

theorem exec_settag_of_tag {code : BitVec 8} {tag : Tag} (h : tagOfCode code = some tag) (d : Slot) (s : State) :
    exec (.settag d code) s = .next (s.setTag d.toNat tag).complete := by
  simp only [exec, execSettag, h, runCommand_pass firstViolated_nil]

/-- Settles O51: the causes are those of `Instr.decodeFaults` and the two of a session (`fcode_of_fault`); SETTAG's one
cause is a code that no well-formed command has. -/
theorem faultTable : Obligations.FaultTable := by
  unfold Obligations.FaultTable
  intro s t i hwf hfault ht htfault
  have hcause := fcode_of_fault hfault ht htfault
  cases i with
  | settag d code =>
    obtain ⟨tag, htag⟩ := exists_tagOfCode (of_decide_eq_true hwf)
    rw [exec_settag_of_tag htag] at ht
    cases ht
    exact Bool.false_ne_true (hfault.symm.trans htfault)
  | nop => simp [Instr.decodeFaults, Instr.streams] at hcause
  | _ =>
    simp only [Instr.decodeFaults, Instr.streams, FaultCode.code, List.mem_cons, List.not_mem_nil, or_false, true_and,
      Bool.false_eq_true, false_and, exists_eq_or_imp, exists_eq_left] at hcause ⊢
    tauto

/-! ## What an effect writes -/

section
variable {i : Instr} {s u : State} (he : Effect i s u)
include he

theorem Effect.normKept_or_chknorm : NormKept s u ∨ ∃ a, i = .chknorm a := by
  cases i with
  | chknorm a => exact .inr ⟨a, rfl⟩
  | sunif d | seta d | sgam1 d => rw [he.2]; exact .inl ⟨rfl, rfl⟩
  | _ => rw [he]; exact .inl ⟨rfl, rfl⟩

theorem Effect.rej_of_rej (hrej : s.rej = true) : u.rej = true := by
  rcases he.normKept_or_chknorm with hkept | ⟨a, rfl⟩
  · exact hkept.2.trans hrej
  · rw [he]; exact Bool.or_eq_true_iff.2 (.inl hrej)

/-- The seed samplers require `NOVF` to be 0, so they only set it (44_samplers.md R174, R175). -/
theorem Effect.nonceKept_or_seed :
    NonceKept s u ∨ s.novf = false ∧ ∃ d, i = .sunif d ∨ i = .seta d ∨ i = .sgam1 d := by
  cases i with
  | sunif d => exact .inr ⟨he.1, d, .inl rfl⟩
  | seta d => exact .inr ⟨he.1, d, .inr (.inl rfl)⟩
  | sgam1 d => exact .inr ⟨he.1, d, .inr (.inr rfl)⟩
  | _ => rw [he]; exact .inl ⟨rfl, rfl⟩

theorem Effect.hintsKept_or_mkhint : HintsKept s u ∨ ∃ d a b, i = .mkhint d a b := by
  cases i with
  | mkhint d a b => exact .inr ⟨d, a, b, rfl⟩
  | sunif d | seta d | sgam1 d => rw [he.2]; exact .inl rfl
  | _ => rw [he]; exact .inl rfl

theorem Effect.countsKept_or_stream :
    CountsKept s u ∨ ∃ d, i = .sunif d ∨ i = .seta d ∨ i = .sgam1 d ∨ i = .chal d ∨ i = .expmat d := by
  cases i with
  | sunif d | seta d | sgam1 d | chal d | expmat d => exact .inr ⟨d, by simp⟩
  | _ => rw [he]; exact .inl ⟨rfl, rfl⟩

end

/-- Settles O52: the two kinds of fault write only the fault record and, the second, slots; an effect writes what the
lemmas above say, and no fault register. -/
theorem sideEffectsAreTheListed : Obligations.SideEffectsAreTheListed := by
  unfold Obligations.SideEffectsAreTheListed
  intro s t i ht
  rcases exec_ends ht with ⟨c, -, rfl⟩ | ⟨u, he, rfl⟩ | ⟨-, c, dests, -, rfl⟩
  · exact ⟨fun h => (h ⟨rfl, rfl⟩).elim, id, fun h => (h rfl).elim, fun h => (h rfl).elim, fun h => (h ⟨rfl, rfl⟩).elim,
      fun _ => ⟨rfl, rfl⟩⟩
  · have hkept := he.kept
    refine ⟨he.normKept_or_chknorm.resolve_left, he.rej_of_rej, fun hnovf => ?_,
      he.hintsKept_or_mkhint.resolve_left, he.countsKept_or_stream.resolve_left, fun hrecord => ?_⟩
    · obtain ⟨hclear, hseed⟩ := he.nonceKept_or_seed.resolve_left fun hkept => hnovf hkept.2
      exact ⟨by simpa [hclear] using hnovf, hseed⟩
    · simp [hkept.fault, hkept.fcode, hkept.finfo] at hrecord
  · exact ⟨fun h => (h ⟨State.abort_norm .., State.abort_rej ..⟩).elim, (State.abort_rej ..).trans,
      fun h => (h (State.abort_novf ..)).elim, fun h => (h (State.abort_hintcnt ..)).elim,
      fun h => (h ⟨State.abort_sqzcnt .., State.abort_rejcnt ..⟩).elim, fun _ => ⟨rfl, rfl⟩⟩

/-- Settles O53: no end of a command writes the host's inputs, and an effect writes `NONCE` only for a seed sampler. -/
theorem commandsKeepHostInputs : Obligations.CommandsKeepHostInputs := by
  unfold Obligations.CommandsKeepHostInputs
  intro s t i ht
  rcases exec_ends ht with ⟨c, -, rfl⟩ | ⟨u, he, rfl⟩ | ⟨-, c, dests, -, rfl⟩
  · exact ⟨fun _ => rfl, rfl, rfl, fun h => (h rfl).elim⟩
  · have hkept := he.kept
    refine ⟨fun a => by rw [State.complete_mem, hkept.mem], hkept.alen, hkept.bound, fun hnonce => ?_⟩
    exact (he.nonceKept_or_seed.resolve_left fun hkept => hnonce hkept.1).2
  · exact ⟨fun a => by rw [State.abort_mem], by simp, by simp, fun h => (h (by simp)).elim⟩

end Sys2Proof.Machine
end

section
/-! PROOFS. What an address reaches (20_memory.md R61, R63, R66, R68) and the host accesses that read or write the state
(10_state.md R29 to R38, 20_memory.md R62, R64, R65, 60_exceptions.md R239, R240). -/

namespace Sys2Proof.Machine

/-! ## The address map -/

theorem access_eq_ok_iff {addr : BitVec 19} {bytes : Nat} {p : Place} :
    access addr bytes = .ok p ↔ bytes = 4 ∧ addr.toNat % 4 = 0 ∧ placeAt addr = p ∧ p ≠ .unassigned := by
  unfold access
  split
  case isTrue hbytes => simp [hbytes]
  case isFalse hbytes =>
    split
    case isTrue halign => simp [halign]
    case isFalse halign =>
      split
      case h_1 hplace => rw [hplace]; simpa using fun _ _ h => h.symm
      case h_2 place hplace =>
        have hne : placeAt addr ≠ .unassigned := hplace
        simp only [Except.ok.injEq]
        constructor
        · rintro rfl; exact ⟨not_not.1 hbytes, not_not.1 halign, rfl, hne⟩
        · exact fun h => h.2.2.1

/-- The offset of a register (R29). -/
def Reg.offset : Reg → Nat
  | .id => 0x00 | .version => 0x04 | .status => 0x08 | .ctrl => 0x0C | .cmd => 0x10 | .cmdcnt => 0x14 | .alen => 0x18
  | .nonce => 0x1C | .bound => 0x20 | .hintcnt => 0x24 | .fcode => 0x28 | .finfo => 0x2C | .sqzcnt => 0x30
  | .rejcnt => 0x34 | .pq => 0x40 | .pkl => 0x44 | .peta => 0x48 | .pgamma1 => 0x4C | .pgamma2 => 0x50 | .pd => 0x54
  | .ptau => 0x58 | .psqzlim => 0x5C

theorem offset_of_regAt {n : Nat} {r : Reg} (h : regAt n = some r) : n = r.offset := by
  unfold regAt at h
  split at h <;> cases h <;> rfl

theorem offset_of_placeAt {addr : BitVec 19} {r : Reg} (h : placeAt addr = .reg r) : addr.toNat = r.offset := by
  unfold placeAt at h
  simp only at h
  split at h
  · split at h <;> cases h
    exact offset_of_regAt ‹_›
  · split_ifs at h

/-- The word offsets below 0x100 at which no register stands (R68). -/
theorem regAt_eq_none_iff : ∀ q < 0x40, regAt (4 * q) = none ↔ 4 * q = 0x38 ∨ 4 * q = 0x3C ∨ 0x60 ≤ 4 * q := by
  decide

/-- The word addresses at which nothing stands (R68). -/
theorem placeAt_eq_unassigned_iff {addr : BitVec 19} (halign : addr.toNat % 4 = 0) :
    placeAt addr = .unassigned ↔ addr.toNat = 0x38 ∨ addr.toNat = 0x3C ∨ (0x60 ≤ addr.toNat ∧ addr.toNat < 0x400) ∨
      (0x800 ≤ addr.toNat ∧ addr.toNat < 0x40000) := by
  unfold placeAt
  simp only
  split
  case isTrue hlow =>
    have hnone := regAt_eq_none_iff (addr.toNat / 4) (by omega)
    rw [Nat.mul_div_cancel' (Nat.dvd_of_mod_eq_zero halign)] at hnone
    split
    case h_1 r hr => simp only [hr, reduceCtorEq, false_iff] at hnone ⊢; omega
    case h_2 hr => simp only [hr, true_iff] at hnone ⊢; omega
  case isFalse hlow => split_ifs <;> simp <;> omega

theorem access_abufWord {n : Nat} (hn : n < 256) : access (BitVec.ofNat 19 (0x400 + 4 * n)) 4 = .ok (.abuf (4 * n)) := by
  have haddr : (BitVec.ofNat 19 (0x400 + 4 * n)).toNat = 0x400 + 4 * n := by rw [BitVec.toNat_ofNat]; omega
  refine access_eq_ok_iff.2 ⟨rfl, by omega, ?_, nofun⟩
  unfold placeAt
  simp only [haddr]
  rw [if_neg (by omega), if_neg (by omega), if_pos (by omega), Nat.add_sub_cancel_left]

theorem access_slotWord {k i : Nat} (hk : k < 256) (hi : i < 256) :
    access (BitVec.ofNat 19 (0x40000 + 0x400 * k + 4 * i)) 4 = .ok (.slotWord k i) := by
  have haddr : (BitVec.ofNat 19 (0x40000 + 0x400 * k + 4 * i)).toNat = 0x40000 + 0x400 * k + 4 * i := by
    rw [BitVec.toNat_ofNat]; omega
  refine access_eq_ok_iff.2 ⟨rfl, by omega, ?_, nofun⟩
  unfold placeAt
  simp only [haddr]
  rw [if_neg (by omega), if_neg (by omega), if_neg (by omega), if_neg (by omega)]
  congr 1 <;> omega

/-! ## Reads -/

theorem busRead_of_access {s : State} {addr : BitVec 19} {bytes : Nat} {p : Place} (h : access addr bytes = .ok p) :
    ∃ v, s.busRead addr bytes = .ok v := by
  have hne := (access_eq_ok_iff.1 h).2.2.2
  unfold State.busRead
  rw [h]
  cases p with
  | unassigned => exact absurd rfl hne
  | _ => exact ⟨_, rfl⟩

theorem perform_read {s : State} {addr : BitVec 19} {bytes : Nat} {v : Word} (h : s.busRead addr bytes = .ok v) :
    s.perform (.read addr bytes) = .next { s with reads := s.reads ++ [v] } := by
  rw [State.perform, h]

/-- A pending read hands its value to the host's readings (R104, 70_reset_and_hazards.md R273). -/
theorem step_read {s : State} (hlegal : s.env.params.legal = true) {addr : BitVec 19} {v : Word} (rest : List HostOp)
    (h : s.busRead addr 4 = .ok v) :
    step { s with pending := .read addr 4 :: rest } = .next { s with pending := rest, reads := s.reads ++ [v] } :=
  (step_cons hlegal _ _).trans (perform_read (s := { s with pending := rest }) h)

theorem busRead_slotWord (s : State) {k i : Nat} (hk : k < 256) (hi : i < 256) :
    s.busRead (BitVec.ofNat 19 (0x40000 + 0x400 * k + 4 * i)) 4 = .ok (s.word k i) := by
  rw [State.busRead, access_slotWord hk hi]

theorem busRead_abuf (s : State) {n : Nat} (hn : n < 256) :
    s.busRead (BitVec.ofNat 19 (0x400 + 4 * n)) 4 = .ok (s.abufWord (4 * n)) := by
  rw [State.busRead, access_abufWord hn]

/-- Byte `e` of a buffer word is the buffer's byte at index `e` (R62). -/
theorem byte_abufWord (s : State) (n : Nat) {e : Nat} (he : e < 4) :
    (s.abufWord n).toNat / 2 ^ (8 * e) % 2 ^ 8 = (s.abuf (n + e)).toNat := by
  have h0 := (s.abuf (n + 0)).isLt
  have h1 := (s.abuf (n + 1)).isLt
  have h2 := (s.abuf (n + 2)).isLt
  have h3 := (s.abuf (n + 3)).isLt
  have hword : (s.abufWord n).toNat = (s.abuf (n + 0)).toNat + 256 * ((s.abuf (n + 1)).toNat +
      256 * ((s.abuf (n + 2)).toNat + 256 * (s.abuf (n + 3)).toNat)) := by
    simp only [State.abufWord, List.range_succ, List.range_zero, List.nil_append, List.cons_append, List.map_cons,
      List.map_nil, leNat, BitVec.toNat_ofNat, Nat.mul_zero]
    omega
  rw [hword]
  interval_cases e <;> omega

theorem bit_lt (b : Bool) : bit b < 2 := by cases b <;> decide

/-- `STATUS` has its four flags in bits 0 to 3 and zeros above (R31). -/
theorem getLsbD_status (s : State) :
    s.status.getLsbD 0 = s.fault ∧ s.status.getLsbD 1 = s.rej ∧ s.status.getLsbD 2 = s.norm ∧
      s.status.getLsbD 3 = s.novf ∧ ∀ n, 4 ≤ n → s.status.getLsbD n = false := by
  have hhigh (f r m o : Bool) {n : Nat} (hn : 4 ≤ n) :
      (BitVec.ofNat 32 (bit f + 2 * bit r + 4 * bit m + 8 * bit o)).getLsbD n = false := by
    have := bit_lt f; have := bit_lt r; have := bit_lt m; have := bit_lt o
    have hpow : 2 ^ 4 ≤ 2 ^ n := Nat.pow_le_pow_right (by decide) hn
    refine Nat.testBit_lt_two_pow ?_
    rw [BitVec.toNat_ofNat]
    omega
  have hlow : ∀ f r m o : Bool, (BitVec.ofNat 32 (bit f + 2 * bit r + 4 * bit m + 8 * bit o)).getLsbD 0 = f ∧
      (BitVec.ofNat 32 (bit f + 2 * bit r + 4 * bit m + 8 * bit o)).getLsbD 1 = r ∧
      (BitVec.ofNat 32 (bit f + 2 * bit r + 4 * bit m + 8 * bit o)).getLsbD 2 = m ∧
      (BitVec.ofNat 32 (bit f + 2 * bit r + 4 * bit m + 8 * bit o)).getLsbD 3 = o := by
    decide
  obtain ⟨h0, h1, h2, h3⟩ := hlow s.fault s.rej s.norm s.novf
  exact ⟨h0, h1, h2, h3, fun n hn => hhigh _ _ _ _ hn⟩

/-- The parameters a legal record gives fit the registers that show them (00_scope.md R8). -/
theorem Params.fits_of_legal {p : Params} (h : p.legal = true) :
    p.k * 256 + p.l < 2 ^ 32 ∧ p.eta < 2 ^ 32 ∧ p.gamma1 < 2 ^ 32 ∧ p.gamma2 < 2 ^ 32 ∧ p.d < 2 ^ 32 ∧
      p.tau < 2 ^ 32 := by
  have hm := Params.m_mul_of_legal h
  simp only [Params.legal, decide_eq_true_eq] at h
  obtain ⟨-, hk, -, hl, -, -, heta, -, hybits, -, hm2, -, hd, -, htau, -⟩ := h
  have hgamma1 : p.gamma1 ≤ 2 ^ 22 := Nat.pow_le_pow_right (by decide) (by omega)
  have hgamma2 : (2 : Int) * (2 * p.gamma2) ≤ p.m * (2 * p.gamma2) :=
    mul_le_mul_of_nonneg_right (by omega) (by omega)
  rw [hm, Q_eq] at hgamma2
  omega

theorem toNat_ofNat_of_lt {n : Nat} (h : n < 2 ^ 32) : (BitVec.ofNat 32 n).toNat = n := by
  rw [BitVec.toNat_ofNat, Nat.mod_eq_of_lt h]

/-- Settles O55: by the address map each read is one arm of `busRead`, and a legal record fits the registers. -/
theorem busReads : Obligations.BusReads := by
  unfold Obligations.BusReads
  intro s rest hlegal reading
  have hread {addr : BitVec 19} {v : Word} (h : s.busRead addr 4 = .ok v) : reading addr v := step_read hlegal rest h
  obtain ⟨hkl, heta, hgamma1, hgamma2, hd, htau⟩ := Params.fits_of_legal hlegal
  refine ⟨fun k hk i hi => hread (busRead_slotWord s hk hi),
    fun n hn => ⟨_, hread (busRead_abuf s hn), fun e he => byte_abufWord s (4 * n) he⟩,
    ⟨_, hread rfl, getLsbD_status s⟩,
    hread rfl, hread rfl, hread rfl, hread rfl, hread rfl, ?alen, ?nonce, hread rfl, hread rfl, ?fcode, hread rfl,
    hread rfl, hread rfl, hread rfl, ⟨_, hread rfl, toNat_ofNat_of_lt hkl⟩, ⟨_, hread rfl, toNat_ofNat_of_lt heta⟩,
    ⟨_, hread rfl, toNat_ofNat_of_lt hgamma1⟩, ⟨_, hread rfl, toNat_ofNat_of_lt hgamma2⟩,
    ⟨_, hread rfl, toNat_ofNat_of_lt hd⟩, ⟨_, hread rfl, toNat_ofNat_of_lt htau⟩, ?limited, ?unlimited⟩
  case alen | nonce | fcode => rw [BitVec.ofNat_toNat]; exact hread rfl
  case limited =>
    intro n hn hfits
    have hreg : s.readReg .psqzlim = BitVec.ofNat 32 n := by simp only [State.readReg, hn, fitWord, if_pos hfits]
    exact hreg ▸ hread rfl
  case unlimited =>
    intro hn
    have hreg : s.readReg .psqzlim = 0xFFFFFFFF := by simp only [State.readReg, hn]
    exact hreg ▸ hread rfl

/-! ## Writes -/

/-- A pending write is a bus write of the block (R104). -/
theorem step_write {s : State} (hlegal : s.env.params.legal = true) (addr : BitVec 19) (bytes : Nat) (v : Word)
    (rest : List HostOp) :
    step { s with pending := .write addr bytes v :: rest } =
      ({ s with pending := rest } : State).busWrite addr bytes v :=
  step_cons hlegal _ _

theorem busWrite_slotWord (s : State) {k i : Nat} (hk : k < 256) (hi : i < 256) (v : Word) :
    s.busWrite (BitVec.ofNat 19 (0x40000 + 0x400 * k + 4 * i)) 4 v = .next (s.setWord k i v) := by
  rw [State.busWrite, access_slotWord hk hi]

theorem busWrite_abuf (s : State) {n : Nat} (hn : n < 256) (v : Word) :
    s.busWrite (BitVec.ofNat 19 (0x400 + 4 * n)) 4 v =
      .next { s with mem := Memory.write s.mem (ABUFBASE + 4 * n) (wordBytes v) } := by
  rw [State.busWrite, access_abufWord hn]

/-- Settles O57: the address map leads the write to the word, and `word_setWord` says what it changes. -/
theorem hostWritesSlotWord : Obligations.HostWritesSlotWord := by
  unfold Obligations.HostWritesSlotWord
  intro s k i v rest hlegal hk hi
  refine ⟨_, (step_write hlegal _ 4 v rest).trans (busWrite_slotWord _ hk hi v), ?_, fun k' i' hne => ?_, rfl⟩
  · rw [State.word_setWord _ hk, if_pos ⟨rfl, rfl, hi⟩]
  · rw [State.word_setWord _ hk, if_neg fun h => hne ⟨h.1, h.2.1⟩]
    rfl

/-- Byte `e` of the stored string is byte `e` of the word, the low byte first (R62). -/
theorem toNat_getD_wordBytes (v : Word) {e : Nat} (he : e < 4) :
    ((wordBytes v).getD e 0).toNat = v.toNat / 2 ^ (8 * e) % 2 ^ 8 := by
  simp [wordBytes, List.getD_eq_getElem?_getD, he]

/-- Settles O58: the address map leads the write to the buffer, and `Memory.read_write` says what it changes. -/
theorem hostWritesBuffer : Obligations.HostWritesBuffer := by
  unfold Obligations.HostWritesBuffer
  intro s n v rest hlegal hn
  refine ⟨_, (step_write hlegal _ 4 v rest).trans (busWrite_abuf _ hn v), fun e he => ?_, fun a hout => ?_, rfl⟩
  · rw [State.abuf, Memory.read_write, length_wordBytes, if_pos (by omega), ← toNat_getD_wordBytes v he,
      show ABUFBASE + (4 * n + e) - (ABUFBASE + 4 * n) = e by omega]
  · rw [Memory.read_write, length_wordBytes]
    exact if_neg hout

/-- Settles O59: the three registers' arms of `writeReg`, a field set to the low bits of the word. -/
theorem hostWritesRegisters : Obligations.HostWritesRegisters := by
  unfold Obligations.HostWritesRegisters
  intro s v rest hlegal
  rw [step_write hlegal, step_write hlegal, step_write hlegal, BitVec.ofNat_toNat, BitVec.ofNat_toNat]
  exact ⟨rfl, rfl, rfl⟩

/-- Without `SRST` the other three actions of a `CTRL` write act independently (R32). -/
theorem State.writeCtrl_of_not_srst (s : State) {v : Word} (h : v.getLsbD 0 = false) :
    s.writeCtrl v = { s with
      fault := if v.getLsbD 1 then false else s.fault
      fcode := if v.getLsbD 1 then 0 else s.fcode
      finfo := if v.getLsbD 1 then 0 else s.finfo
      rej := if v.getLsbD 2 then false else s.rej
      norm := if v.getLsbD 2 then false else s.norm
      hintcnt := if v.getLsbD 3 then 0 else s.hintcnt } := by
  rw [State.writeCtrl, if_neg (by rw [h]; decide)]
  cases v.getLsbD 1 <;> cases v.getLsbD 2 <;> cases v.getLsbD 3 <;> rfl

/-- Settles O60: `SRST` is the block's reset, and without it the actions are those of `writeCtrl_of_not_srst`. -/
theorem controlWrites : Obligations.ControlWrites := by
  unfold Obligations.ControlWrites
  intro s v rest hlegal
  refine ⟨fun hsrst => step_write_srst hlegal rest hsrst, fun hsrst => ?_⟩
  rw [step_cons hlegal, perform_write_ctrl, State.writeCtrl_of_not_srst _ hsrst]

/-- With a fault recorded, an accepted bus write that clears it is a word write to `CTRL` with `SRST` or `CLRFAULT`
(R239, R240, R261). -/
theorem busWrite_clears_fault {s t : State} {addr : BitVec 19} {bytes : Nat} {v : Word} (hfault : s.fault = true)
    (h : s.busWrite addr bytes v = .next t) (hclear : t.fault = false) :
    addr = 0x0C ∧ bytes = 4 ∧ (v.getLsbD 0 = true ∨ v.getLsbD 1 = true) := by
  have hkept (hsame : t.fault = s.fault) : False := Bool.false_ne_true (hclear.symm.trans (hsame.trans hfault))
  rcases busWrite_cases h with ⟨haddr, rfl⟩ | ⟨-, hnofault, -⟩ | ⟨-, rfl⟩ | ⟨-, rfl⟩ | ⟨-, rfl⟩ | ⟨n, -, rfl⟩ |
    ⟨k, i, -, rfl⟩
  · obtain ⟨hbytes, -, hplace, -⟩ := access_eq_ok_iff.1 haddr
    refine ⟨BitVec.eq_of_toNat_eq (offset_of_placeAt hplace), hbytes, ?_⟩
    by_contra hbits
    obtain ⟨hsrst, hclr⟩ := not_or.1 hbits
    rw [State.writeCtrl_of_not_srst s (by simpa using hsrst)] at hkept
    exact hkept (if_neg hclr)
  · rw [hfault] at hnofault; cases hnofault
  all_goals exact (hkept rfl).elim

/-- Settles O54: a read keeps `FAULT`, and `busWrite_clears_fault` says which writes do not. -/
theorem faultLeftOnlyByHost : Obligations.FaultLeftOnlyByHost := by
  unfold Obligations.FaultLeftOnlyByHost
  intro s t hfault ht hclear
  obtain ⟨-, ⟨-, rfl⟩ | ⟨op, rest, hpending, hop⟩⟩ := step_cases ht
  · rw [hfault] at hclear; cases hclear
  refine ⟨rest, ?_⟩
  rw [hpending]
  rcases perform_cases hop with ⟨addr, bytes, v, rfl, -, rfl⟩ | ⟨addr, bytes, v, rfl, hwrite⟩ | ⟨rfl, -⟩
  · rw [hfault] at hclear; cases hclear
  · obtain ⟨rfl, rfl, hbits⟩ := busWrite_clears_fault (s := { s with pending := rest }) hfault hwrite hclear
    exact .inr ⟨v, rfl, hbits⟩
  · exact .inl rfl

end Sys2Proof.Machine
end

section
/-! PROOFS. When a command gives a next state (20_memory.md R70, 44_samplers.md R183, R185), and which host accesses get
a bus error (20_memory.md R66, R68, R69). -/

namespace Sys2Proof.Machine

/-- SGAM1's session ends, so the command always gives a next state (R183). -/
theorem exec_sgam1_next (d : Slot) (s : State) : ∃ t, exec (.sgam1 d) s = .next t :=
  runStream_next _ _ _ _ _ s (.inr (gamma1Sample_ends _ _))

theorem next_of_runCommand {i : Instr} {checks : List (FaultCode × Bool)} {effect : State → State} {s : State}
    (he : exec i s = runCommand i checks effect s) : ∃ t, exec i s = .next t :=
  he ▸ runCommand_next ..

/-- A stream command gives a next state or is stuck without a limit. -/
theorem next_or_stuck_of_runStream {α : Type} {i : Instr} {checks : List (FaultCode × Bool)} {dests : List Nat}
    {commit : State → α → State} {r : Ended α} {s : State} (he : exec i s = runStream i checks dests commit r s) :
    (∃ t, exec i s = .next t) ∨ (exec i s = .fault .commandNeverEnds ∧ s.env.sqzLimit = .unlimited) := by
  rw [he]
  exact (runStream_next_or_stuck ..).imp_right fun h => ⟨h.1, h.2.1⟩

/-- Every command gives a next state, but for four that without a limit may be stuck (R185). -/
theorem exec_next_or_stuck (i : Instr) (s : State) :
    (∃ t, exec i s = .next t) ∨
      (exec i s = .fault .commandNeverEnds ∧ s.env.sqzLimit = .unlimited) ∧
        ∃ d, i ∈ [Instr.sunif d, Instr.seta d, Instr.chal d, Instr.expmat d] := by
  cases i with
  | sunif d | seta d | chal d | expmat d =>
    exact (next_or_stuck_of_runStream rfl).imp_right fun h => ⟨h, d, by simp⟩
  | sgam1 d => exact .inl (exec_sgam1_next d s)
  | settag d code =>
    simp only [exec, execSettag]
    split
    · exact .inl ⟨_, rfl⟩
    · exact .inl (runCommand_next ..)
  | nop => exact .inl ⟨_, exec_nop s⟩
  | chknorm a => rw [exec, execChknorm]; exact .inl (runCommand_next ..)
  | pwacc d a b => rw [exec, execPwacc]; exact .inl (runCommand_next ..)
  | mkhint d a b => exact .inl (next_of_runCommand (exec_mkhint d a b s))
  | usehint d a b => exact .inl (next_of_runCommand (exec_usehint d a b s))
  | _ => exact .inl (next_of_runCommand rfl)

theorem exec_ne_refused (i : Instr) (s : State) (r : Refusal) : exec i s ≠ .refused r := by
  rcases exec_next_or_stuck i s with ⟨t, h⟩ | ⟨⟨h, -⟩, -⟩ <;> simp [h]

theorem runWord_ne_refused (w : Word) (s : State) (r : Refusal) : runWord w s ≠ .refused r := by
  unfold runWord
  split
  · exact exec_ne_refused _ s r
  · exact nofun

/-! ## Bus errors -/

/-- A place that a write leaves unwritten: a register that is read only, or `CMD` while `FAULT` is 1 (R69). -/
def Place.RefusesWrite (p : Place) (s : State) : Prop :=
  ∃ r, p = .reg r ∧ (r ∉ [Reg.ctrl, .cmd, .alen, .nonce, .bound] ∨ r = .cmd ∧ s.fault = true)

/-- A bus write at a place that an address reaches gets a bus error exactly at these places. -/
theorem busWrite_refused_iff {s : State} {addr : BitVec 19} {bytes : Nat} {p : Place} (v : Word)
    (h : access addr bytes = .ok p) :
    (∃ e, s.busWrite addr bytes v = .refused (.busError e)) ↔ p.RefusesWrite s := by
  have hne := (access_eq_ok_iff.1 h).2.2.2
  unfold State.busWrite Place.RefusesWrite
  rw [h]
  cases p with
  | unassigned => exact absurd rfl hne
  | abuf n | slotWord k i => simp
  | reg r =>
    cases r with
    | cmd =>
      simp only [State.writeReg, State.writeCmd]
      split
      case isTrue hfault => simp [hfault]
      case isFalse hfault => simp [hfault, runWord_ne_refused]
    | _ => simp [State.writeReg]

/-- A bus write that is not refused and not to `CMD` gives a next state. -/
theorem busWrite_next {s : State} {addr : BitVec 19} {bytes : Nat} {p : Place} (v : Word)
    (h : access addr bytes = .ok p) (hcmd : p ≠ .reg .cmd) (hp : ¬ p.RefusesWrite s) :
    ∃ t, s.busWrite addr bytes v = .next t := by
  rw [← busWrite_refused_iff v h] at hp
  unfold State.busWrite at hp ⊢
  rw [h] at hp ⊢
  cases p with
  | unassigned => exact absurd rfl (access_eq_ok_iff.1 h).2.2.2
  | abuf n | slotWord k i => exact ⟨_, rfl⟩
  | reg r =>
    cases r with
    | cmd => exact absurd rfl hcmd
    | ctrl | alen | nonce | bound => exact ⟨_, rfl⟩
    | _ => exact absurd ⟨_, rfl⟩ hp

/-- An access names a place unless it is of another width, misaligned or at an unassigned address (R66, R68). -/
theorem exists_access_eq_ok_iff {addr : BitVec 19} {bytes : Nat} :
    (∃ p, access addr bytes = .ok p) ↔
      ¬(bytes ≠ 4 ∨ addr.toNat % 4 ≠ 0 ∨ addr.toNat = 0x38 ∨ addr.toNat = 0x3C ∨
        (0x60 ≤ addr.toNat ∧ addr.toNat < 0x400) ∨ (0x800 ≤ addr.toNat ∧ addr.toNat < 0x40000)) := by
  simp only [access_eq_ok_iff]
  constructor
  · rintro ⟨p, hbytes, halign, rfl, hne⟩
    rw [Ne, placeAt_eq_unassigned_iff halign] at hne
    tauto
  · intro h
    have halign : addr.toNat % 4 = 0 := by tauto
    refine ⟨_, by tauto, halign, rfl, ?_⟩
    rw [Ne, placeAt_eq_unassigned_iff halign]
    tauto

/-- The read-only registers by their offsets (10_state.md R29). -/
theorem offset_readOnly_iff (r : Reg) :
    r ∉ [Reg.ctrl, .cmd, .alen, .nonce, .bound] ↔
      r.offset ∈ [0x00, 0x04, 0x08, 0x14, 0x24, 0x28, 0x2C, 0x30, 0x34] ∨ (0x40 ≤ r.offset ∧ r.offset < 0x60) := by
  cases r <;> decide

theorem offset_eq_cmd_iff (r : Reg) : r.offset = 0x10 ↔ r = .cmd := by
  cases r <;> decide

/-- An address that reaches no register is past all of them. -/
theorem le_of_placeAt {addr : BitVec 19} (h : ∀ r, placeAt addr ≠ .reg r) (hne : placeAt addr ≠ .unassigned) :
    0x400 ≤ addr.toNat := by
  unfold placeAt at h hne
  simp only at h hne
  by_contra hlow
  by_cases hreg : addr.toNat < 0x100
  · rw [if_pos hreg] at h hne
    split at h
    · exact h _ rfl
    · simp_all
  · rw [if_neg hreg, if_pos (by omega)] at hne
    exact hne rfl

/-- The places that refuse a write, by address. -/
theorem refusesWrite_iff {s : State} {addr : BitVec 19} {bytes : Nat} {p : Place} (h : access addr bytes = .ok p) :
    p.RefusesWrite s ↔
      (addr.toNat ∈ [0x00, 0x04, 0x08, 0x14, 0x24, 0x28, 0x2C, 0x30, 0x34] ∨ (0x40 ≤ addr.toNat ∧ addr.toNat < 0x60)) ∨
        (addr.toNat = 0x10 ∧ s.fault = true) := by
  obtain ⟨-, -, rfl, hne⟩ := access_eq_ok_iff.1 h
  unfold Place.RefusesWrite
  by_cases hreg : ∃ r, placeAt addr = .reg r
  · obtain ⟨r, hr⟩ := hreg
    rw [offset_of_placeAt hr, ← offset_readOnly_iff, offset_eq_cmd_iff, hr]
    simp only [Place.reg.injEq, exists_eq_left']
  · have hno := not_exists.1 hreg
    have hge := le_of_placeAt hno hne
    simp only [hno, false_and, exists_false, List.mem_cons, List.not_mem_nil, or_false, false_iff]
    omega

theorem error_of_not_ok {α β : Type} {x : Except α β} (h : ¬∃ y, x = .ok y) : ∃ e, x = .error e := by
  cases x with
  | error e => exact ⟨e, rfl⟩
  | ok y => exact absurd ⟨y, rfl⟩ h

/-- Settles O56: an access that names no place is refused whatever it does; one that names a place reads, and writes
unless the place refuses (`busWrite_refused_iff`). -/
theorem busErrors : Obligations.BusErrors := by
  unfold Obligations.BusErrors
  intro s addr bytes v rest hlegal a bad readOnly
  have hok : (∃ p, access addr bytes = .ok p) ↔ ¬ bad := exists_access_eq_ok_iff
  rw [step_write hlegal, step_cons hlegal]
  by_cases hbad : bad
  · obtain ⟨e, he⟩ := error_of_not_ok fun h => hok.1 h hbad
    simp [hbad, State.perform, State.busRead, State.busWrite, he]
  · obtain ⟨p, hp⟩ := hok.2 hbad
    have hrefuses : p.RefusesWrite { s with pending := rest } ↔ readOnly ∨ (a = 0x10 ∧ s.fault = true) :=
      refusesWrite_iff hp
    obtain ⟨x, hx⟩ := busRead_of_access (s := { s with pending := rest }) hp
    refine ⟨?_, ?_, fun _ hro hcmd => busWrite_next v hp ?_ ?_⟩
    · rw [perform_read hx]; simp [hbad]
    · rw [busWrite_refused_iff v hp, hrefuses]; simp [hbad]
    · rintro rfl
      exact hcmd (offset_of_placeAt (access_eq_ok_iff.1 hp).2.2.1)
    · rw [hrefuses]; tauto

end Sys2Proof.Machine
end

section
/-! PROOFS. SETTAG (47_system.md R222) and the word-by-word ring commands (40_ring.md R116, R118 to R123): one lemma for
each list of checks and each shape of effect, then the arithmetic of the words. -/

namespace Sys2Proof.Machine

/-! ## SETTAG -/

theorem tagOfCode_eq_some {code : BitVec 8} {tag : Tag}
    (h : (code = 0 ∧ tag = .none) ∨ (code = 1 ∧ tag = .std) ∨ (code = 2 ∧ tag = .ntt)) :
    tagOfCode code = some tag ∧ code.toNat < 3 := by
  rcases h with ⟨rfl, rfl⟩ | ⟨rfl, rfl⟩ | ⟨rfl, rfl⟩ <;> decide

theorem tagOfCode_eq_none {code : BitVec 8} (h : 3 ≤ code.toNat) : tagOfCode code = none := by
  unfold tagOfCode
  split
  · omega
  · omega
  · omega
  · rfl

/-- Settles O8: the code's tag is written and no word is; a code without a tag is refused as illegal. -/
theorem settagCommand : Obligations.SettagCommand := by
  unfold Obligations.SettagCommand
  intro s d code
  refine ⟨fun tag hcode => ?_, fun hcode => ?_⟩
  · obtain ⟨htag, hlt⟩ := tagOfCode_eq_some hcode
    refine ⟨encodes_of_encode_eq (decide_eq_true hlt) rfl, _, exec_settag_of_tag htag d s, Frame.setTag s _ tag, ?_, ?_⟩
    · rw [State.tag_complete, State.tag_setTag, if_pos ⟨rfl, d.isLt⟩]
    · rw [State.poly_complete, State.poly_setTag]
  · rw [FaultsAs, exec, execSettag, tagOfCode_eq_none hcode]
    rfl

/-! ## The tag checks -/

section
variable {i : Instr} {s : State} {effect : State → State}

/-- A source tagged `NONE` faults `F_UNINIT`, whatever tag the command wants (60_exceptions.md R233). -/
theorem faultsAs_uninit_of_sources {t : Tag} {srcs : List Nat}
    (he : exec i s = runCommand i (s.sourceChecks t srcs) effect s) (h : ∃ k ∈ srcs, s.tag k = .none) :
    FaultsAs i s 2 :=
  faultsAs_of_runCommand he (State.sourceChecks_uninit h)

/-- With no source tagged `NONE`, one of another tag than the command's faults `F_DOMAIN` (R233). -/
theorem faultsAs_domain_of_sources {t : Tag} {srcs : List Nat}
    (he : exec i s = runCommand i (s.sourceChecks t srcs) effect s) (htagged : ∀ k ∈ srcs, s.tag k ≠ .none)
    (h : ∃ k ∈ srcs, s.tag k ≠ t) : FaultsAs i s 3 :=
  faultsAs_of_runCommand he (State.sourceChecks_domain htagged h)

/-- The two checks of a command with one source. -/
theorem faultsAs_of_source {t : Tag} {a : Slot} (he : exec i s = runCommand i (s.sourceChecks t [a.toNat]) effect s) :
    (s.tag a.toNat = .none → FaultsAs i s 2) ∧ (s.tag a.toNat ≠ .none → s.tag a.toNat ≠ t → FaultsAs i s 3) :=
  ⟨fun h => faultsAs_uninit_of_sources he ⟨_, by simp, h⟩,
    fun htagged h => faultsAs_domain_of_sources he (by simpa using htagged) ⟨_, by simp, h⟩⟩

/-- The two checks of a command with two sources. -/
theorem faultsAs_of_two_sources {t : Tag} {a b : Slot}
    (he : exec i s = runCommand i (s.sourceChecks t [a.toNat, b.toNat]) effect s) :
    (s.tag a.toNat = .none ∨ s.tag b.toNat = .none → FaultsAs i s 2) ∧
      (s.tag a.toNat ≠ .none → s.tag b.toNat ≠ .none → s.tag a.toNat ≠ t ∨ s.tag b.toNat ≠ t → FaultsAs i s 3) :=
  ⟨fun h => faultsAs_uninit_of_sources he (by simpa using h),
    fun ha hb h => faultsAs_domain_of_sources he (by simp [ha, hb]) (by simpa using h)⟩

/-! ## One function of every word (R120 to R123) -/

/-- A command that maps one source word by word: its check, its frame, its tag and its words. -/
theorem wordwise_spec {f : Word → Word} {d a : Slot} (he : exec i s = runWordwise i f d a s) :
    (s.tag a.toNat = .none → FaultsAs i s 2) ∧
      (s.tag a.toNat ≠ .none → ∃ t, exec i s = .next t ∧ Frame s t [d.toNat] ∧ t.tag d.toNat = s.tag a.toNat ∧
        ∀ n < 256, t.word d.toNat n = f (s.word a.toNat n)) := by
  refine ⟨fun h => faultsAs_of_runCommand (c := .uninit) he (if_pos (by simpa [State.anyUntagged] using h)), fun h => ?_⟩
  have hpass : firstViolated (s.taggedChecks [a.toNat]) = none := if_neg (by simpa [State.anyUntagged] using h)
  refine ⟨_, he.trans (runCommand_pass hpass), Frame.setSlot .., tag_setSlot_self .., fun n hn => ?_⟩
  exact (word_setSlot_self ..).trans (Poly.word_mapWords f _ hn)

/-- Settles O19: `reduce32` on every word, of which `reduce32_spec` says what it keeps and bounds. -/
theorem reduceCommand : Obligations.ReduceCommand := by
  unfold Obligations.ReduceCommand
  intro s d a
  obtain ⟨hfault, hdone⟩ := wordwise_spec (i := .reduce d a) (s := s) rfl
  refine ⟨encodes_of_encode_eq rfl rfl, hfault, fun h => ?_⟩
  obtain ⟨t, ht, hframe, htag, hword⟩ := hdone h
  refine ⟨t, ht, hframe, htag, fun n hn => ?_⟩
  rw [hword n hn]
  exact ⟨toNat_reduce32 _, reduce32_spec _⟩

/-- Settles O20: `csubq` on every word. -/
theorem csubqCommand : Obligations.CsubqCommand := by
  unfold Obligations.CsubqCommand
  intro s d a
  obtain ⟨hfault, hdone⟩ := wordwise_spec (i := .csubq d a) (s := s) rfl
  refine ⟨encodes_of_encode_eq rfl rfl, hfault, fun h => ?_⟩
  obtain ⟨t, ht, hframe, htag, hword⟩ := hdone h
  exact ⟨t, ht, hframe, htag, fun n hn => hword n hn ▸ toNat_csubq _⟩

/-- Settles O21: `freeze` on every word. -/
theorem freezeCommand : Obligations.FreezeCommand := by
  unfold Obligations.FreezeCommand
  intro s d a
  obtain ⟨hfault, hdone⟩ := wordwise_spec (i := .freeze d a) (s := s) rfl
  refine ⟨encodes_of_encode_eq rfl rfl, hfault, fun h => ?_⟩
  obtain ⟨t, ht, hframe, htag, hword⟩ := hdone h
  exact ⟨t, ht, hframe, htag, fun n hn => hword n hn ▸ toNat_freeze _⟩

/-- Settles O22: `shiftByD` on every word. -/
theorem shldCommand : Obligations.ShldCommand := by
  unfold Obligations.ShldCommand
  intro s d a
  obtain ⟨hfault, hdone⟩ := wordwise_spec (i := .shld d a) (s := s) rfl
  refine ⟨encodes_of_encode_eq rfl rfl, hfault, fun h => ?_⟩
  obtain ⟨t, ht, hframe, htag, hword⟩ := hdone h
  exact ⟨t, ht, hframe, htag, fun n hn => hword n hn ▸ BitVec.toNat_ofNat ..⟩

/-! ## ADD and SUB (R118, R119) -/

/-- A command that combines two sources of one tag word by word: its checks, its frame, its tag and its words. -/
theorem sameTag_spec {f : Word → Word → Word} {d a b : Slot}
    (he : exec i s = runCommand i (s.sameTagChecks a.toNat b.toNat)
      (writeSlot d (Poly.zipWords f (s.poly a.toNat) (s.poly b.toNat)) (s.tag a.toNat)) s) :
    (s.tag a.toNat = .none ∨ s.tag b.toNat = .none → FaultsAs i s 2) ∧
    (s.tag a.toNat ≠ .none → s.tag b.toNat ≠ .none → s.tag a.toNat ≠ s.tag b.toNat → FaultsAs i s 3) ∧
    (s.tag a.toNat ≠ .none → s.tag a.toNat = s.tag b.toNat →
      ∃ t, exec i s = .next t ∧ Frame s t [d.toNat] ∧ t.tag d.toNat = s.tag a.toNat ∧
        ∀ n < 256, t.word d.toNat n = f (s.word a.toNat n) (s.word b.toNat n)) := by
  refine ⟨fun h => ?uninit, fun ha hb h => ?domain, fun ha h => ?completes⟩
  case uninit =>
    exact faultsAs_of_runCommand (c := .uninit) he (by simp [State.sameTagChecks, State.anyUntagged, h])
  case domain =>
    exact faultsAs_of_runCommand (c := .domain) he (by simp [State.sameTagChecks, State.anyUntagged, ha, hb, h])
  case completes =>
    have hpass : firstViolated (s.sameTagChecks a.toNat b.toNat) = none := by
      simp [State.sameTagChecks, State.anyUntagged, ← h, ha]
    refine ⟨_, he.trans (runCommand_pass hpass), Frame.setSlot .., tag_setSlot_self .., fun n hn => ?_⟩
    exact (word_setSlot_self ..).trans (Poly.word_zipWords f _ _ hn)

/-- Settles O17: word addition. -/
theorem addCommand : Obligations.AddCommand := by
  unfold Obligations.AddCommand
  intro s d a b
  obtain ⟨huninit, hdomain, hdone⟩ := sameTag_spec (i := .add d a b) (s := s) rfl
  refine ⟨encodes_of_encode_eq rfl rfl, huninit, hdomain, fun ha h => ?_⟩
  obtain ⟨t, ht, hframe, htag, hword⟩ := hdone ha h
  exact ⟨t, ht, hframe, htag, fun n hn => hword n hn ▸ BitVec.toNat_add ..⟩

/-- Settles O18: `subOffset`, word by word. -/
theorem subCommand : Obligations.SubCommand := by
  unfold Obligations.SubCommand
  intro s d a b
  obtain ⟨huninit, hdomain, hdone⟩ := sameTag_spec (i := .sub d a b) (s := s) rfl
  refine ⟨encodes_of_encode_eq rfl rfl, huninit, hdomain, fun ha h => ?_⟩
  obtain ⟨t, ht, hframe, htag, hword⟩ := hdone ha h
  exact ⟨t, ht, hframe, htag, fun n hn => hword n hn ▸ toNat_subOffset ..⟩

end

/-! ## PWMUL (R116) -/

/-- Settles O15: `toNat_mr` is the Montgomery reduction in numbers. -/
theorem pwmulCommand : Obligations.PwmulCommand := by
  unfold Obligations.PwmulCommand
  intro s d a b
  obtain ⟨huninit, hdomain⟩ := faultsAs_of_two_sources (i := .pwmul d a b) (s := s) rfl
  refine ⟨encodes_of_encode_eq rfl rfl, huninit, fun ha hb h => hdomain ha hb ?_, fun ha hb => ?_⟩
  · exact h.imp (fun h => by simp [h]) (fun h => by simp [h])
  · refine ⟨_, exec_pwmul_of_ntt d ha hb, Frame.setSlot .., tag_setSlot_self .., fun n hn => ?_⟩
    rw [word_setSlot_self, Poly.word_zipWords mulMr _ _ hn]
    exact toNat_mr _

end Sys2Proof.Machine
end

section
/-! PROOFS. P2R, DECOMP and CHKNORM (41_rounding.md R140 to R148) and USEHINT (46_hint.md R214): the checks and effects,
and the ranges that make each stored word the number it stands for. -/

namespace Sys2Proof.Machine

/-! ## The two split commands -/

section
variable {i : Instr} {s : State} {split : Nat → Int × Int} {d a b : Slot}
  (he : exec i s = runCommand i (s.splitChecks d a b) (writeSplit split d a b) s)
include he

/-- The checks of P2R and DECOMP (R140). -/
theorem split_faults :
    (d = b → FaultsAs i s 4) ∧ (d ≠ b → s.tag a.toNat = .none → FaultsAs i s 2) ∧
      (d ≠ b → s.tag a.toNat = .ntt → FaultsAs i s 3) := by
  have hchecks (hne : d ≠ b) : firstViolated (s.splitChecks d a b) = firstViolated (s.sourceChecks .std [a.toNat]) :=
    if_neg (by simpa using hne)
  refine ⟨fun h => ?_, fun hne h => ?_, fun hne h => ?_⟩
  · exact faultsAs_of_runCommand (c := .range) he (if_pos (by simpa using h))
  · exact faultsAs_of_runCommand he ((hchecks hne).trans (State.sourceChecks_uninit ⟨_, by simp, h⟩))
  · exact faultsAs_of_runCommand he ((hchecks hne).trans (State.sourceChecks_domain (by simp [h]) ⟨a.toNat, by simp, by simp [h]⟩))

/-- What P2R and DECOMP write: the high parts to `d` and the low parts, Q added, to `b` (R142, R145). -/
theorem split_completes (hne : d ≠ b) (htag : s.tag a.toNat = .std) :
    ∃ t, exec i s = .next t ∧ Frame s t [d.toNat, b.toNat] ∧ t.tag d.toNat = .std ∧ t.tag b.toNat = .std ∧
      ∀ n < 256, t.word d.toNat n = wordOfInt (split (s.word a.toNat n).toNat).1 ∧
        t.word b.toNat n = wordOfInt ((Q : Int) + (split (s.word a.toNat n).toNat).2) := by
  have hpass : firstViolated (s.splitChecks d a b) = none :=
    (if_neg (by simpa using hne)).trans (State.sourceChecks_pass (by decide) (by simp [htag]))
  have hslot : ¬(d.toNat = b.toNat ∧ b.toNat < 256) := fun h => hne (BitVec.eq_of_toNat_eq h.1)
  refine ⟨_, he.trans (runCommand_pass hpass), Frame.setTwoSlots .., ?_, ?_, fun n hn => ⟨?_, ?_⟩⟩
  · rw [writeSplit, State.tag_complete, State.tag_setSlot, if_neg hslot, State.tag_setSlot, if_pos ⟨rfl, d.isLt⟩]
  · exact tag_setSlot_self ..
  · rw [writeSplit, State.word, State.poly_complete, State.poly_setSlot, if_neg hslot, State.poly_setSlot,
      if_pos ⟨rfl, d.isLt⟩, Poly.word_mapWords _ _ hn]
    rfl
  · exact (word_setSlot_self ..).trans (Poly.word_mapWords _ _ hn)

end

/-! ## P2R -/

theorem Params.d_of_legal {p : Params} (h : p.legal = true) : 1 ≤ p.d ∧ p.d ≤ 22 := by
  simp only [Params.legal, decide_eq_true_eq] at h
  omega

/-- A quotient by a step of at least 2 whose remainder is smaller than the step is a number below 2^32 (41_rounding.md
R143, R147). -/
theorem quotient_range {w q step lo : Int} (hw : w = q * step + lo) (h0 : 0 ≤ w) (h1 : w < 2 ^ 32) (hstep : 2 ≤ step)
    (hlow : -2 ^ 31 ≤ lo) (hhigh : lo < step) : 0 ≤ q ∧ q < 2 ^ 32 := by
  constructor
  · by_contra hneg
    have : q * step ≤ -1 * step := mul_le_mul_of_nonneg_right (by omega) (by omega)
    omega
  · by_contra hbig
    have : 2 ^ 32 * 2 ≤ q * step := mul_le_mul (by omega) hstep (by omega) (by omega)
    omega

/-- Settles O23: `power2Round_spec` splits the word, and both parts fit their words. -/
theorem p2rCommand : Obligations.P2rCommand := by
  unfold Obligations.P2rCommand
  intro s d a b hlegal
  obtain ⟨hrange, huninit, hdomain⟩ := split_faults (i := .p2r d a b) (s := s) rfl
  refine ⟨encodes_of_encode_eq rfl rfl, hrange, huninit, hdomain, fun hne htag => ?_⟩
  obtain ⟨t, ht, hframe, hd, hb, hwords⟩ := split_completes (i := .p2r d a b) (s := s) rfl hne htag
  refine ⟨t, ht, hframe, hd, hb, fun n hn => ?_⟩
  obtain ⟨hhigh, hlow⟩ := hwords n hn
  obtain ⟨hd1, hd22⟩ := Params.d_of_legal hlegal
  obtain ⟨hw, hlo, hlo'⟩ := power2Round_spec hd1 (s.word a.toNat n).toNat
  generalize power2Round s.env.params.d (s.word a.toNat n).toNat = split at *
  generalize s.env.params.d = e at *
  have hlt := (s.word a.toNat n).isLt
  have hpow : (2 : Int) ^ e = 2 * 2 ^ (e - 1) := by rw [← pow_succ', Nat.sub_add_cancel hd1]
  have hpow1 : (1 : Int) ≤ 2 ^ (e - 1) := one_le_pow₀ (by decide)
  have hpow22 : (2 : Int) ^ (e - 1) ≤ 2 ^ 21 := pow_le_pow_right₀ (by decide) (by omega)
  obtain ⟨hq0, hq1⟩ := quotient_range hw (by omega) (by omega) (by omega) (by omega) (by omega)
  have hword : ((t.word d.toNat n).toNat : Int) = split.1 := by rw [hhigh, toNat_wordOfInt hq0 hq1]
  refine ⟨split.2, hlo, hlo', by rw [hword]; exact hw, ?_, fun hcanonical => ?_⟩
  · rw [hlow, toNat_wordOfInt] <;> rw [Q_eq] <;> omega
  · have hsplit : (2 : Int) ^ 23 = 2 ^ (23 - e) * 2 ^ e := by rw [← pow_add, Nat.sub_add_cancel (by omega)]
    zify
    rw [hword]
    by_contra hbig
    have : (2 ^ (23 - e) + 1) * (2 : Int) ^ e ≤ split.1 * 2 ^ e :=
      mul_le_mul_of_nonneg_right (by omega) (by omega)
    rw [add_mul, one_mul, ← hsplit] at this
    rw [Q_eq] at hcanonical
    omega

/-! ## DECOMP -/

theorem gamma2_of_legal {p : Params} (h : p.legal = true) : 1 ≤ p.gamma2 ∧ 4 * p.gamma2 ≤ Q - 1 := by
  have hm := Params.m_mul_of_legal h
  have hg := gamma2_pos hm
  simp only [Params.legal, decide_eq_true_eq] at h
  obtain ⟨-, -, -, -, -, -, -, -, -, -, hm2, -⟩ := h
  have : (2 : Int) * (2 * p.gamma2) ≤ p.m * (2 * p.gamma2) := mul_le_mul_of_nonneg_right (by omega) (by omega)
  rw [Q_eq] at *
  omega

/-- The words DECOMP stores for a word `w` in band `q` (R145). -/
theorem decompose_words {p : Params} (hlegal : p.legal = true) (w : Word) :
    ∃ q r : Int, -(p.gamma2 : Int) < r ∧ r ≤ p.gamma2 ∧ (w.toNat : Int) = q * (2 * p.gamma2) + r ∧ 0 ≤ q ∧ q < 2 ^ 32 ∧
      (q * (2 * p.gamma2) = Q - 1 → decompose p.gamma2 w.toNat = (0, r - 1)) ∧
      (q * (2 * p.gamma2) ≠ Q - 1 → decompose p.gamma2 w.toNat = (q, r)) := by
  obtain ⟨hg1, hg4⟩ := gamma2_of_legal hlegal
  obtain ⟨q, r, hr, hr', hw, hsplit⟩ := decompose_spec (g := p.gamma2) (by omega) w.toNat
  have hlt := w.isLt
  rw [Q_eq] at hg4
  obtain ⟨hq0, hq1⟩ := quotient_range hw (by omega) (by omega) (by omega) (by omega) (by omega)
  exact ⟨q, r, hr, hr', hw, hq0, hq1, fun h => by rw [hsplit, if_pos h], fun h => by rw [hsplit, if_neg h]⟩

theorem toNat_low_word {g : Nat} (hg : 4 * g ≤ Q - 1) {r : Int} (hr : -(g : Int) ≤ r) (hr' : r ≤ g) :
    ((wordOfInt ((Q : Int) + r)).toNat : Int) = Q + r := by
  rw [Q_eq] at *
  exact toNat_wordOfInt (by omega) (by omega)

/-- Settles O24: the two words of the word's band (`decompose_words`). -/
theorem decompCommand : Obligations.DecompCommand := by
  unfold Obligations.DecompCommand
  intro s d a b hlegal
  obtain ⟨hrange, huninit, hdomain⟩ := split_faults (i := .decomp d a b) (s := s) rfl
  refine ⟨encodes_of_encode_eq rfl rfl, hrange, huninit, hdomain, fun hne htag => ?_⟩
  obtain ⟨t, ht, hframe, hd, hb, hwords⟩ := split_completes (i := .decomp d a b) (s := s) rfl hne htag
  obtain ⟨-, hg⟩ := gamma2_of_legal hlegal
  refine ⟨t, ht, hframe, hd, hb, fun n hn => ?_⟩
  obtain ⟨hhigh, hlow⟩ := hwords n hn
  obtain ⟨q, r, hr, hr', hw, hq0, hq1, htop, hband⟩ := decompose_words hlegal (s.word a.toNat n)
  refine ⟨q, r, hr, hr', hw, fun h => ?_, fun h => ?_⟩
  · rw [hhigh, hlow, htop h]
    exact ⟨rfl, toNat_low_word hg (by omega) (by omega)⟩
  · rw [hhigh, hlow, hband h]
    exact ⟨toNat_wordOfInt hq0 hq1, toNat_low_word hg (by omega) hr'⟩

theorem m_of_legal {p : Params} (h : p.legal = true) : 0 < p.m ∧ p.m < 2 ^ 32 := by
  have hle : p.m ≤ Q - 1 := Nat.div_le_self ..
  simp only [Params.legal, decide_eq_true_eq] at h
  rw [Q_eq] at hle
  omega

/-- The high part of a canonical word is below M (R146). -/
theorem decompose_fst_lt {p : Params} (hlegal : p.legal = true) {w : Word} (hw : w.toNat < Q) :
    (decompose p.gamma2 w.toNat).1 < p.m := by
  have hm := Params.m_mul_of_legal hlegal
  obtain ⟨hg1, -⟩ := gamma2_of_legal hlegal
  obtain ⟨q, r, hr, hr', hsum, hq0, -, htop, hband⟩ := decompose_words hlegal w
  by_cases h : q * (2 * p.gamma2) = Q - 1
  · rw [htop h]
    have := (m_of_legal hlegal).1
    omega
  · rw [hband h]
    by_contra hbig
    have hne : q ≠ p.m := fun h' => h (h' ▸ hm)
    have : ((p.m : Int) + 1) * (2 * p.gamma2) ≤ q * (2 * p.gamma2) :=
      mul_le_mul_of_nonneg_right (by omega) (by omega)
    rw [add_mul, one_mul, hm] at this
    omega

/-- Settles O25: below the top band a canonical word's band is its high part; the top band wraps to 0. -/
theorem decompContract : Obligations.DecompContract := by
  unfold Obligations.DecompContract
  intro s d a b hlegal hne htag hcanonical
  obtain ⟨t, ht, -, -, -, hwords⟩ := split_completes (i := .decomp d a b) (s := s) rfl hne htag
  obtain ⟨hg1, hg⟩ := gamma2_of_legal hlegal
  refine ⟨t, ht, fun n hn => ?_⟩
  obtain ⟨hhigh, hlow⟩ := hwords n hn
  have hlt : (s.word a.toNat n).toNat < Q := hcanonical n hn
  obtain ⟨q, r, hr, hr', hw, hq0, hq1, htop, hband⟩ := decompose_words hlegal (s.word a.toNat n)
  by_cases h : q * (2 * s.env.params.gamma2) = Q - 1
  · rw [hhigh, hlow, htop h]
    have hzero : (wordOfInt 0).toNat = 0 := rfl
    refine ⟨r - 1, toNat_low_word hg (by omega) (by omega), ?_, Nat.zero_le _, by omega, by omega, fun hedge => ⟨?_, rfl⟩⟩
    · rw [hzero, Nat.cast_zero, zero_mul, zero_add, Q_eq] at *
      omega
    · rw [Q_eq] at *; omega
  · rw [hhigh, hlow, hband h]
    have hqm := decompose_fst_lt hlegal hlt
    rw [hband h] at hqm
    have hqw := toNat_wordOfInt hq0 hq1
    refine ⟨r, toNat_low_word hg (by omega) hr', ?_, by dsimp only at hqm ⊢; omega, by omega, hr', fun hedge => by omega⟩
    rw [hqw, ← hw]
    exact Int.emod_eq_of_lt (by omega) (by omega)

/-! ## CHKNORM -/

/-- R148's lines over the integers, on every 32-bit word. -/
theorem toNat_normValue_eq (w : Word) :
    ((normValue w).toNat : Int) =
      let x : Int := (4190208 - (w.toNat : Int)) % 2 ^ 32
      let t : Int := if x < 2 ^ 31 then x else x - 2 ^ 32
      let t : Int := if t < 0 then -t - 1 else t
      (4190208 - t) % 2 ^ 32 := by
  have hsigned (x : Int) : (wordOfInt x).toInt = if x % 2 ^ 32 < 2 ^ 31 then x % 2 ^ 32 else x % 2 ^ 32 - 2 ^ 32 := by
    rw [wordOfInt, BitVec.toInt_ofInt]
    rfl
  have hunsigned (x : Int) : ((wordOfInt x).toNat : Int) = x % 2 ^ 32 := by
    rw [wordOfInt, BitVec.toNat_ofInt]
    omega
  have hhalf : (((Q - 1) / 2 : Nat) : Int) = 4190208 := by decide
  simp only [normValue, hunsigned, hsigned, hhalf]

/-- Settles O26: `NORM` is `overBound`, whose values are R148's lines (`toNat_normValue_eq`). -/
theorem chknormCommand : Obligations.ChknormCommand := by
  unfold Obligations.ChknormCommand
  intro s a value
  have hvalue (w : Word) : ((normValue w).toNat : Int) = value w := toNat_normValue_eq w
  have he : exec (.chknorm a) s = runCommand (.chknorm a) (s.sourceChecks .std [a.toNat])
      (fun s => s.setNorm (overBound s.bound (s.poly a.toNat))) s := by rw [exec, execChknorm]
  obtain ⟨huninit, hdomain⟩ := faultsAs_of_source he
  refine ⟨encodes_of_encode_eq rfl rfl, huninit, fun h => hdomain (by simp [h]) (by simp [h]), fun h => ?_⟩
  have hover : overBound s.bound (s.poly a.toNat) = true ↔
      ∃ n < 256, (s.bound.toNat : Int) ≤ value (s.word a.toNat n) := by
    simp only [overBound_eq_true, ← hvalue, Nat.cast_le, State.word]
  refine ⟨_, exec_chknorm_of_std h, ⟨fun _ _ => ⟨rfl, rfl⟩, fun _ => rfl, rfl, rfl, rfl, rfl, rfl, rfl, rfl, rfl, rfl, rfl⟩,
    ⟨rfl, rfl⟩, rfl, ⟨rfl, rfl⟩, fun n _ => hvalue _, hover, rfl, fun hbound => hover.2 ⟨0, by decide, ?_⟩⟩
  rw [hbound, ← hvalue]
  exact Int.natCast_nonneg _

/-! ## USEHINT -/

/-- A nonzero hint moves the high part one step modulo M, up where the low part is positive (R214). -/
theorem applyHint_of_ne_zero {p : Params} {value hint : Word} (h : hint ≠ 0) :
    applyHint p value hint =
      if 0 < (decompose p.gamma2 value.toNat).2 then wordOfInt (((decompose p.gamma2 value.toNat).1 + 1) % (p.m : Int))
      else wordOfInt (((decompose p.gamma2 value.toNat).1 - 1) % (p.m : Int)) :=
  if_neg h

/-- A number modulo M is stored as it is. -/
theorem toNat_wordOfInt_emod {m : Nat} (hm : 0 < m) (hmax : m < 2 ^ 32) (x : Int) :
    ((wordOfInt (x % (m : Int))).toNat : Int) = x % (m : Int) := by
  have hnonneg := Int.emod_nonneg x (b := m) (by omega)
  have hlt := Int.emod_lt_of_pos x (b := m) (by omega)
  exact toNat_wordOfInt hnonneg (by omega)

/-- The high part of a word of `Decompose` is stored as it is. -/
theorem toNat_wordOfInt_high {p : Params} (hlegal : p.legal = true) (w : Word) :
    ((wordOfInt (decompose p.gamma2 w.toNat).1).toNat : Int) = (decompose p.gamma2 w.toNat).1 := by
  obtain ⟨q, r, -, -, -, hq0, hq1, htop, hband⟩ := decompose_words hlegal w
  by_cases h : q * (2 * p.gamma2) = Q - 1
  · rw [htop h]; rfl
  · rw [hband h]; exact toNat_wordOfInt hq0 hq1

/-- Settles O44: a word without a hint keeps its high part, one with a hint steps modulo M, and both fit their words. -/
theorem usehintCommand : Obligations.UsehintCommand := by
  unfold Obligations.UsehintCommand
  intro s d a b hlegal
  obtain ⟨huninit, hdomain⟩ := faultsAs_of_two_sources (exec_usehint d a b s)
  refine ⟨encodes_of_encode_eq rfl rfl, huninit, fun ha hb h => hdomain ha hb ?_, fun ha hb => ?_⟩
  · exact h.imp (fun h => by simp [h]) (fun h => by simp [h])
  obtain ⟨hm, hmax⟩ := m_of_legal hlegal
  refine ⟨_, exec_usehint_of_std d ha hb, Frame.setSlot .., tag_setSlot_self .., fun n hn r1 r0 hsplit => ?_,
    fun n hn hcanonical => ?_⟩ <;> rw [word_writeCorrected d a b s hn]
  · have hhigh := toNat_wordOfInt_high hlegal (s.word a.toNat n)
    rw [hsplit] at hhigh
    refine ⟨fun hzero => ?_, fun hhint hpos => ?_, fun hhint hneg => ?_⟩
    · rw [hzero, applyHint_zero, hsplit, hhigh]
    · rw [applyHint_of_ne_zero hhint, hsplit, if_pos hpos, toNat_wordOfInt_emod hm hmax]
    · rw [applyHint_of_ne_zero hhint, hsplit, if_neg hneg.not_gt, toNat_wordOfInt_emod hm hmax]
  · have hstep (x : Int) : (wordOfInt (x % (s.env.params.m : Int))).toNat < s.env.params.m := by
      have := toNat_wordOfInt_emod hm hmax x
      have := Int.emod_lt_of_pos x (b := s.env.params.m) (by omega)
      omega
    by_cases hhint : s.word b.toNat n = 0
    · have hhigh := toNat_wordOfInt_high hlegal (s.word a.toNat n)
      have hlt := decompose_fst_lt hlegal hcanonical
      rw [hhint, applyHint_zero]
      omega
    · rw [applyHint_of_ne_zero hhint]
      split <;> exact hstep _

end Sys2Proof.Machine
end

section
/-! PROOFS. PWACC (42_vector.md R156, R157): the checks on two runs of slots, and the sum that the accumulator holds. -/

namespace Sys2Proof.Machine

/-! ## Two runs of slots -/

section
variable {a b : Slot} {l : Nat} {P : Nat → Prop}

theorem forall_mem_runs :
    (∀ k ∈ slotRun a l ++ slotRun b l, P k) ↔ ∀ j < l, P (a.toNat + j) ∧ P (b.toNat + j) := by
  simp only [slotRun, List.mem_append, List.mem_map, List.mem_range]
  constructor
  · exact fun h j hj => ⟨h _ (.inl ⟨j, hj, rfl⟩), h _ (.inr ⟨j, hj, rfl⟩)⟩
  · rintro h k (⟨j, hj, rfl⟩ | ⟨j, hj, rfl⟩)
    · exact (h j hj).1
    · exact (h j hj).2

theorem exists_mem_runs :
    (∃ k ∈ slotRun a l ++ slotRun b l, P k) ↔ ∃ j < l, P (a.toNat + j) ∨ P (b.toNat + j) := by
  simp only [slotRun, List.mem_append, List.mem_map, List.mem_range]
  constructor
  · rintro ⟨k, ⟨j, hj, rfl⟩ | ⟨j, hj, rfl⟩, hk⟩
    · exact ⟨j, hj, .inl hk⟩
    · exact ⟨j, hj, .inr hk⟩
  · rintro ⟨j, hj, h | h⟩
    · exact ⟨_, .inl ⟨j, hj, rfl⟩, h⟩
    · exact ⟨_, .inr ⟨j, hj, rfl⟩, h⟩

end

/-! ## The accumulator -/

/-- Word `i` of a fold of sums is the sum of the words `i`, modulo 2^32. -/
theorem toNat_word_foldl_add (p : Nat → Poly) (n : Nat) {i : Nat} (hi : i < 256) :
    (((List.range' 1 n).foldl (fun acc j => Poly.zipWords (· + ·) acc (p j)) (p 0)).word i).toNat =
      (∑ j ∈ Finset.range (n + 1), ((p j).word i).toNat) % 2 ^ 32 := by
  induction n with
  | zero => simp [Nat.mod_eq_of_lt ((p 0).word i).isLt]
  | succ n ih =>
    rw [List.range'_1_concat, List.foldl_append, List.foldl_cons, List.foldl_nil, Poly.word_zipWords _ _ _ hi,
      BitVec.toNat_add, ih, Finset.sum_range_succ _ (n + 1), Nat.add_comm 1 n, Nat.mod_add_mod]

/-- R156: the accumulator's words are the sums of the L Montgomery products. -/
theorem toNat_word_accumulate (s : State) (a b : Nat) {l : Nat} (hl : 1 ≤ l) {i : Nat} (hi : i < 256) :
    ((accumulate s a b l).word i).toNat =
      (∑ j ∈ Finset.range l, (mulMr (s.word (a + j) i) (s.word (b + j) i)).toNat) % 2 ^ 32 := by
  unfold accumulate
  rw [toNat_word_foldl_add _ _ hi, Nat.sub_add_cancel hl]
  simp only [Poly.word_zipWords mulMr _ _ hi, State.word]

/-! ## The command -/

/-- The effect of PWACC (R156; `exec_pwacc`). -/
def writeAccumulated (d a b : Slot) (s : State) : State :=
  s.setSlot d.toNat (accumulate s a.toNat b.toNat s.env.params.l) .ntt

theorem exec_pwacc (d a b : Slot) (s : State) :
    exec (.pwacc d a b) s =
      runCommand (.pwacc d a b) (s.accChecks a b s.env.params.l) (writeAccumulated d a b) s := rfl

section
variable {s : State} {d a b : Slot} (ha : a.toNat + s.env.params.l - 1 ≤ 255) (hb : b.toNat + s.env.params.l - 1 ≤ 255)
include ha hb

/-- With both runs in the slot file the tags of the 2·L sources are checked. -/
theorem accChecks_of_runs :
    firstViolated (s.accChecks a b s.env.params.l) =
      firstViolated (s.sourceChecks .ntt (slotRun a s.env.params.l ++ slotRun b s.env.params.l)) :=
  if_neg (by simp; omega)

theorem exec_pwacc_of_ntt
    (htag : ∀ j < s.env.params.l, s.tag (a.toNat + j) = .ntt ∧ s.tag (b.toNat + j) = .ntt) :
    exec (.pwacc d a b) s = .next (writeAccumulated d a b s).complete := by
  have hpass : firstViolated (s.accChecks a b s.env.params.l) = none :=
    (accChecks_of_runs ha hb).trans (State.sourceChecks_pass (by decide) (forall_mem_runs.2 htag))
  rw [exec_pwacc, runCommand_pass hpass]

end

theorem word_writeAccumulated (d a b : Slot) (s : State) (i : Nat) :
    (writeAccumulated d a b s).complete.word d.toNat i = (accumulate s a.toNat b.toNat s.env.params.l).word i :=
  word_setSlot_self ..

/-- Settles O28: the checks on the runs and their tags, and the accumulator's words. -/
theorem pwaccCommand : Obligations.PwaccCommand := by
  unfold Obligations.PwaccCommand
  rintro s d a b l rfl hl
  refine ⟨encodes_of_encode_eq rfl rfl, fun hpast => ?range, fun ha hb => ⟨fun h => ?uninit, fun htagged h => ?domain,
    fun htag => ?completes⟩⟩
  case range =>
    exact faultsAs_of_runCommand (c := .range) (exec_pwacc d a b s) (if_pos (by simpa using hpast))
  case uninit =>
    have hfirst := State.sourceChecks_uninit (t := .ntt) (exists_mem_runs.2 h)
    exact faultsAs_of_runCommand (exec_pwacc d a b s) ((accChecks_of_runs ha hb).trans hfirst)
  case domain =>
    obtain ⟨j, hj, hstd⟩ := h
    have hother : ∃ k ∈ slotRun a s.env.params.l ++ slotRun b s.env.params.l, s.tag k ≠ .ntt :=
      exists_mem_runs.2 ⟨j, hj, hstd.imp (fun h => by simp [h]) (fun h => by simp [h])⟩
    have hfirst := State.sourceChecks_domain (forall_mem_runs.2 htagged) hother
    exact faultsAs_of_runCommand (exec_pwacc d a b s) ((accChecks_of_runs ha hb).trans hfirst)
  case completes =>
    refine ⟨_, exec_pwacc_of_ntt ha hb htag, Frame.setSlot .., tag_setSlot_self .., fun i hi => ?_⟩
    rw [word_writeAccumulated, toNat_word_accumulate s _ _ hl hi]

/-! ## The contract -/

theorem Params.l_of_legal {p : Params} (h : p.legal = true) : 1 ≤ p.l ∧ p.l ≤ 255 := by
  simp only [Params.legal, decide_eq_true_eq] at h
  omega

/-- Settles O29: each Montgomery product is below 2Q, so the sum of at most 255 does not wrap, and modulo Q the products
add up (`mr_spec`). -/
theorem pwaccContract : Obligations.PwaccContract := by
  unfold Obligations.PwaccContract
  intro s d a b hlegal ha hb htag
  obtain ⟨hl1, hl255⟩ := Params.l_of_legal hlegal
  refine ⟨_, exec_pwacc_of_ntt ha hb htag, fun i hi hedge => ?_⟩
  rw [word_writeAccumulated, toNat_word_accumulate s _ _ hl1 hi]
  generalize s.env.params.l = l at *
  have hspec (j : Nat) (hj : j ∈ Finset.range l) := mr_spec (hedge j (Finset.mem_range.1 hj))
  have hbound : ∑ j ∈ Finset.range l, (mulMr (s.word (a.toNat + j) i) (s.word (b.toNat + j) i)).toNat <
      ∑ _j ∈ Finset.range l, 2 * Q :=
    Finset.sum_lt_sum_of_nonempty ⟨0, Finset.mem_range.2 hl1⟩ fun j hj => (hspec j hj).1
  rw [Finset.sum_const, Finset.card_range, smul_eq_mul] at hbound
  have hmax : l * (2 * Q) ≤ 255 * (2 * Q) := Nat.mul_le_mul_right _ hl255
  rw [Nat.mod_eq_of_lt (by rw [Q_eq] at *; omega)]
  refine ⟨by rw [Nat.mul_comm 2 l, Nat.mul_assoc]; exact hbound, ?_⟩
  rw [Finset.sum_mul]
  exact Nat.ModEq.sum fun j hj => (hspec j hj).2

end Sys2Proof.Machine
end

section
/-! PROOFS. What the stream commands share (44_samplers.md R174 to R176, 60_exceptions.md R237): decode-time faults, a
session that aborts, a session whose blocks are served, and the commit of the seed samplers. -/

namespace Sys2Proof.Machine

/-! ## Decode-time checks -/

theorem State.alenTooLong_eq_false {s : State} : s.alenTooLong = false ↔ s.alen.toNat ≤ 1024 := by
  rw [← Bool.not_eq_true, State.alenTooLong_eq_true, Nat.not_lt]

theorem seedChecks_pass {s : State} (halen : s.alen.toNat ≤ 1024) (hnovf : s.novf = false) :
    firstViolated s.seedChecks = none := by
  simp [State.seedChecks, State.alenTooLong_eq_false.2 halen, hnovf]

theorem alenCheck_pass {s : State} (halen : s.alen.toNat ≤ 1024) : firstViolated [(.alen, s.alenTooLong)] = none := by
  simp [State.alenTooLong_eq_false.2 halen]

/-- The decode-time faults of SUNIF, SETA and SGAM1 (R174). -/
theorem seed_faults {α : Type} {i : Instr} {dests : List Nat} {commit : State → α → State} {r : Ended α} {s : State}
    (he : exec i s = runStream i s.seedChecks dests commit r s) :
    (1024 < s.alen.toNat → FaultsAs i s 5) ∧ (s.alen.toNat ≤ 1024 → s.novf = true → FaultsAs i s 6) := by
  refine ⟨fun h => ?_, fun halen hnovf => ?_⟩
  · exact faultsAs_of_runStream (c := .alen) he (if_pos (State.alenTooLong_eq_true.2 h))
  · refine faultsAs_of_runStream (c := .nonce) he ?_
    simp [State.seedChecks, State.alenTooLong_eq_false.2 halen, hnovf]

/-- Settles O30: the first violated check of each command's list. -/
theorem streamDecodeFaults : Obligations.StreamDecodeFaults := by
  unfold Obligations.StreamDecodeFaults
  intro s d
  refine ⟨fun i hi => ?seed, fun halen => ?chal, fun hpast => ?range, fun hin halen => ?alen⟩
  case seed =>
    simp only [List.mem_cons, List.not_mem_nil, or_false] at hi
    rcases hi with rfl | rfl | rfl <;> exact seed_faults rfl
  case chal =>
    exact faultsAs_of_runStream (c := .alen) (i := .chal d) rfl (if_pos (State.alenTooLong_eq_true.2 halen))
  case range =>
    exact faultsAs_of_runStream (c := .range) (i := .expmat d) rfl (if_pos (passesEnd_eq_true.2 hpast))
  case alen =>
    have hpass : ¬ passesEnd d (s.env.params.k * s.env.params.l) = true := by rw [passesEnd_eq_true]; omega
    exact faultsAs_of_runStream (c := .alen) (i := .expmat d) rfl
      ((if_neg hpass).trans (if_pos (State.alenTooLong_eq_true.2 halen)))

/-! ## Sessions that abort -/

theorem FaultCode.code_of_session_eq {c : FaultCode} (h : c = .xofLim ∨ c = .xofErr) :
    c.code = if c = .xofLim then 7 else 8 := by
  rcases h with rfl | rfl <;> rfl

theorem uniformSample_aborted {e : Env} {v : Variant} {m : List Byte} {c : FaultCode}
    (h : uniformSample e v m = .aborted c) : c = .xofLim ∨ c = .xofErr :=
  openSession_aborted (Ended.map_eq_aborted.1 h)

theorem etaSample_aborted {e : Env} {m : List Byte} {c : FaultCode}
    (h : etaSample e m = .aborted c) : c = .xofLim ∨ c = .xofErr :=
  openSession_aborted (Ended.map_eq_aborted.1 h)

theorem gamma1Sample_aborted {e : Env} {m : List Byte} {c : FaultCode}
    (h : gamma1Sample e m = .aborted c) : c = .xofLim ∨ c = .xofErr :=
  openSession_aborted (Ended.map_eq_aborted.1 h)

theorem challengeSample_aborted {e : Env} {m : List Byte} {c : FaultCode}
    (h : challengeSample e m = .aborted c) : c = .xofLim ∨ c = .xofErr :=
  openSession_aborted (Ended.map_eq_aborted.1 h)

/-- Where the checks pass and the session aborts, the command ends in `State.abort` (R176). -/
theorem exec_of_aborted {α : Type} {i : Instr} {checks : List (FaultCode × Bool)} {dests : List Nat}
    {commit : State → α → State} {r : Ended α} {s : State} {c : FaultCode}
    (he : exec i s = runStream i checks dests commit r s) (hpass : firstViolated checks = none)
    (hr : r = .aborted c) : exec i s = .next (s.abort c (encode i) dests) := by
  rw [he, hr, runStream_aborted hpass]

/-- Where the checks pass and the session commits, the command commits and completes (R175). -/
theorem exec_of_done {α : Type} {i : Instr} {checks : List (FaultCode × Bool)} {dests : List Nat}
    {commit : State → α → State} {r : Ended α} {s : State} {x : α}
    (he : exec i s = runStream i checks dests commit r s) (hpass : firstViolated checks = none)
    (hr : r = .done x) : exec i s = .next (commit s x).complete := by
  rw [he, hr, runStream_done hpass]

/-- Settles O38: each session ends in `State.abort`, whose lemmas say what it writes. -/
theorem sessionFaults : Obligations.SessionFaults := by
  unfold Obligations.SessionFaults
  intro s d c halen i hsession
  have haborts : (c = .xofLim ∨ c = .xofErr) ∧ exec i s = .next (s.abort c (encode i) [d.toNat]) := by
    rcases hsession with ⟨rfl, hnovf, hr⟩ | ⟨rfl, hnovf, hr⟩ | ⟨rfl, hnovf, hr⟩ | ⟨rfl, hr⟩
    · exact ⟨uniformSample_aborted hr, exec_of_aborted rfl (seedChecks_pass halen hnovf) hr⟩
    · exact ⟨etaSample_aborted hr, exec_of_aborted rfl (seedChecks_pass halen hnovf) hr⟩
    · exact ⟨gamma1Sample_aborted hr, exec_of_aborted rfl (seedChecks_pass halen hnovf) hr⟩
    · exact ⟨challengeSample_aborted hr, exec_of_aborted rfl (alenCheck_pass halen) hr⟩
  obtain ⟨hc, hexec⟩ := haborts
  refine ⟨hc, _, hexec, tag_abort_mem s c _ (by simp), fun k hk => ?_, rfl, FaultCode.code_of_session_eq hc, rfl,
    ⟨State.abort_nonce .., State.abort_novf ..⟩, ⟨State.abort_norm .., State.abort_rej ..⟩, State.abort_hintcnt ..,
    ⟨State.abort_sqzcnt .., State.abort_rejcnt ..⟩, State.abort_cmdcnt .., fun a => by rw [State.abort_mem],
    State.abort_alen .., State.abort_bound ..⟩
  exact (abort_not_mem s c _ (by simpa using hk)).symm

/-! ## Sessions whose blocks are served -/

theorem atLimit_of_withinLimit {e : Env} {k : Nat} (h : WithinLimit e k) : e.atLimit k = false := by
  by_contra hat
  exact Nat.lt_irrefl k (h k (atLimit_eq_true.1 (by simpa using hat)))

/-- Served blocks are what `openSession_served` asks for. -/
theorem Serves.blocks {e : Env} {v : Variant} {m : List Byte} {bytes : Nat} (h : Serves e v m bytes) :
    ∀ k < (bytes + v.rate - 1) / v.rate, e.atLimit k = false ∧ e.squeezeFails v m k = false :=
  fun k hk => ⟨atLimit_of_withinLimit (h k hk).1, (h k hk).2⟩

/-! ## The commit of the seed samplers (R175) -/

/-- SUNIF, SETA and SGAM1 complete with what their session leaves. -/
theorem exec_seed_of_done {i : Instr} {d : Slot} {tag : Tag} {r : Ended Sample} {s : State} {x : Sample}
    (he : exec i s = runStream i s.seedChecks [d.toNat] (commitSeed d.toNat tag) r s)
    (halen : s.alen.toNat ≤ 1024) (hnovf : s.novf = false) (hr : r = .done x) :
    exec i s = .next (commitSeed d.toNat tag s x).complete :=
  exec_of_done he (seedChecks_pass halen hnovf) hr

section
variable (s : State) (d : Slot) (tag : Tag) (x : Sample)

theorem commitSeed_frame : SeedFrame s (commitSeed d.toNat tag s x).complete d.toNat :=
  ⟨{ (Frame.setSlot s d.toNat x.out tag).1 with }, ⟨rfl, rfl⟩, rfl⟩

theorem commitSeed_nonce : NonceBumped s (commitSeed d.toNat tag s x).complete := ⟨rfl, rfl⟩

theorem toNat_sqzcnt_commitSeed (h : x.nblk < 2 ^ 32) :
    (commitSeed d.toNat tag s x).complete.sqzcnt.toNat = x.nblk :=
  toNat_fitWord h _

theorem toNat_rejcnt_commitSeed (h : x.rej < 2 ^ 32) : (commitSeed d.toNat tag s x).complete.rejcnt.toNat = x.rej :=
  toNat_fitWord h _

theorem tag_commitSeed : (commitSeed d.toNat tag s x).complete.tag d.toNat = tag :=
  tag_setSlot_self s d x.out tag

theorem poly_commitSeed : (commitSeed d.toNat tag s x).complete.poly d.toNat = x.out :=
  poly_setSlot_self s d x.out tag

end

end Sys2Proof.Machine
end

section
/-! PROOFS. The three sampler profiles where their blocks are served (44_samplers.md R177 to R183): the sample of the
session, and what the command then leaves. -/

namespace Sys2Proof.Machine

variable {e : Env} {v : Variant} {m : List Byte}

/-! ## The candidate that fills the slot -/

section
variable {accept : Nat → Bool} {cand : Nat → Nat} {n : Nat}

/-- Before the candidate that fills the slot fewer than 256 are accepted. -/
theorem FillsAt.length_lt (h : FillsAt accept cand n) {n' : Nat} (hn : n' < n) :
    (acceptedOf accept cand n').length < 256 := by
  obtain ⟨hlen, hpos, hlast⟩ := h
  have hsucc := acceptedOf_succ accept cand (n - 1)
  rw [Nat.sub_add_cancel hpos, if_pos hlast] at hsucc
  have hmono := acceptedOf_length_mono accept cand (show n' ≤ n - 1 by omega)
  rw [hsucc, List.length_append, List.length_singleton] at hlen
  omega

theorem of_mem_acceptedOf {t : Nat} (ht : t ∈ acceptedOf accept cand n) : accept t = true :=
  (List.mem_filter.1 ht).2

/-- 256 words stored for the accepted candidates read back as the numbers stored. -/
theorem map_toNat_words_ofList {word : Nat → Nat} (hlen : (acceptedOf accept cand n).length = 256)
    (hfits : ∀ t, accept t = true → word t < 2 ^ 32) :
    (Poly.ofList ((acceptedOf accept cand n).map fun t => BitVec.ofNat 32 (word t))).words.map BitVec.toNat =
      (acceptedOf accept cand n).map word := by
  rw [Poly.words_ofList_of_length (by rw [List.length_map, hlen]), List.map_map]
  exact List.map_congr_left fun t ht => toNat_ofNat_of_lt (hfits t (of_mem_acceptedOf ht))

end

/-- The sample of a sieve that has taken `n` candidates. -/
theorem sample_sieveAfter {accept : Nat → Bool} {cand : Nat → Nat} {word : Nat → Word} {n nblk : Nat} {part : List Byte}
    (hlen : (acceptedOf accept cand n).length = 256) :
    Sieve.sample (sieveAfter accept cand word n part, nblk) =
      ⟨Poly.ofList ((acceptedOf accept cand n).map word), nblk, n - 256⟩ := by
  simp only [Sieve.sample, sieveAfter, List.reverse_reverse, hlen]

/-! ## SUNIF -/

/-- The uniform profile fed the three bytes of each candidate up to the one that fills the slot (R177). -/
theorem uniformSample_of_fillsAt {n : Nat} (hfill : FillsAt (fun t => decide (t < Q)) (uniformAt e v m) n)
    (hserve : Serves e v m (3 * n)) :
    uniformSample e v m =
      .done ⟨Poly.ofList ((acceptedOf (fun t => decide (t < Q)) (uniformAt e v m) n).map (BitVec.ofNat 32)),
        blocksFor v (3 * n), n - 256⟩ := by
  have hstop : (afterBytes e v m uniformFeed Sieve.start (3 * n)).full = true := by
    rw [uniform_afterBytes, sieveAfter_full, Nat.mul_div_cancel_left n (by decide)]
    exact hfill.1
  have hgo (c : Nat) (hc : c < 3 * n) : (afterBytes e v m uniformFeed Sieve.start c).full = false :=
    uniform_goes_on (hfill.length_lt (by omega)) le_rfl
  rw [uniformSample, openSession_served hserve.blocks hgo hstop, Ended.map_done, uniform_afterBytes,
    Nat.mul_div_cancel_left n (by decide), sample_sieveAfter hfill.1]
  rfl

/-- Settles O31: the session's sample committed; the accepted candidates are below Q, so they are their words. -/
theorem sunifCommand : Obligations.SunifCommand := by
  unfold Obligations.SunifCommand
  rintro s d n m halen hnovf rfl hfill hserve
  refine ⟨encodes_of_encode_eq rfl rfl, _,
    exec_seed_of_done (i := .sunif d) rfl halen hnovf (uniformSample_of_fillsAt hfill hserve),
    commitSeed_frame .., commitSeed_nonce .., tag_commitSeed .., ?_, fun h => toNat_sqzcnt_commitSeed _ _ _ _ h,
    fun h => toNat_rejcnt_commitSeed _ _ _ _ h⟩
  have hfits (t : Nat) (ht : decide (t < Q) = true) : t < 2 ^ 32 := by
    have := of_decide_eq_true ht
    rw [Q_eq] at this
    omega
  rw [poly_commitSeed]
  exact (map_toNat_words_ofList (word := id) hfill.1 hfits).trans (List.map_id _)

/-! ## SETA -/

/-- The eta profile fed the bytes up to the nibble that fills the slot, the byte's high nibble unread if it is the low
one (R179). -/
theorem eta_afterBytes_of_fillsAt {eta n : Nat}
    (hfill : FillsAt (fun v => decide (v ≤ 2 * eta)) (nibbleAt e m) n) :
    afterBytes e .v256 m (etaFeed eta) Sieve.start ((n + 1) / 2) =
      sieveAfter (fun v => decide (v ≤ 2 * eta)) (nibbleAt e m) (fun v => BitVec.ofNat 32 (Q + eta - v)) n [] := by
  have hpos := hfill.2.1
  have hbefore := hfill.length_lt (n' := 2 * ((n - 1) / 2)) (by omega)
  rw [show (n + 1) / 2 = (n - 1) / 2 + 1 by omega, afterBytes_succ, eta_afterBytes hbefore, etaFeed_sieveAfter]
  congr 1
  rcases Nat.even_or_odd' (n - 1) with ⟨c, hc | hc⟩
  · rw [if_pos]
    · omega
    · rw [show 2 * ((n - 1) / 2) + 1 = n by omega]; exact hfill.1
  · rw [if_neg (hfill.length_lt (by omega)).ne]
    omega

/-- The sample of the eta profile (R179). -/
theorem etaSample_of_fillsAt {n : Nat}
    (hfill : FillsAt (fun v => decide (v ≤ 2 * e.params.eta)) (nibbleAt e m) n) (hserve : Serves e .v256 m ((n + 1) / 2)) :
    etaSample e m =
      .done ⟨Poly.ofList ((acceptedOf (fun v => decide (v ≤ 2 * e.params.eta)) (nibbleAt e m) n).map
        fun v => BitVec.ofNat 32 (Q + e.params.eta - v)), blocksFor .v256 ((n + 1) / 2), n - 256⟩ := by
  have hstop : (afterBytes e .v256 m (etaFeed e.params.eta) Sieve.start ((n + 1) / 2)).full = true := by
    rw [eta_afterBytes_of_fillsAt hfill, sieveAfter_full]
    exact hfill.1
  have hgo (c : Nat) (hc : c < (n + 1) / 2) : (afterBytes e .v256 m (etaFeed e.params.eta) Sieve.start c).full = false :=
    eta_goes_on (hfill.length_lt (by omega)) le_rfl
  rw [etaSample, openSession_served hserve.blocks hgo hstop, Ended.map_done, eta_afterBytes_of_fillsAt hfill,
    sample_sieveAfter hfill.1]
  rfl

theorem Params.eta_of_legal {p : Params} (h : p.legal = true) : p.eta ≤ 7 := by
  simp only [Params.legal, decide_eq_true_eq] at h
  omega

/-- Settles O32: the session's sample committed. -/
theorem setaCommand : Obligations.SetaCommand := by
  unfold Obligations.SetaCommand
  rintro s d n m hlegal halen hnovf rfl hfill hserve
  refine ⟨encodes_of_encode_eq rfl rfl, _,
    exec_seed_of_done (i := .seta d) rfl halen hnovf (etaSample_of_fillsAt hfill hserve),
    commitSeed_frame .., commitSeed_nonce .., tag_commitSeed .., ?_, fun h => toNat_sqzcnt_commitSeed _ _ _ _ h,
    fun h => toNat_rejcnt_commitSeed _ _ _ _ h⟩
  have heta := Params.eta_of_legal hlegal
  rw [poly_commitSeed]
  exact map_toNat_words_ofList hfill.1 fun t _ => by rw [Q_eq]; omega

/-! ## SGAM1 -/

/-- The bytes a bit string is fed are its number, the first byte least significant (R182). -/
theorem gamma1_bits (c : Nat) : (afterBytes e .v256 m BitString.feed ⟨0, 0⟩ c).bits = signField e m c := by
  induction c with
  | zero => rfl
  | succ c ih => rw [afterBytes_succ, BitString.feed, gamma1_afterBytes, ih, signField, signField, Finset.sum_range_succ]

theorem signField_succ (c : Nat) :
    signField e m (c + 1) = signField e m c + (e.streamByte .v256 m c).toNat * 2 ^ (8 * c) :=
  Finset.sum_range_succ ..

theorem signField_lt (c : Nat) : signField e m c < 2 ^ (8 * c) := by
  induction c with
  | zero => exact Nat.one_pos
  | succ c ih =>
    have hbyte : (e.streamByte .v256 m c).toNat * 2 ^ (8 * c) ≤ 255 * 2 ^ (8 * c) :=
      Nat.mul_le_mul_right _ (Nat.le_of_lt_succ (e.streamByte .v256 m c).isLt)
    rw [signField_succ, show 2 ^ (8 * (c + 1)) = 2 ^ (8 * c) * 256 by rw [Nat.mul_succ, pow_add]; rfl]
    omega

/-- Byte `q` of the number the first `c` bytes spell. -/
theorem signField_byte {q c : Nat} (h : q < c) :
    signField e m c / 2 ^ (8 * q) % 256 = (e.streamByte .v256 m q).toNat := by
  induction c, h using Nat.le_induction with
  | base =>
    rw [signField_succ, Nat.add_mul_div_right _ _ (by positivity), Nat.div_eq_of_lt (signField_lt q), Nat.zero_add,
      Nat.mod_eq_of_lt (e.streamByte .v256 m q).isLt]
  | succ c hc ih =>
    have hpow : (2 : Nat) ^ (8 * c) = 2 ^ (8 * (c - (q + 1))) * 256 * 2 ^ (8 * q) := by
      rw [show (256 : Nat) = 2 ^ 8 by decide, ← pow_add, ← pow_add]
      congr 1
      omega
    rw [signField_succ, hpow, ← Nat.mul_assoc, Nat.add_mul_div_right _ _ (by positivity), ← Nat.mul_assoc,
      Nat.add_mul_mod_self_right, ih]

/-- A bit of a number below 2^8 above a multiple of 2^8. -/
theorem div_mod_two_of_lt_eight (x : Nat) {r : Nat} (hr : r < 8) : x / 2 ^ r % 2 = x % 256 / 2 ^ r % 2 := by
  interval_cases r <;> omega

/-- Bit `n` of the number is bit `n` of the stream. -/
theorem signField_bit {n c : Nat} (h : n < 8 * c) : signField e m c / 2 ^ n % 2 = bitAt e m n := by
  have hsplit : (2 : Nat) ^ n = 2 ^ (8 * (n / 8)) * 2 ^ (n % 8) := by rw [← pow_add, Nat.div_add_mod]
  rw [hsplit, ← Nat.div_div_eq_div_mul, div_mod_two_of_lt_eight _ (Nat.mod_lt _ (by decide)), signField_byte (by omega),
    bitAt]

/-- A field of a number is the sum of its bits. -/
theorem field_eq_sum_bits (x start width : Nat) :
    x / 2 ^ start % 2 ^ width = ∑ b ∈ Finset.range width, x / 2 ^ (start + b) % 2 * 2 ^ b := by
  induction width with
  | zero => simp [Nat.mod_one]
  | succ width ih =>
    rw [Nat.mod_pow_succ, ih, Finset.sum_range_succ, Nat.div_div_eq_div_mul, ← pow_add, Nat.mul_comm (2 ^ width)]

/-- Field `k` of the first 32·YBITS bytes, bit by bit (R182). -/
theorem field_afterBytes {ybits k : Nat} (hk : k < 256) :
    (afterBytes e .v256 m BitString.feed ⟨0, 0⟩ (32 * ybits)).field ybits k =
      ∑ b ∈ Finset.range ybits, bitAt e m (ybits * k + b) * 2 ^ b := by
  rw [BitString.field, gamma1_bits, field_eq_sum_bits]
  refine Finset.sum_congr rfl fun b hb => ?_
  have hb := Finset.mem_range.1 hb
  have hmul : ybits * k ≤ ybits * 255 := Nat.mul_le_mul_left _ (by omega)
  rw [signField_bit (by omega)]

theorem gamma1Sample_of_serves (hserve : Serves e .v256 m (32 * e.params.ybits)) :
    gamma1Sample e m =
      .done ⟨Poly.ofList (gamma1Words e.params (afterBytes e .v256 m BitString.feed ⟨0, 0⟩ (32 * e.params.ybits))),
        blocksFor .v256 (32 * e.params.ybits), 0⟩ := by
  have hgo (c : Nat) (hc : c < 32 * e.params.ybits) :
      ((afterBytes e .v256 m BitString.feed ⟨0, 0⟩ c).len == 32 * e.params.ybits) = false := by
    rw [gamma1_afterBytes]; simpa using hc.ne
  have hstop : ((afterBytes e .v256 m BitString.feed ⟨0, 0⟩ (32 * e.params.ybits)).len == 32 * e.params.ybits) = true := by
    rw [gamma1_afterBytes]; exact beq_self_eq_true _
  rw [gamma1Sample, openSession_served hserve.blocks hgo hstop]
  rfl

theorem Params.ybits_of_legal {p : Params} (h : p.legal = true) : 2 ≤ p.ybits ∧ p.ybits ≤ 23 := by
  simp only [Params.legal, decide_eq_true_eq] at h
  omega

/-- A field is at most `Q + GAMMA1`, so its word and it add up to that (R182). -/
theorem toNat_gamma1_word {p : Params} (hlegal : p.legal = true) (x : BitString) {k : Nat} (hk : k < 256) :
    ((Poly.ofList (gamma1Words p x)).word k).toNat + x.field p.ybits k = Q + 2 ^ (p.ybits - 1) := by
  obtain ⟨hy2, hy23⟩ := Params.ybits_of_legal hlegal
  have hfield : x.field p.ybits k < 2 ^ p.ybits := Nat.mod_lt _ (by positivity)
  have hpow : 2 ^ p.ybits = 2 * 2 ^ (p.ybits - 1) := by rw [← pow_succ', Nat.sub_add_cancel (by omega)]
  have hmax : 2 ^ (p.ybits - 1) ≤ 2 ^ 22 := Nat.pow_le_pow_right (by decide) (by omega)
  have hword : (Poly.ofList (gamma1Words p x)).word k = BitVec.ofNat 32 (Q + 2 ^ (p.ybits - 1) - x.field p.ybits k) := by
    simp [Poly.word_ofList _ hk, gamma1Words, List.getD_eq_getElem?_getD, hk, Params.gamma1]
  rw [hword, BitVec.toNat_ofNat, Q_eq]
  omega

theorem fitWord_zero (wide : Nat → Word) : fitWord wide 0 = 0 := if_pos (by decide)

/-- Settles O33: the session takes its 32·YBITS bytes, whose fields are the sums of the stream's bits. -/
theorem sgam1Command : Obligations.Sgam1Command := by
  unfold Obligations.Sgam1Command
  rintro s d m hlegal halen hnovf rfl hserve
  refine ⟨encodes_of_encode_eq rfl rfl, _,
    exec_seed_of_done (i := .sgam1 d) rfl halen hnovf (gamma1Sample_of_serves hserve),
    commitSeed_frame .., commitSeed_nonce .., tag_commitSeed .., fun k hk => ?_, ?_, fitWord_zero Config.wideRejects⟩
  · rw [← field_afterBytes hk, State.word, poly_commitSeed]
    exact toNat_gamma1_word hlegal _ hk
  · obtain ⟨-, hy⟩ := Params.ybits_of_legal hlegal
    have hblocks : blocksFor .v256 (32 * s.env.params.ybits) ≤ 32 * 23 + 136 :=
      (Nat.div_le_self _ _).trans (by simp only [Variant.rate]; omega)
    exact if_pos (by dsimp only; omega)

end Sys2Proof.Machine
end

section
/-! PROOFS. CHAL's shuffle where its blocks are served (45_challenge.md R201): the session takes the bytes of the TAU
steps, and the sign bits are the stream's. -/

namespace Sys2Proof.Machine

variable {e : Env} {m : List Byte} {at' : Nat → Nat}

theorem length_shuffleWords (e : Env) (m : List Byte) (at' : Nat → Nat) (j : Nat) :
    (shuffleWords e m at' j).length = 256 := by
  induction j with
  | zero => exact List.length_replicate
  | succ j ih => rw [shuffleWords_succ, List.length_set, List.length_set, ih]

theorem Params.one_le_tau_of_legal {p : Params} (h : p.legal = true) : 1 ≤ p.tau := by
  simp only [Params.legal, decide_eq_true_eq] at h
  omega

/-- The sample of a session whose TAU steps read the bytes up to `at' TAU`. -/
theorem challengeSample_of_stepsRead (hlegal : e.params.legal = true) (hsteps : StepsRead e m at' e.params.tau)
    (hserve : Serves e .v256 m (at' e.params.tau)) :
    challengeSample e m =
      .done ⟨Poly.ofList (shuffleWords e m at' e.params.tau), blocksFor .v256 (at' e.params.tau),
        at' e.params.tau - 8 - e.params.tau⟩ := by
  have htau := Params.tau_le_of_legal hlegal
  have htau1 := Params.one_le_tau_of_legal hlegal
  have hstop : (afterBytes e .v256 m Shuffle.feed (Shuffle.start e.params) (at' e.params.tau)).over = true := by
    rw [shuffle_afterBytes hsteps, Shuffle.over_eq_true]
    exact ⟨rfl, by simp only [shuffleIndex]; omega⟩
  have hlast := hsteps.2 (e.params.tau - 1) (by omega)
  rw [Nat.sub_add_cancel htau1] at hlast
  have hgo (c : Nat) (hc : c < at' e.params.tau) :
      (afterBytes e .v256 m Shuffle.feed (Shuffle.start e.params) c).over = false :=
    shuffle_goes_on (j := e.params.tau - 1) (n := at' e.params.tau - 1) (by omega) (by omega)
      (hsteps.of_le (Nat.sub_le ..)) (fun k hk hk' => hlast.2.1 k hk (by omega)) (by omega)
  rw [challengeSample, openSession_served hserve.blocks hgo hstop, Ended.map_done, shuffle_afterBytes hsteps]
  rfl

/-- Step `j` takes sign bit `j` of the stream, for the 64 of its first eight bytes. -/
theorem unitOf_signField {j : Nat} (hj : j < 64) :
    unitOf (signField e m 8 / 2 ^ j) = if bitAt e m j = 1 then BitVec.ofNat 32 (Q - 1) else 1 := by
  rw [unitOf, signField_bit (by omega)]

/-- Settles O35: the sample's words are the shuffle's, each step with its sign bit. -/
theorem chalShuffle : Obligations.ChalShuffle := by
  unfold Obligations.ChalShuffle
  rintro s d m at' hlegal halen rfl hsteps hserve
  have htau := Params.tau_le_of_legal hlegal
  have hdone := challengeSample_of_stepsRead hlegal hsteps hserve
  refine ⟨_, exec_chal_of_done d halen hdone, fun h => toNat_fitWord h _, fun h => toNat_fitWord h _, ?_⟩
  have hpoly := poly_setSlot_self s d (Poly.ofList (shuffleWords s.env s.absorbed at' s.env.params.tau)) .std
  refine (congrArg Poly.words hpoly).trans ((Poly.words_ofList_of_length (length_shuffleWords ..)).trans ?_)
  refine List.foldl_ext _ _ _ fun c j hj => ?_
  have hj := List.mem_range.1 hj
  rw [unitOf_signField (by omega)]
  rfl

end Sys2Proof.Machine
end

section
/-! PROOFS. EXPMAT (43_expanda.md R161 to R165): its entries in row-major order, the sessions one after another, the
commit of the whole matrix and its abort. -/

namespace Sys2Proof.Machine

/-! ## Row-major order -/

/-- The coordinates of entry `n` of a matrix with rows of length `l`. -/
def entryAt (l n : Nat) : Nat × Nat := (n / l, n % l)

/-- R161: row-major order counts the entries. -/
theorem matrixEntries_eq (p : Params) : matrixEntries p = (List.range (p.k * p.l)).map (entryAt p.l) := by
  unfold matrixEntries
  generalize p.k = k
  generalize p.l = l
  induction k with
  | zero => simp
  | succ k ih =>
    rw [List.range_succ, List.flatMap_append, ih, Nat.succ_mul, List.range_add, List.map_append, List.flatMap_singleton,
      List.map_map]
    congr 1
    refine List.map_congr_left fun j hj => ?_
    have hj := List.mem_range.1 hj
    have hdiv : (k * l + j) / l = k := Nat.div_eq_of_lt_le (by omega) (by rw [Nat.succ_mul]; omega)
    rw [Function.comp_apply, entryAt, hdiv, Nat.mul_add_mod_self_right, Nat.mod_eq_of_lt hj]

theorem entryAt_mul_add {l j : Nat} (hj : j < l) (i : Nat) : entryAt l (i * l + j) = (i, j) := by
  have hdiv : (i * l + j) / l = i := Nat.div_eq_of_lt_le (by omega) (by rw [Nat.succ_mul]; omega)
  rw [entryAt, hdiv, Nat.mul_add_mod_self_right, Nat.mod_eq_of_lt hj]

theorem mul_add_lt_mul {k l i j : Nat} (hi : i < k) (hj : j < l) : i * l + j < k * l :=
  calc i * l + j < (i + 1) * l := by rw [Nat.succ_mul]; omega
    _ ≤ k * l := Nat.mul_le_mul_right l hi

theorem entryAt_mem_matrixEntries {p : Params} {n : Nat} (hn : n < p.k * p.l) : entryAt p.l n ∈ matrixEntries p := by
  rw [matrixEntries_eq]
  exact List.mem_map_of_mem (List.mem_range.2 hn)

/-- A sum over the entries is a sum over rows and columns. -/
theorem sum_map_matrixEntries (p : Params) (f : Nat × Nat → Nat) :
    ((matrixEntries p).map f).sum = ∑ i ∈ Finset.range p.k, ∑ j ∈ Finset.range p.l, f (i, j) := by
  simp only [matrixEntries, List.flatMap, List.map_flatten, List.sum_flatten, List.map_map, Function.comp_def]
  rfl

/-! ## The sessions of the entries (R161, R165) -/

section
variable {e : Env} {rho : List Byte} {x : Nat × Nat → Sample} {c : FaultCode}

theorem expandEntries_of_done {l : List (Nat × Nat)}
    (h : ∀ ij ∈ l, uniformSample e .v128 (entryString rho ij) = .done (x ij)) :
    expandEntries e rho l = .done (l.map x) := by
  induction l with
  | nil => rfl
  | cons ij l ih =>
    obtain ⟨hij, hl⟩ := List.forall_mem_cons.1 h
    rw [expandEntries, hij]
    exact congrArg (Ended.map (x ij :: ·)) (ih hl)

theorem exists_done_of_expandEntries {l : List (Nat × Nat)} {xs : List Sample}
    (h : expandEntries e rho l = .done xs) :
    ∀ ij ∈ l, ∃ y, uniformSample e .v128 (entryString rho ij) = .done y := by
  induction l generalizing xs with
  | nil => exact nofun
  | cons ij l ih =>
    rw [expandEntries] at h
    split at h
    case h_1 y hy =>
      obtain ⟨ys, hys, -⟩ := Ended.map_eq_done.1 h
      exact List.forall_mem_cons.2 ⟨⟨y, hy⟩, ih hys⟩
    case h_2 | h_3 => cases h

/-- Where the sessions of all entries commit, each has its sample. -/
theorem done_of_expandEntries {l : List (Nat × Nat)} {xs : List Sample} (h : expandEntries e rho l = .done xs) :
    ∃ x : Nat × Nat → Sample, (∀ ij ∈ l, uniformSample e .v128 (entryString rho ij) = .done (x ij)) ∧ xs = l.map x := by
  have : Nonempty Sample := ⟨⟨Poly.ofList [], 0, 0⟩⟩
  choose! x hx using exists_done_of_expandEntries h
  have hmap := expandEntries_of_done hx
  rw [h] at hmap
  exact ⟨x, hx, by injection hmap⟩

/-- The first session that aborts ends the command with its code. -/
theorem expandEntries_of_aborted {l l' : List (Nat × Nat)} {ij : Nat × Nat}
    (h : ∀ ij ∈ l, uniformSample e .v128 (entryString rho ij) = .done (x ij))
    (habort : uniformSample e .v128 (entryString rho ij) = .aborted c) :
    expandEntries e rho (l ++ ij :: l') = .aborted c := by
  induction l with
  | nil => rw [List.nil_append, expandEntries, habort]
  | cons kl l ih =>
    obtain ⟨hkl, hl⟩ := List.forall_mem_cons.1 h
    rw [List.cons_append, expandEntries, hkl]
    exact congrArg (Ended.map (x kl :: ·)) (ih hl)

end

/-- A word of a committed uniform session is an accepted candidate, or the 0 that pads none (R177). -/
theorem uniformSample_below {e : Env} {v : Variant} {m : List Byte} {x : Sample}
    (h : uniformSample e v m = .done x) : x.out.Below Q := by
  have hfeed (y : Sieve) (b : Byte) (hy : ∀ w ∈ y.out, w.toNat < Q) : ∀ w ∈ (uniformFeed y b).out, w.toNat < Q := by
    unfold uniformFeed
    split
    case h_1 =>
      dsimp only
      split
      case isTrue hlt =>
        refine List.forall_mem_cons.2 ⟨?_, hy⟩
        rw [BitVec.toNat_ofNat]
        exact (Nat.mod_le _ _).trans_lt hlt
      case isFalse => exact hy
    case h_2 => exact hy
  obtain ⟨r, hr, rfl⟩ := Ended.map_eq_done.1 h
  obtain ⟨-, -, hwords⟩ := openSession_done (P := fun _ y => ∀ w ∈ y.out, w.toNat < Q)
    (fun _ y hy _ => hfeed y _ hy) nofun hr
  intro i hi
  show ((Poly.ofList r.1.out.reverse).word i).toNat < Q
  rw [Poly.word_ofList _ hi, List.getD_eq_getElem?_getD]
  cases hget : r.1.out.reverse[i]? with
  | none => decide
  | some w => exact hwords w (List.mem_reverse.1 (List.mem_of_getElem? hget))

/-! ## The commit (R161) -/

/-- The first `n` slots from `d` written, tagged `NTT`, in order (`commitMatrix_eq`). -/
def writeEntries (d n : Nat) (out : Nat → Poly) (s : State) : State :=
  (List.range n).foldl (fun s i => s.setSlot (d + i) (out i) .ntt) s

theorem writeEntries_succ (d n : Nat) (out : Nat → Poly) (s : State) :
    writeEntries d (n + 1) out s = (writeEntries d n out s).setSlot (d + n) (out n) .ntt := by
  rw [writeEntries, List.range_succ, List.foldl_append]
  rfl

theorem writeEntries_slot {d n : Nat} (h : d + n ≤ 256) (out : Nat → Poly) (s : State) {i : Nat} (hi : i < n) :
    (writeEntries d n out s).poly (d + i) = out i ∧ (writeEntries d n out s).tag (d + i) = .ntt := by
  induction n with
  | zero => exact absurd hi (Nat.not_lt_zero i)
  | succ n ih =>
    rw [writeEntries_succ, State.poly_setSlot, State.tag_setSlot]
    rcases Nat.lt_or_eq_of_le (Nat.le_of_lt_succ hi) with hlt | rfl
    · rw [if_neg (by omega), if_neg (by omega)]
      exact ih (by omega) hlt
    · rw [if_pos ⟨rfl, by omega⟩, if_pos ⟨rfl, by omega⟩]
      exact ⟨rfl, rfl⟩

theorem writeEntries_other {d n k : Nat} (out : Nat → Poly) (s : State) (hk : k < d ∨ d + n ≤ k) :
    (writeEntries d n out s).poly k = s.poly k ∧ (writeEntries d n out s).tag k = s.tag k := by
  induction n with
  | zero => exact ⟨rfl, rfl⟩
  | succ n ih =>
    rw [writeEntries_succ, State.poly_setSlot, State.tag_setSlot, if_neg (by omega), if_neg (by omega)]
    exact ih (by omega)

section
variable (p : Params) (d : Nat) (s : State) (x : Nat × Nat → Sample)

/-- Slot `d + i·L + j` of entry (i, j) is slot `d + n` of entry `n` in row-major order. -/
theorem commitMatrix_eq :
    commitMatrix p d s ((matrixEntries p).map x) =
      (writeEntries d (p.k * p.l) (fun n => (x (entryAt p.l n)).out) s).recordStream
        (BitVec.ofNat 32 (((matrixEntries p).map x).map (·.nblk)).sum)
        (BitVec.ofNat 32 (((matrixEntries p).map x).map (·.rej)).sum) := by
  have hzip : (matrixEntries p).zip ((matrixEntries p).map x) = (matrixEntries p).map fun ij => (ij, x ij) := by
    simpa using List.zip_map' (f := id) (g := x) (l := matrixEntries p)
  unfold commitMatrix
  rw [hzip, matrixEntries_eq, List.map_map, List.foldl_map]
  simp only [Function.comp_apply, entryAt, Nat.add_assoc, Nat.div_add_mod']
  rfl

theorem slot_commitMatrix (h : d + p.k * p.l ≤ 256) {n : Nat} (hn : n < p.k * p.l) :
    (commitMatrix p d s ((matrixEntries p).map x)).complete.poly (d + n) = (x (entryAt p.l n)).out ∧
      (commitMatrix p d s ((matrixEntries p).map x)).complete.tag (d + n) = .ntt := by
  rw [commitMatrix_eq]
  exact writeEntries_slot h (fun n => (x (entryAt p.l n)).out) s hn

theorem sqzcnt_commitMatrix :
    (commitMatrix p d s ((matrixEntries p).map x)).complete.sqzcnt =
      BitVec.ofNat 32 (∑ i ∈ Finset.range p.k, ∑ j ∈ Finset.range p.l, (x (i, j)).nblk) := by
  rw [commitMatrix_eq, List.map_map, sum_map_matrixEntries]
  rfl

theorem rejcnt_commitMatrix :
    (commitMatrix p d s ((matrixEntries p).map x)).complete.rejcnt =
      BitVec.ofNat 32 (∑ i ∈ Finset.range p.k, ∑ j ∈ Finset.range p.l, (x (i, j)).rej) := by
  rw [commitMatrix_eq, List.map_map (g := Sample.rej), sum_map_matrixEntries]
  rfl

theorem commitMatrix_frame :
    CommonFrame s (commitMatrix p d s ((matrixEntries p).map x)).complete ((List.range (p.k * p.l)).map (d + ·)) := by
  have hkept : Kept s (commitMatrix p d s ((matrixEntries p).map x)) :=
    Effect.kept (i := .expmat 0) (commitMatrix_fields p d s _)
  refine ⟨fun k hk => ?_, fun a => ?_, hkept.alen, hkept.bound, hkept.fault, hkept.fcode, hkept.finfo, hkept.pending,
    hkept.reads, hkept.env, hkept.freeIdx, congrArg (· + 1) hkept.cmdcnt⟩
  · rw [commitMatrix_eq]
    refine writeEntries_other (fun n => (x (entryAt p.l n)).out) s ?_
    by_contra hin
    exact hk (List.mem_map.2 ⟨k - d, List.mem_range.2 (by omega), by omega⟩)
  · rw [State.complete_mem, hkept.mem]

end

/-! ## The command -/

section
variable {s : State} {d : Slot} (hrange : d.toNat + s.env.params.k * s.env.params.l - 1 ≤ 255)
  (halen : s.alen.toNat ≤ 1024)
include hrange halen

theorem matrixChecks_pass : firstViolated (s.matrixChecks d) = none := by
  have hend : passesEnd d (s.env.params.k * s.env.params.l) = false := by
    rw [← Bool.not_eq_true, passesEnd_eq_true]
    omega
  simp [State.matrixChecks, hend, State.alenTooLong_eq_false.2 halen]

theorem exec_expmat_of_done {x : Nat × Nat → Sample}
    (h : ∀ ij ∈ matrixEntries s.env.params, uniformSample s.env .v128 (entryString s.absorbed ij) = .done (x ij)) :
    exec (.expmat d) s =
      .next (commitMatrix s.env.params d.toNat s ((matrixEntries s.env.params).map x)).complete := by
  rw [exec, execExpmat, expandEntries_of_done h, runStream_done (matrixChecks_pass hrange halen)]

/-- Entry `n` aborts after the entries before it have committed (R165, R238). -/
theorem exec_expmat_of_aborted {c : FaultCode} {n : Nat} {x : Nat × Nat → Sample}
    (hn : n < s.env.params.k * s.env.params.l)
    (hdone : ∀ n' < n, uniformSample s.env .v128 (entryString s.absorbed (entryAt s.env.params.l n')) =
      .done (x (entryAt s.env.params.l n')))
    (habort : uniformSample s.env .v128 (entryString s.absorbed (entryAt s.env.params.l n)) = .aborted c) :
    exec (.expmat d) s =
      .next (s.abort c (encode (.expmat d)) (slotRun d (s.env.params.k * s.env.params.l))) := by
  have hsplit : matrixEntries s.env.params = (List.range n).map (entryAt s.env.params.l) ++
      entryAt s.env.params.l n :: (List.range' (n + 1) (s.env.params.k * s.env.params.l - (n + 1))).map
        (entryAt s.env.params.l) := by
    have happend := List.range'_append_1 (s := 0) (m := n) (n := s.env.params.k * s.env.params.l - n)
    rw [Nat.zero_add, Nat.add_sub_cancel' hn.le, ← List.range_eq_range', ← List.range_eq_range'] at happend
    rw [matrixEntries_eq, ← happend, List.map_append, ← Nat.sub_add_cancel (Nat.sub_pos_of_lt hn), List.range'_succ,
      List.map_cons, Nat.sub_sub]
  have hfirst : expandEntries s.env s.absorbed (matrixEntries s.env.params) = .aborted c := by
    rw [hsplit]
    refine expandEntries_of_aborted (x := x) (fun ij hij => ?_) habort
    obtain ⟨n', hn', rfl⟩ := List.mem_map.1 hij
    exact hdone n' (List.mem_range.1 hn')
  exact exec_of_aborted rfl (matrixChecks_pass hrange halen) hfirst

end

theorem one_le_k_mul_l {p : Params} (h : p.legal = true) : 1 ≤ p.k * p.l ∧ p.k ≤ 255 ∧ p.l ≤ 255 := by
  simp only [Params.legal, decide_eq_true_eq] at h
  obtain ⟨hk, hk', hl, hl', -⟩ := h
  exact ⟨Nat.mul_pos hk hl, hk', hl'⟩

/-- Settles O36: the sessions' samples committed. -/
theorem expmatCommand : Obligations.ExpmatCommand := by
  unfold Obligations.ExpmatCommand
  rintro s d x k l rfl rfl hlegal hrange halen hdone
  obtain ⟨hpos, -⟩ := one_le_k_mul_l hlegal
  have hentries : ∀ ij ∈ matrixEntries s.env.params,
      uniformSample s.env .v128 (entryString s.absorbed ij) = .done (x ij.1 ij.2) := by
    rintro ⟨i, j⟩ hij
    simp only [matrixEntries, List.mem_flatMap, List.mem_map, List.mem_range, Prod.mk.injEq] at hij
    obtain ⟨i', hi, j', hj, rfl, rfl⟩ := hij
    exact hdone i' hi j' hj
  have hkept : Effect (.expmat d) s _ :=
    commitMatrix_fields s.env.params d.toNat s ((matrixEntries s.env.params).map fun ij => x ij.1 ij.2)
  refine ⟨encodes_of_encode_eq rfl rfl, _, exec_expmat_of_done hrange halen hentries, commitMatrix_frame .., ?nonce, ?norm,
    ?hints, fun i hi j hj => ?slot,
    sqzcnt_commitMatrix .., rejcnt_commitMatrix ..⟩
  case nonce => exact (hkept.nonceKept_or_seed).resolve_right (by simp)
  case norm => exact (hkept.normKept_or_chknorm).resolve_right (by simp)
  case hints => exact (hkept.hintsKept_or_mkhint).resolve_right (by simp)
  case slot =>
    obtain ⟨hpoly, htag⟩ := slot_commitMatrix s.env.params d.toNat s (fun ij => x ij.1 ij.2) (by omega)
      (mul_add_lt_mul hi hj)
    rw [entryAt_mul_add hj, ← Nat.add_assoc] at hpoly
    rw [← Nat.add_assoc] at htag
    refine ⟨hpoly, htag, ?_⟩
    rw [hpoly]
    exact uniformSample_below (hdone i hi j hj)

/-- Settles O39: the abort scraps the run of all K·L slots. -/
theorem expmatSessionFaults : Obligations.ExpmatSessionFaults := by
  unfold Obligations.ExpmatSessionFaults
  intro s d c n x hlegal hrange halen hn hdone habort
  have hexec := exec_expmat_of_aborted (x := fun ij => x (ij.1 * s.env.params.l + ij.2)) hrange halen hn
    (fun n' hn' => by simpa [entryAt, entryString, Nat.div_add_mod'] using hdone n' hn') habort
  refine ⟨_, hexec, fun n' hn' => tag_abort_mem s c _ (mem_slotRun.2 ⟨by omega, by omega⟩), fun k hk => ?_, rfl, rfl, rfl,
    ⟨State.abort_nonce .., State.abort_novf ..⟩, ⟨State.abort_norm .., State.abort_rej ..⟩, State.abort_hintcnt ..,
    ⟨State.abort_sqzcnt .., State.abort_rejcnt ..⟩, State.abort_cmdcnt .., fun a => by rw [State.abort_mem],
    State.abort_alen .., State.abort_bound ..⟩
  exact (abort_not_mem s c _ (by rw [mem_slotRun]; omega)).symm

end Sys2Proof.Machine
end

section
/-! PROOFS. Stream commands that complete, from two states (44_samplers.md R186, 43_expanda.md R162): the sample depends
on the absorbed string and the arguments alone, and the commit on the sample. -/

namespace Sys2Proof.Machine

/-- A stream command that leaves no fault has passed its checks and committed its session. -/
theorem completes_of_no_fault {α : Type} {i : Instr} {checks : List (FaultCode × Bool)} {dests : List Nat}
    {commit : State → α → State} {r : Ended α} {s t : State} (he : exec i s = runStream i checks dests commit r s)
    (ht : exec i s = .next t) (hfault : t.fault = false) :
    firstViolated checks = none ∧ ∃ x, r = .done x ∧ t = (commit s x).complete := by
  rw [he] at ht
  rcases runStream_cases ht with ⟨c, -, rfl⟩ | ⟨hpass, ⟨x, hr, rfl⟩ | ⟨c, -, rfl⟩ | ⟨-, -, rfl⟩⟩
  · cases hfault
  · exact ⟨hpass, x, hr, rfl⟩
  · cases hfault
  · cases hfault

theorem matrixChecks_eq_none {s : State} {d : Slot} (h : firstViolated (s.matrixChecks d) = none) :
    d.toNat + s.env.params.k * s.env.params.l - 1 ≤ 255 ∧ s.alen.toNat ≤ 1024 := by
  rw [firstViolated_eq_none] at h
  have hend : passesEnd d (s.env.params.k * s.env.params.l) = false := 
    h (.range, passesEnd d (s.env.params.k * s.env.params.l)) (by simp [State.matrixChecks])
  have halen : s.alenTooLong = false := h (.alen, s.alenTooLong) (by simp [State.matrixChecks])
  rw [← Bool.not_eq_true, passesEnd_eq_true] at hend
  exact ⟨by omega, State.alenTooLong_eq_false.1 halen⟩

/-- An EXPMAT that leaves no fault has committed a sample for every entry. -/
theorem exec_expmat_completes {s t : State} {d : Slot} (ht : exec (.expmat d) s = .next t) (hfault : t.fault = false) :
    d.toNat + s.env.params.k * s.env.params.l - 1 ≤ 255 ∧ s.alen.toNat ≤ 1024 ∧ ∃ x : Nat × Nat → Sample,
      (∀ ij ∈ matrixEntries s.env.params, uniformSample s.env .v128 (entryString s.absorbed ij) = .done (x ij)) ∧
        t = (commitMatrix s.env.params d.toNat s ((matrixEntries s.env.params).map x)).complete := by
  obtain ⟨hpass, xs, hxs, rfl⟩ := completes_of_no_fault rfl ht hfault
  obtain ⟨x, hx, rfl⟩ := done_of_expandEntries hxs
  obtain ⟨hrange, halen⟩ := matrixChecks_eq_none hpass
  exact ⟨hrange, halen, x, hx, rfl⟩

/-- `NONCE = 256·i + j` spells the two bytes that EXPMAT appends for entry (i, j) (R162). -/
theorem le16_entry {i j : Nat} (hi : i < 256) (hj : j < 256) :
    le16 (BitVec.ofNat 16 (256 * i + j)) = [BitVec.ofNat 8 j, BitVec.ofNat 8 i] := by
  have hnonce : (BitVec.ofNat 16 (256 * i + j)).toNat = 256 * i + j := by rw [BitVec.toNat_ofNat]; omega
  rw [le16, hnonce, show (256 * i + j) % 256 = j by omega, show (256 * i + j) / 256 = i by omega]

/-- Settles O37: SUNIF's session is the entry's. -/
theorem expmatEntryIsSunif : Obligations.ExpmatEntryIsSunif := by
  unfold Obligations.ExpmatEntryIsSunif
  intro s t d e i j hlegal hfault ht htfault hi hj he
  obtain ⟨hpos, hk, hl⟩ := one_le_k_mul_l hlegal
  obtain ⟨hrange, halen, x, hx, rfl⟩ := exec_expmat_completes ht htfault
  have hn := mul_add_lt_mul hi hj
  have hentry := hx _ (entryAt_mem_matrixEntries hn)
  obtain ⟨hpoly, htag⟩ := slot_commitMatrix s.env.params d.toNat s x (by omega) hn
  rw [entryAt_mul_add hj] at hentry hpoly
  rw [← Nat.add_assoc, ← he] at hpoly htag
  let s' : State := { s with nonce := BitVec.ofNat 16 (256 * i + j), novf := false }
  have hstring : s'.seedString = entryString s.absorbed (i, j) :=
    congrArg (s.absorbed ++ ·) (le16_entry (by omega) (by omega))
  have hsession : uniformSample s'.env .v128 s'.seedString = .done (x (i, j)) := by rw [hstring]; exact hentry
  refine ⟨_, exec_seed_of_done (i := .sunif e) (s := s') rfl halen rfl hsession, hfault, ?_, ?_⟩
  · rw [hpoly, poly_commitSeed]
  · rw [htag, tag_commitSeed]

/-! ## Determinism (R186) -/

/-- Two states with the same `ALEN`, the same bytes below it, the same arguments and the same nonce. -/
structure SameInputs (s s' : State) : Prop where
  alen : s.alen = s'.alen
  absorbed : s.absorbed = s'.absorbed
  nonce : s.nonce = s'.nonce
  novf : s.novf = s'.novf
  env : s.env = s'.env

/-- What R186 says agrees after two completing commands: the slots `ks`, their tags, the counters and the nonce. -/
def SameResults (ks : Nat → Prop) (t t' : State) : Prop :=
  (∀ k, ks k → t'.poly k = t.poly k ∧ t'.tag k = t.tag k) ∧
    t'.sqzcnt = t.sqzcnt ∧ t'.rejcnt = t.rejcnt ∧ t'.nonce = t.nonce ∧ t'.novf = t.novf

section
variable {s s' t : State} (h : SameInputs s s')
include h

theorem SameInputs.seedString : s.seedString = s'.seedString := by
  rw [State.seedString, State.seedString, h.absorbed, h.nonce]

theorem SameInputs.alenTooLong : s.alenTooLong = s'.alenTooLong := by
  rw [State.alenTooLong, State.alenTooLong, h.alen]

theorem SameInputs.seedChecks : s.seedChecks = s'.seedChecks := by
  rw [State.seedChecks, State.seedChecks, h.alenTooLong, h.novf]

/-- A seed sampler whose session is a function of the arguments and the absorbed string. -/
theorem SameInputs.seed {i : Instr} {d : Slot} {tag : Tag} {sample : Env → List Byte → Ended Sample}
    (he : ∀ s, exec i s = runStream i s.seedChecks [d.toNat] (commitSeed d.toNat tag) (sample s.env s.seedString) s)
    (hfault' : s'.fault = false) (ht : exec i s = .next t) (hfault : t.fault = false) :
    ∃ t', exec i s' = .next t' ∧ t'.fault = false ∧ SameResults (· = d.toNat) t t' := by
  obtain ⟨hpass, x, hx, rfl⟩ := completes_of_no_fault (he s) ht hfault
  rw [h.seedChecks] at hpass
  rw [h.env, h.seedString] at hx
  refine ⟨_, exec_of_done (he s') hpass hx, hfault', ?_, rfl, rfl, ?_, ?_⟩
  · rintro k rfl
    rw [poly_commitSeed, poly_commitSeed, tag_commitSeed, tag_commitSeed]
    exact ⟨rfl, rfl⟩
  · exact congrArg (· + 1) h.nonce.symm
  · show (s'.novf || s'.nonce == 0xFFFF) = (s.novf || s.nonce == 0xFFFF)
    rw [h.nonce, h.novf]

theorem SameInputs.chal {d : Slot} (hfault' : s'.fault = false) (ht : exec (.chal d) s = .next t)
    (hfault : t.fault = false) :
    ∃ t', exec (.chal d) s' = .next t' ∧ t'.fault = false ∧ SameResults (· = d.toNat) t t' := by
  obtain ⟨hpass, x, hx, rfl⟩ := completes_of_no_fault rfl ht hfault
  rw [h.alenTooLong] at hpass
  rw [h.env, h.absorbed] at hx
  refine ⟨_, exec_of_done rfl hpass hx, hfault', ?_, rfl, rfl, h.nonce.symm, h.novf.symm⟩
  rintro k rfl
  exact ⟨(poly_setSlot_self s' d x.out .std).trans (poly_setSlot_self s d x.out .std).symm,
    (tag_setSlot_self s' d x.out .std).trans (tag_setSlot_self s d x.out .std).symm⟩

theorem SameInputs.expmat {d : Slot} (hlegal : s.env.params.legal = true) (hfault' : s'.fault = false)
    (ht : exec (.expmat d) s = .next t) (hfault : t.fault = false) :
    ∃ t', exec (.expmat d) s' = .next t' ∧ t'.fault = false ∧
      SameResults (fun k => d.toNat ≤ k ∧ k < d.toNat + s.env.params.k * s.env.params.l) t t' := by
  obtain ⟨hpos, -⟩ := one_le_k_mul_l hlegal
  obtain ⟨hrange, halen, x, hx, rfl⟩ := exec_expmat_completes ht hfault
  have hnonce (s : State) := (Effect.nonceKept_or_seed (i := .expmat d)
    (commitMatrix_fields s.env.params d.toNat s ((matrixEntries s.env.params).map x))).resolve_right (by simp)
  have hframe' := commitMatrix_frame s'.env.params d.toNat s' x
  rw [h.env, h.absorbed] at hx
  rw [h.alen] at halen
  have hrange' := hrange
  rw [h.env] at hrange'
  refine ⟨_, exec_expmat_of_done hrange' halen hx, hframe'.fault.trans hfault', fun k hk => ?_, ?_, ?_, ?_, ?_⟩
  · obtain ⟨n, rfl⟩ := Nat.exists_eq_add_of_le hk.1
    have hn : n < s.env.params.k * s.env.params.l := by omega
    have hslot := slot_commitMatrix s.env.params d.toNat s x (by omega) hn
    rw [h.env] at hn
    have hslot' := slot_commitMatrix s'.env.params d.toNat s' x (by omega) hn
    rw [hslot.1, hslot.2, hslot'.1, hslot'.2, h.env]
    exact ⟨rfl, rfl⟩
  · rw [sqzcnt_commitMatrix, sqzcnt_commitMatrix, h.env]
  · rw [rejcnt_commitMatrix, rejcnt_commitMatrix, h.env]
  · exact (hnonce s').1.trans (h.nonce.symm.trans (hnonce s).1.symm)
  · exact (hnonce s').2.trans (h.novf.symm.trans (hnonce s).2.symm)

end

/-- Settles O42: by command, the session of the second state is that of the first. -/
theorem streamDeterminism : Obligations.StreamDeterminism := by
  unfold Obligations.StreamDeterminism
  intro s s' t d i hlegal hi halen hbytes hnonce hnovf henv _ hfault' ht hfault
  have habsorbed : s.absorbed = s'.absorbed := by
    rw [State.absorbed, State.absorbed, ← halen]
    exact List.map_congr_left fun n hn => hbytes n (List.mem_range.1 hn)
  have h : SameInputs s s' := ⟨halen, habsorbed, hnonce, hnovf, henv⟩
  simp only [List.mem_cons, List.not_mem_nil, or_false] at hi
  rcases hi with rfl | rfl | rfl | rfl | rfl
  · obtain ⟨t', ht', hf, hslots, hrest⟩ := h.seed (sample := (uniformSample · .v128)) (fun _ => rfl) hfault' ht hfault
    exact ⟨t', ht', hf, fun k hk => hslots k (by simpa using hk), hrest⟩
  · obtain ⟨t', ht', hf, hslots, hrest⟩ := h.seed (sample := etaSample) (fun _ => rfl) hfault' ht hfault
    exact ⟨t', ht', hf, fun k hk => hslots k (by simpa using hk), hrest⟩
  · obtain ⟨t', ht', hf, hslots, hrest⟩ := h.seed (sample := gamma1Sample) (fun _ => rfl) hfault' ht hfault
    exact ⟨t', ht', hf, fun k hk => hslots k (by simpa using hk), hrest⟩
  · obtain ⟨t', ht', hf, hslots, hrest⟩ := h.chal hfault' ht hfault
    exact ⟨t', ht', hf, fun k hk => hslots k (by simpa using hk), hrest⟩
  · obtain ⟨t', ht', hf, hslots, hrest⟩ := h.expmat hlegal hfault' ht hfault
    obtain ⟨hpos, -⟩ := one_le_k_mul_l hlegal
    refine ⟨t', ht', hf, fun k hk => hslots k ?_, hrest⟩
    rcases hk with rfl | ⟨-, hk⟩
    · exact ⟨le_rfl, by omega⟩
    · exact hk

end Sys2Proof.Machine
end

section
/-! PROOFS. Where a session aborts or never ends (44_samplers.md R172, R183, R185; 20_memory.md R70): a session needs
block k where the blocks before do not bring its profile to its stop condition. -/

namespace Sys2Proof.Machine

variable {e : Env} {v : Variant} {m : List Byte}

/-! ## The limit before the squeeze -/

theorem atLimit_eq_false_of_ne {k b : Nat} (h : e.sqzLimit = .blocks k) (hb : b ≠ k) : e.atLimit b = false := by
  rw [← Bool.not_eq_true, atLimit_eq_true, h, SqzLimit.blocks.injEq]
  exact hb.symm

/-- A session that has not stopped within the bytes of the blocks before `k` ends at block `k` (R172). -/
theorem endsAtBlock_of_goes_on {σ : Type} {stop : σ → Bool} {feed : σ → Byte → σ} {start : σ} {f : σ × Nat → Sample}
    {k : Nat} (hserve : ∀ b < k, e.squeezeFails v m b = false)
    (hgo : ∀ c ≤ k * v.rate, stop (afterBytes e v m feed start c) = false) :
    EndsAtBlock e v m k ((openSession e v m stop feed start).map f) := by
  simp only [EndsAtBlock, Ended.map_eq_aborted]
  refine ⟨fun hlimit => ?_, fun hwithin hfails => ?_⟩
  · have hbefore : ∀ b < k, e.atLimit b = false ∧ e.squeezeFails v m b = false :=
      fun b hb => ⟨atLimit_eq_false_of_ne hlimit hb.ne, hserve b hb⟩
    exact (openSession_at_block hbefore hgo).1 (atLimit_eq_true.2 hlimit)
  · have hbefore : ∀ b < k, e.atLimit b = false ∧ e.squeezeFails v m b = false :=
      fun b hb => ⟨atLimit_of_withinLimit fun n hn => hb.trans (hwithin n hn), hserve b hb⟩
    exact (openSession_at_block hbefore hgo).2 (atLimit_of_withinLimit hwithin) hfails

/-- Settles O40: each profile goes on within the bytes of the blocks before. -/
theorem limitBeforeSqueeze : Obligations.LimitBeforeSqueeze := by
  unfold Obligations.LimitBeforeSqueeze
  intro e m k
  refine ⟨fun v hserve hfew => ?uniform, fun hserve => ⟨fun hfew => ?eta, fun hfew => ?gamma1,
    fun hlegal hwaits => ?challenge⟩⟩
  case uniform => exact endsAtBlock_of_goes_on hserve fun c hc => uniform_goes_on hfew hc
  case eta => exact endsAtBlock_of_goes_on hserve fun c hc => eta_goes_on hfew hc
  case gamma1 =>
    refine endsAtBlock_of_goes_on hserve fun c hc => ?_
    have hc : c ≤ k * 136 := hc
    rw [gamma1_afterBytes, beq_eq_false_iff_ne]
    omega
  case challenge =>
    have htau := Params.tau_le_of_legal hlegal
    refine endsAtBlock_of_goes_on hserve fun c hc => ?_
    rcases hwaits with rfl | ⟨j, hj, at', hsteps, -, hwait⟩
    · obtain rfl : c = 0 := by simpa using hc
      rfl
    · exact shuffle_goes_on (by omega) hj hsteps hwait (le_max_of_le_left hc)

/-! ## Sessions that never end -/

/-- A stream starves a rejection profile where no number of candidates holds 256 accepted ones. -/
theorem length_lt_iff_ne {accept : Nat → Bool} {cand : Nat → Nat} :
    (∀ n, (acceptedOf accept cand n).length < 256) ↔ ∀ n, (acceptedOf accept cand n).length ≠ 256 := by
  constructor
  · exact fun h n => (h n).ne
  · intro h n
    by_contra hge
    obtain ⟨n', hn'⟩ := exists_length_eq (Nat.not_lt.1 hge)
    exact h n' hn'

theorem uniformSample_unending_iff :
    uniformSample e v m = .unending ↔ e.sqzLimit = .unlimited ∧ (∀ k, e.squeezeFails v m k = false) ∧
      ∀ n, (acceptedOf (fun t => decide (t < Q)) (uniformAt e v m) n).length < 256 := by
  rw [uniformSample, Ended.map_eq_unending, openSession_unending]
  refine and_congr_right fun _ => and_congr_right fun _ => ⟨fun h => length_lt_iff_ne.2 fun n hn => ?_, fun h n => ?_⟩
  · have hfull := h (3 * n)
    rw [uniform_afterBytes, Nat.mul_div_cancel_left n (by decide), sieveAfter_full.2 hn] at hfull
    cases hfull
  · exact uniform_goes_on (h (n / 3)) le_rfl

/-- Where some candidates hold 256 accepted ones, some candidate fills the slot. -/
theorem exists_fillsAt {accept : Nat → Bool} {cand : Nat → Nat} {n : Nat}
    (h : (acceptedOf accept cand n).length = 256) : ∃ n', FillsAt accept cand n' := by
  induction n with
  | zero => simp [acceptedOf] at h
  | succ n ih =>
    by_cases hacc : accept (cand n) = true
    · exact ⟨n + 1, h, Nat.succ_pos n, hacc⟩
    · rw [acceptedOf_succ, if_neg hacc, List.append_nil] at h
      exact ih h

theorem etaSample_unending_iff :
    etaSample e m = .unending ↔ e.sqzLimit = .unlimited ∧ (∀ k, e.squeezeFails .v256 m k = false) ∧
      ∀ n, (acceptedOf (fun v => decide (v ≤ 2 * e.params.eta)) (nibbleAt e m) n).length < 256 := by
  rw [etaSample, Ended.map_eq_unending, openSession_unending]
  refine and_congr_right fun _ => and_congr_right fun _ => ⟨fun h => length_lt_iff_ne.2 fun n hn => ?_, fun h n => ?_⟩
  · obtain ⟨n', hfill⟩ := exists_fillsAt hn
    have hfull := h ((n' + 1) / 2)
    rw [eta_afterBytes_of_fillsAt hfill, sieveAfter_full.2 hfill.1] at hfull
    cases hfull
  · exact eta_goes_on (h (2 * n)) le_rfl

theorem challengeSample_unending_iff (hlegal : e.params.legal = true) :
    challengeSample e m = .unending ↔ e.sqzLimit = .unlimited ∧ (∀ k, e.squeezeFails .v256 m k = false) ∧
      ∃ j < e.params.tau, ∃ at', StepsRead e m at' j ∧
        ∀ n, at' j ≤ n → shuffleIndex e.params j < (e.streamByte .v256 m n).toNat := by
  have htau := Params.tau_le_of_legal hlegal
  rw [challengeSample, Ended.map_eq_unending, openSession_unending]
  refine and_congr_right fun _ => and_congr_right fun _ => ⟨fun h => ?_, ?_⟩
  · refine (stepsRead_or_waits e m e.params.tau).resolve_left ?_
    rintro ⟨at', hsteps⟩
    have hover := h (at' e.params.tau)
    rw [shuffle_afterBytes hsteps, ← Bool.not_eq_true, Shuffle.over_eq_true] at hover
    exact hover ⟨rfl, by simp only [shuffleIndex]; omega⟩
  · rintro ⟨j, hj, at', hsteps, hwait⟩ n
    exact shuffle_goes_on (by omega) hj hsteps (fun k hk _ => hwait k hk) (le_max_left n _)

/-- Under a finite limit no session is unending (R70). -/
theorem map_openSession_ne_unending {σ α : Type} {stop : σ → Bool} {feed : σ → Byte → σ} {start : σ}
    {f : σ × Nat → α} {n : Nat} (h : e.sqzLimit = .blocks n) :
    (openSession e v m stop feed start).map f ≠ .unending := by
  rw [Ne, Ended.map_eq_unending]
  exact openSession_ends h start

/-- Settles O41: the fuel of a limited session outlasts its blocks (`openSession_ends`), and a command is stuck only with
an unending session (`exec_next_or_stuck`). -/
theorem limitedCommandsEnd : Obligations.LimitedCommandsEnd := by
  unfold Obligations.LimitedCommandsEnd
  refine ⟨fun e v m n h => ⟨map_openSession_ne_unending h, map_openSession_ne_unending h, map_openSession_ne_unending h,
      map_openSession_ne_unending h⟩,
    fun s i n h => ?limited, fun s d => ⟨gamma1Sample_ends _ _, exec_sgam1_next d s⟩,
    fun e v m => uniformSample_unending_iff, fun e m => etaSample_unending_iff,
    fun e m hlegal => challengeSample_unending_iff hlegal,
    fun s i => ⟨exec_ne_refused i s, fun f hf => ?stuck⟩⟩
  case limited =>
    refine (exec_next_or_stuck i s).resolve_right ?_
    rintro ⟨⟨-, hunlimited⟩, -⟩
    rw [h] at hunlimited
    cases hunlimited
  case stuck =>
    rcases exec_next_or_stuck i s with ⟨t, ht⟩ | ⟨⟨-, hunlimited⟩, hi⟩
    · rw [hf] at ht; cases ht
    · exact ⟨hunlimited, hi⟩

end Sys2Proof.Machine
end

section
/-! PROOFS. The loops of NTT and INVNTT (40_ring.md R112, R114): one level of butterflies, written by blocks as the model
has it and by the printed loops, is the same function of the index. -/

namespace Sys2Proof.Machine

section
variable (f g : Nat → Word → Word → Word) (len : Nat)

/-- Word `i` after one level of butterflies on pairs `len` apart, twiddle index `k` and up: `f` gives the lower word of a
pair, `g` the upper one. -/
def crossed (k : Nat) (p : List Word) (i : Nat) : Word :=
  if i % (2 * len) < len then f (k + i / (2 * len)) (p.getD i 0) (p.getD (i + len) 0)
  else g (k + i / (2 * len)) (p.getD (i - len) 0) (p.getD i 0)

/-! ## By blocks -/

/-- One level by blocks of `2·len` words; the shape of `nttBlocks` and `invnttBlocks`. -/
def crossBlocks : (passes k : Nat) → List Word → List Word
  | 0, _, p => p
  | passes + 1, k, p =>
    List.zipWith (f k) (p.take len) ((p.drop len).take len) ++
      (List.zipWith (g k) (p.take len) ((p.drop len).take len) ++
        crossBlocks passes (k + 1) (p.drop (2 * len)))

variable {f g len}

theorem length_crossBlocks {n k : Nat} {p : List Word} (h : 2 * len * n ≤ p.length) :
    (crossBlocks f g len n k p).length = p.length := by
  induction n generalizing k p with
  | zero => rfl
  | succ n ih =>
    rw [Nat.mul_succ] at h
    rw [crossBlocks, List.length_append, List.length_append, ih (by rw [List.length_drop]; omega)]
    simp only [List.length_zipWith, List.length_take, List.length_drop]
    omega

theorem getD_zipWith_halves (h : Word → Word → Word) {p : List Word} {i : Nat} (hi : i < len) (hp : 2 * len ≤ p.length) :
    (List.zipWith h (p.take len) ((p.drop len).take len))[i]? = some (h (p.getD i 0) (p.getD (i + len) 0)) := by
  have h1 : i < p.length := by omega
  have h2 : len + i < p.length := by omega
  simp [List.getElem?_zipWith, List.getElem?_take_of_lt hi, List.getElem?_drop, List.getD_eq_getElem?_getD, h1, h2,
    Nat.add_comm i len]

/-- The index in the next block is the index less a block, its twiddle one on. -/
theorem crossed_drop {k i : Nat} {p : List Word} (hlen : 0 < len) (hi : 2 * len ≤ i) :
    crossed f g len (k + 1) (p.drop (2 * len)) (i - 2 * len) = crossed f g len k p i := by
  obtain ⟨j, rfl⟩ := Nat.exists_eq_add_of_le hi
  have hdiv : (2 * len + j) / (2 * len) = j / (2 * len) + 1 := Nat.add_div_left j (by omega)
  have hget (n : Nat) : (p.drop (2 * len)).getD n 0 = p.getD (2 * len + n) 0 := by
    simp [List.getD_eq_getElem?_getD, List.getElem?_drop]
  have hupper (h : ¬ j % (2 * len) < len) : 2 * len + (j - len) = 2 * len + j - len := by
    have := Nat.mod_le j (2 * len)
    omega
  simp only [crossed, Nat.add_sub_cancel_left, Nat.add_mod_left, hdiv, hget, ← Nat.add_assoc, Nat.add_right_comm k 1]
  split
  case isTrue => rfl
  case isFalse h => rw [hupper h]

theorem getD_crossBlocks {n k i : Nat} {p : List Word} (h : 2 * len * n ≤ p.length) (hi : i < 2 * len * n) :
    (crossBlocks f g len n k p).getD i 0 = crossed f g len k p i := by
  induction n generalizing k p i with
  | zero => exact absurd hi (Nat.not_lt_zero i)
  | succ n ih =>
    rw [Nat.mul_succ] at h hi
    have hlen : 0 < len := by
      by_contra h0
      simp [Nat.eq_zero_of_not_pos h0] at hi
    have hlow (h' : Word → Word → Word) : (List.zipWith h' (p.take len) ((p.drop len).take len)).length = len := by
      simp only [List.length_zipWith, List.length_take, List.length_drop]
      omega
    rw [crossBlocks, List.getD_eq_getElem?_getD]
    rcases Nat.lt_or_ge i len with hil | hil
    · rw [List.getElem?_append_left (by rwa [hlow]), getD_zipWith_halves _ hil (by omega), Option.getD_some, crossed,
        Nat.mod_eq_of_lt (by omega), if_pos hil, Nat.div_eq_of_lt (by omega), Nat.add_zero]
    · rw [List.getElem?_append_right (by rwa [hlow]), hlow]
      rcases Nat.lt_or_ge i (2 * len) with hi2 | hi2
      · rw [List.getElem?_append_left (by rw [hlow]; omega), getD_zipWith_halves _ (by omega) (by omega), Option.getD_some,
          crossed, Nat.mod_eq_of_lt hi2, if_neg (by omega), Nat.div_eq_of_lt hi2, Nat.add_zero, Nat.sub_add_cancel hil]
      · rw [List.getElem?_append_right (by rw [hlow]; omega), hlow, ← List.getD_eq_getElem?_getD,
          ih (by rw [List.length_drop]; omega) (by omega), Nat.sub_sub, ← Nat.two_mul, crossed_drop hlen hi2]

/-! ## By the printed loops -/

variable (f g len) in
/-- One butterfly of the printed loops: the words `j` and `j + len` replaced. -/
def crossStep (k : Nat) (p : List Word) (j : Nat) : List Word :=
  (p.set j (f k (p.getD j 0) (p.getD (j + len) 0))).set (j + len) (g k (p.getD j 0) (p.getD (j + len) 0))

variable (f g len) in
/-- The loop over `start`, the twiddle index running; the shape of `nttPass` and `invnttPass`. -/
def crossPass (kp : Nat × List Word) (start : Nat) : Nat × List Word :=
  (kp.1 + 1, (List.range' start len).foldl (crossStep f g len kp.1) kp.2)

theorem getD_set (p : List Word) (i j : Nat) (w : Word) :
    (p.set i w).getD j 0 = if j = i ∧ i < p.length then w else p.getD j 0 := by
  simp only [List.getD_eq_getElem?_getD, List.getElem?_set]
  by_cases hij : i = j
  · subst hij
    by_cases hi : i < p.length <;> simp [hi]
  · simp [hij, Ne.symm hij]

theorem length_crossStep (k : Nat) (p : List Word) (j : Nat) : (crossStep f g len k p j).length = p.length := by
  simp [crossStep]

/-- The loop over `j` after `n` rounds: the first `n` pairs are crossed, the rest untouched. -/
theorem foldl_crossStep {k start n : Nat} {p : List Word} (hn : n ≤ len) (hp : start + 2 * len ≤ p.length) :
    ((List.range' start n).foldl (crossStep f g len k) p).length = p.length ∧
      ∀ i, ((List.range' start n).foldl (crossStep f g len k) p).getD i 0 =
        if start ≤ i ∧ i < start + n then f k (p.getD i 0) (p.getD (i + len) 0)
        else if start + len ≤ i ∧ i < start + len + n then g k (p.getD (i - len) 0) (p.getD i 0)
        else p.getD i 0 := by
  induction n with
  | zero => exact ⟨rfl, fun i => by rw [if_neg (by omega), if_neg (by omega)]; rfl⟩
  | succ n ih =>
    obtain ⟨hlength, hget⟩ := ih (by omega)
    rw [List.range'_1_concat, List.foldl_append, List.foldl_cons, List.foldl_nil]
    refine ⟨(length_crossStep ..).trans hlength, fun i => ?_⟩
    have hlow : ((List.range' start n).foldl (crossStep f g len k) p).getD (start + n) 0 = p.getD (start + n) 0 := by
      rw [hget, if_neg (by omega), if_neg (by omega)]
    have hhigh : ((List.range' start n).foldl (crossStep f g len k) p).getD (start + n + len) 0 =
        p.getD (start + n + len) 0 := by
      rw [hget, if_neg (by omega), if_neg (by omega)]
    rw [crossStep, hlow, hhigh, getD_set, getD_set, List.length_set, hlength, hget]
    by_cases hi : i = start + n + len
    · subst hi
      rw [if_pos ⟨rfl, by omega⟩, if_neg (by omega), if_pos (by omega), Nat.add_sub_cancel]
    · rw [if_neg fun h => hi h.1]
      by_cases hi' : i = start + n
      · subst hi'
        rw [if_pos ⟨rfl, by omega⟩, if_pos (by omega)]
      · rw [if_neg fun h => hi' h.1]
        exact if_congr (by omega) rfl (if_congr (by omega) rfl rfl)

/-- The printed loops over the first `n` blocks: their words are crossed, the rest untouched. -/
theorem foldl_crossPass {k n : Nat} {p : List Word} (hp : 2 * len * n ≤ p.length) :
    ∃ q, ((List.range n).map (2 * len * ·)).foldl (crossPass f g len) (k, p) = (k + n, q) ∧ q.length = p.length ∧
      ∀ i, q.getD i 0 = if i < 2 * len * n then crossed f g len k p i else p.getD i 0 := by
  induction n with
  | zero => exact ⟨p, rfl, rfl, fun i => by rw [if_neg (by omega)]⟩
  | succ n ih =>
    rw [Nat.mul_succ] at hp
    obtain ⟨q, hfold, hlength, hget⟩ := ih (by omega)
    have hrest (i : Nat) (hi : 2 * len * n ≤ i) : q.getD i 0 = p.getD i 0 := by rw [hget, if_neg (by omega)]
    obtain ⟨hlength', hget'⟩ := foldl_crossStep (f := f) (g := g) (k := k + n) (start := 2 * len * n) (p := q)
      (le_refl len)
      (by omega)
    refine ⟨_, ?_, hlength'.trans hlength, fun i => ?_⟩
    · rw [List.range_succ, List.map_append, List.foldl_append, hfold]
      rfl
    · rw [hget', Nat.mul_succ]
      rcases Nat.lt_or_ge i (2 * len * n) with hi | hi
      · rw [if_neg (by omega), if_neg (by omega), hget, if_pos hi, if_pos (by omega)]
      · rcases Nat.lt_or_ge i (2 * len * n + 2 * len) with hi' | hi'
        · have hdiv : i / (2 * len) = n := Nat.div_eq_of_lt_le (by rw [Nat.mul_comm]; exact hi)
            (by rw [Nat.mul_comm, Nat.mul_succ]; exact hi')
          have hmod := Nat.div_add_mod i (2 * len)
          rw [hdiv] at hmod
          rw [if_pos hi', crossed, hdiv]
          by_cases hlow : i % (2 * len) < len
          · rw [if_pos (by omega), if_pos hlow, hrest i hi, hrest _ (by omega)]
          · rw [if_neg (by omega), if_pos (by omega), if_neg hlow, hrest i hi, hrest _ (by omega)]
        · rw [if_neg (by omega), if_neg (by omega), if_neg (by omega), hrest i hi]

/-- R112, R114: a level by the printed loops is the level by blocks. -/
theorem foldl_crossPass_eq_crossBlocks {k : Nat} {p : List Word} (hlen : 2 * len * (128 / len) = 256)
    (hp : p.length = 256) :
    (loopStarts len).foldl (crossPass f g len) (k, p) = (k + 128 / len, crossBlocks f g len (128 / len) k p) := by
  obtain ⟨q, hfold, hlength, hget⟩ := foldl_crossPass (f := f) (g := g) (k := k) (hlen.trans hp.symm).le
  rw [loopStarts, hfold]
  congr 1
  have hblocks := length_crossBlocks (f := f) (g := g) (k := k) (hlen.trans hp.symm).le
  refine List.ext_getElem (hlength.trans hblocks.symm) fun i hi hi' => ?_
  rw [← List.getD_eq_getElem _ 0 hi, ← List.getD_eq_getElem _ 0 hi', hget, if_pos (by omega),
    getD_crossBlocks (hlen.trans hp.symm).le (by omega)]

end

end Sys2Proof.Machine
end

section
/-! PROOFS. NTT and INVNTT as commands (40_ring.md R110, R112, R114): the model's levels are the printed loops. -/

namespace Sys2Proof.Machine

/-! ## The butterflies -/

/-- The lower word of R112's butterfly. -/
def nttLow (k : Nat) (x y : Word) : Word := x + mr (zeta k * y.toNat)

/-- The upper word of R112's butterfly. -/
def nttHigh (k : Nat) (x y : Word) : Word := subOffset x (mr (zeta k * y.toNat))

/-- The lower word of R114's butterfly, which takes no twiddle. -/
def invnttLow (_k : Nat) (x y : Word) : Word := x + y

/-- The upper word of R114's butterfly. -/
def invnttHigh (k : Nat) (x y : Word) : Word := mr (zetaInv k * (x + BitVec.ofNat 32 (256 * Q) - y).toNat)

theorem nttBlocks_eq (len n k : Nat) (p : List Word) : nttBlocks len n k p = crossBlocks nttLow nttHigh len n k p := by
  induction n generalizing k p with
  | zero => rfl
  | succ n ih =>
    rw [nttBlocks, crossBlocks, ih, List.zipWith_map_right, List.zipWith_map_right]
    rfl

theorem invnttBlocks_eq (len n k : Nat) (p : List Word) :
    invnttBlocks len n k p = crossBlocks invnttLow invnttHigh len n k p := by
  induction n generalizing k p with
  | zero => rfl
  | succ n ih =>
    rw [invnttBlocks, crossBlocks, ih]
    rfl

theorem nttButterfly_eq {len : Nat} (hlen : 0 < len) (k : Nat) (p : List Word) (j : Nat) :
    nttButterfly (zeta k) len p j = crossStep nttLow nttHigh len k p j := by
  have hne : j + len ≠ j := by omega
  rw [crossStep, List.set_comm _ _ hne.symm, nttButterfly]
  simp only [getD_set, hne.symm, false_and, if_false]
  rfl

theorem invnttButterfly_eq {len : Nat} (hlen : 0 < len) (k : Nat) (p : List Word) (j : Nat) :
    invnttButterfly (zetaInv k) len p j = crossStep invnttLow invnttHigh len k p j := by
  have hne : j + len ≠ j := by omega
  rw [crossStep, invnttButterfly]
  simp only [getD_set, hne, false_and, if_false]
  rfl

theorem nttPass_eq {len : Nat} (hlen : 0 < len) : nttPass len = crossPass nttLow nttHigh len := by
  funext kp start
  have hstep : nttButterfly (zeta kp.1) len = crossStep nttLow nttHigh len kp.1 :=
    funext₂ (nttButterfly_eq hlen kp.1)
  rw [nttPass, crossPass, hstep]

theorem invnttPass_eq {len : Nat} (hlen : 0 < len) : invnttPass len = crossPass invnttLow invnttHigh len := by
  funext kp start
  have hstep : invnttButterfly (zetaInv kp.1) len = crossStep invnttLow invnttHigh len kp.1 :=
    funext₂ (invnttButterfly_eq hlen kp.1)
  rw [invnttPass, crossPass, hstep]

/-! ## The levels -/

/-- The lengths of the levels, in NTT's order. -/
def levels : List Nat := [128, 64, 32, 16, 8, 4, 2, 1]

theorem two_len_mul_of_levels : ∀ len ∈ levels, 2 * len * (128 / len) = 256 := by decide

theorem pos_of_levels : ∀ len ∈ levels, 0 < len := by decide

section
variable {len : Nat} (hlen : len ∈ levels) {p : List Word} (hp : p.length = 256)
include hlen hp

theorem length_nttLevel : (nttLevel p len).length = 256 := by
  rw [nttLevel, nttBlocks_eq, length_crossBlocks ((two_len_mul_of_levels len hlen).trans hp.symm).le, hp]

theorem length_invnttLevel : (invnttLevel p len).length = 256 := by
  rw [invnttLevel, invnttBlocks_eq, length_crossBlocks ((two_len_mul_of_levels len hlen).trans hp.symm).le, hp]

theorem getD_nttLevel {i : Nat} (hi : i < 256) :
    (nttLevel p len).getD i 0 = crossed nttLow nttHigh len (128 / len) p i := by
  have h256 := two_len_mul_of_levels len hlen
  rw [nttLevel, nttBlocks_eq, getD_crossBlocks (h256.trans hp.symm).le (by omega)]

theorem getD_invnttLevel {i : Nat} (hi : i < 256) :
    (invnttLevel p len).getD i 0 = crossed invnttLow invnttHigh len (256 - 256 / len) p i := by
  have h256 := two_len_mul_of_levels len hlen
  rw [invnttLevel, invnttBlocks_eq, getD_crossBlocks (h256.trans hp.symm).le (by omega)]

/-- One `len` of the printed loops of R112, the twiddle index where the levels before leave it. -/
theorem foldl_nttPass {k : Nat} (hk : k = 128 / len) :
    (loopStarts len).foldl (nttPass len) (k, p) = (k + 128 / len, nttLevel p len) := by
  rw [nttPass_eq (pos_of_levels len hlen), foldl_crossPass_eq_crossBlocks (two_len_mul_of_levels len hlen) hp, nttLevel,
    nttBlocks_eq, hk]

/-- One `len` of the printed loops of R114. -/
theorem foldl_invnttPass {k : Nat} (hk : k = 256 - 256 / len) :
    (loopStarts len).foldl (invnttPass len) (k, p) = (k + 128 / len, invnttLevel p len) := by
  rw [invnttPass_eq (pos_of_levels len hlen), foldl_crossPass_eq_crossBlocks (two_len_mul_of_levels len hlen) hp,
    invnttLevel, invnttBlocks_eq, hk]

end

/-- Each `len` of the printed loops is its level, where the twiddle index of each follows from the one before. -/
theorem foldl_loops_eq {step : Nat × List Word → Nat → Nat × List Word} {level : List Word → Nat → List Word}
    {start : Nat → Nat}
    (hstep : ∀ len ∈ levels, ∀ p : List Word, p.length = 256 → step (start len, p) len = (start len + 128 / len, level p len))
    (hlevel : ∀ len ∈ levels, ∀ p : List Word, p.length = 256 → (level p len).length = 256)
    {lens : List Nat} (hlens : ∀ len ∈ lens, len ∈ levels) {k : Nat}
    (hk : lens.head?.map start = some k ∨ lens = [])
    (hchain : lens.IsChain fun len len' => start len + 128 / len = start len') {p : List Word} (hp : p.length = 256) :
    (lens.foldl step (k, p)).2 = lens.foldl level p := by
  induction lens generalizing k p with
  | nil => rfl
  | cons len lens ih =>
    obtain ⟨hlen, hrest⟩ := List.forall_mem_cons.1 hlens
    obtain rfl : start len = k := by simpa using hk
    rw [List.foldl_cons, List.foldl_cons, hstep len hlen p hp]
    cases lens with
    | nil => rfl
    | cons len' lens =>
      obtain ⟨hnext, hchain⟩ := List.isChain_cons_cons.1 hchain
      exact ih hrest (.inl (by simp [hnext])) hchain (hlevel len hlen p hp)

theorem nttPrinted_eq {p : List Word} (hp : p.length = 256) : nttPrinted p = nttWords p :=
  foldl_loops_eq (step := fun kp len => (loopStarts len).foldl (nttPass len) kp) (level := nttLevel)
    (start := fun len => 128 / len) (lens := levels) (k := 1) (fun _ hlen _ hp => foldl_nttPass hlen hp rfl)
    (fun _ hlen _ hp => length_nttLevel hlen hp) (fun _ h => h) (.inl rfl) (by decide) hp

theorem invnttPrinted_eq {p : List Word} (hp : p.length = 256) : invnttPrinted p = invnttWords p := by
  rw [invnttPrinted, invnttWords,
    foldl_loops_eq (level := invnttLevel) (start := fun len => 256 - 256 / len)
      (fun _ hlen _ hp => foldl_invnttPass hlen hp rfl) (fun _ hlen _ hp => length_invnttLevel hlen hp) (by decide)
      (.inl rfl) (by decide) hp]

theorem length_foldl_level {level : List Word → Nat → List Word}
    (hlevel : ∀ len ∈ levels, ∀ p : List Word, p.length = 256 → (level p len).length = 256)
    {lens : List Nat} (hlens : ∀ len ∈ lens, len ∈ levels) {p : List Word} (hp : p.length = 256) :
    (lens.foldl level p).length = 256 := by
  induction lens generalizing p with
  | nil => exact hp
  | cons len lens ih =>
    obtain ⟨hlen, hrest⟩ := List.forall_mem_cons.1 hlens
    exact ih hrest (hlevel len hlen p hp)

theorem length_nttWords {p : List Word} (hp : p.length = 256) : (nttWords p).length = 256 :=
  length_foldl_level (lens := levels) (fun _ hlen _ hp => length_nttLevel hlen hp) (fun _ h => h) hp

theorem length_invnttWords {p : List Word} (hp : p.length = 256) : (invnttWords p).length = 256 :=
  (List.length_map _).trans (length_foldl_level (lens := [1, 2, 4, 8, 16, 32, 64, 128])
    (fun _ hlen _ hp => length_invnttLevel hlen hp) (by decide) hp)

/-! ## The commands -/

theorem exec_ntt_of_std {s : State} (d : Slot) {a : Slot} (h : s.tag a.toNat = .std) :
    exec (.ntt d a) s = .next (s.setSlot d.toNat (Poly.ofList (nttWords (s.poly a.toNat).words)) .ntt).complete :=
  runCommand_pass (State.sourceChecks_pass (by decide) (by simp [h]))

theorem exec_invntt_of_ntt {s : State} (d : Slot) {a : Slot} (h : s.tag a.toNat = .ntt) :
    exec (.invntt d a) s = .next (s.setSlot d.toNat (Poly.ofList (invnttWords (s.poly a.toNat).words)) .std).complete :=
  runCommand_pass (State.sourceChecks_pass (by decide) (by simp [h]))

/-- Settles O9: the levels of the model are the printed loops (`nttPrinted_eq`). -/
theorem nttCommand : Obligations.NttCommand := by
  unfold Obligations.NttCommand
  intro s d a
  obtain ⟨huninit, hdomain⟩ := faultsAs_of_source (i := .ntt d a) (s := s) rfl
  refine ⟨encodes_of_encode_eq rfl rfl, huninit, fun h => hdomain (by simp [h]) (by simp [h]), fun h => ?_⟩
  refine ⟨_, exec_ntt_of_std d h, Frame.setSlot .., tag_setSlot_self .., ?_⟩
  rw [poly_setSlot_self, nttPrinted_eq (Poly.length_words _),
    Poly.words_ofList_of_length (length_nttWords (Poly.length_words _))]

/-- Settles O10: the levels of the model and the scaling are the printed loops (`invnttPrinted_eq`). -/
theorem invnttCommand : Obligations.InvnttCommand := by
  unfold Obligations.InvnttCommand
  intro s d a
  obtain ⟨huninit, hdomain⟩ := faultsAs_of_source (i := .invntt d a) (s := s) rfl
  refine ⟨encodes_of_encode_eq rfl rfl, huninit, fun h => hdomain (by simp [h]) (by simp [h]), fun h => ?_⟩
  refine ⟨_, exec_invntt_of_ntt d h, Frame.setSlot .., tag_setSlot_self .., ?_⟩
  rw [poly_setSlot_self, invnttPrinted_eq (Poly.length_words _),
    Poly.words_ofList_of_length (length_invnttWords (Poly.length_words _))]

end Sys2Proof.Machine
end

section
/-! PROOFS. The levels of NTT and INVNTT modulo Q (40_ring.md R111, R113, R115): each level splits every block's
polynomial by the two square roots of its twiddle, and the inverse level joins it again, times 2. -/

namespace Sys2Proof.Machine

/-! ## Modulo Q -/

theorem natCast_eq_iff {a b : Nat} : (a : ZMod Q) = b ↔ a % Q = b % Q := ZMod.natCast_eq_natCast_iff' a b Q

theorem isUnit_two_pow_32 : IsUnit (2 ^ 32 : ZMod Q) := by
  have hcoprime : Nat.Coprime (2 ^ 32) Q := by decide
  have hunit := (ZMod.isUnit_iff_coprime (2 ^ 32) Q).2 hcoprime
  rwa [Nat.cast_pow, Nat.cast_ofNat] at hunit

/-- The twiddle of index `k`, out of Montgomery form (R111). -/
def root (k : Nat) : ZMod Q := (ROOT : ZMod Q) ^ brv8 k

theorem zeta_cast (k : Nat) : (zeta k : ZMod Q) = 2 ^ 32 * root k := by
  have hmont : ((MONT : Nat) : ZMod Q) = 2 ^ 32 := by
    have h : MONT % Q = 2 ^ 32 % Q := by decide
    have hcast := natCast_eq_iff.2 h
    rwa [Nat.cast_pow, Nat.cast_ofNat] at hcast
  rw [zeta, ZMod.natCast_mod, Nat.cast_mul, Nat.cast_pow, hmont, root]

theorem zeta_lt (k : Nat) : zeta k < Q := Nat.mod_lt _ (by decide)

theorem zetaInv_cast (k : Nat) : (zetaInv k : ZMod Q) = 2 ^ 32 * -root (255 - k) := by
  rw [zetaInv, Nat.cast_sub (zeta_lt _).le, ZMod.natCast_self, zeta_cast]
  ring

/-- R15 modulo Q: `mr` divides by 2^32. -/
theorem mr_mul_cast {z w : Nat} {c : ZMod Q} (hz : z ≤ Q) (hw : w < 2 ^ 32) (hc : (z : ZMod Q) = 2 ^ 32 * c) :
    (mr (z * w)).toNat < 2 * Q ∧ ((mr (z * w)).toNat : ZMod Q) = c * w := by
  obtain ⟨hlt, hmod⟩ := mr_spec (Nat.mul_le_mul hz hw.le)
  refine ⟨hlt, isUnit_two_pow_32.mul_left_cancel ?_⟩
  have hcast := natCast_eq_iff.2 hmod
  rw [Nat.cast_mul, Nat.cast_mul, Nat.cast_pow, Nat.cast_ofNat, hc] at hcast
  rw [mul_comm, hcast]
  ring

/-- Half the order of the root: it is a primitive 512th root of unity (00_scope.md R9). -/
theorem root_pow_256 : (ROOT : ZMod Q) ^ 256 = -1 := by
  have h : ROOT ^ 256 % Q = (Q - 1) % Q := by norm_num [ROOT, Q]
  have hcast := natCast_eq_iff.2 h
  rw [Nat.cast_sub (by decide), ZMod.natCast_self] at hcast
  simpa using hcast

theorem root_pow_mod (n : Nat) : (ROOT : ZMod Q) ^ (n % 512) = (ROOT : ZMod Q) ^ n := by
  have h512 : (ROOT : ZMod Q) ^ 512 = 1 := by
    rw [show 512 = 256 * 2 by decide, pow_mul, root_pow_256]
    ring
  conv_rhs => rw [← Nat.div_add_mod n 512, pow_add, pow_mul, h512, one_pow, one_mul]

/-! ## The twiddles, by their bit-reversed exponents -/

/-- The i-th evaluation point (10_state.md R22). -/
def point (i : Nat) : ZMod Q := (ROOT : ZMod Q) ^ (2 * brv8 i + 1)

/-- Bit reversal of the block index, under the bits of the index above the level's. -/
theorem brv8_level : ∀ len ∈ levels, ∀ i < 256,
    (2 * brv8 i + 1) * len % 512 = (brv8 (128 / len + i / (2 * len)) + if i % (2 * len) < len then 0 else 256) % 512 := by
  decide +kernel

/-- The power of an evaluation point by which a level splits: the block's twiddle in the lower half, its negative in the
upper. -/
theorem point_pow {len i : Nat} (hlen : len ∈ levels) (hi : i < 256) :
    point i ^ len = if i % (2 * len) < len then root (128 / len + i / (2 * len)) else -root (128 / len + i / (2 * len)) := by
  rw [point, ← pow_mul, ← root_pow_mod, brv8_level len hlen i hi, root_pow_mod, pow_add, root]
  split
  · rw [pow_zero, mul_one]
  · rw [root_pow_256, mul_neg_one]

/-- The twiddle of INVNTT's block is the one NTT's block undoes (R111). -/
theorem brv8_inverse : ∀ len ∈ levels, ∀ b < 128 / len,
    brv8 (255 - (256 - 256 / len + b)) + brv8 (128 / len + b) = 256 := by
  decide +kernel

theorem root_inverse {len b : Nat} (hlen : len ∈ levels) (hb : b < 128 / len) :
    -root (255 - (256 - 256 / len + b)) * root (128 / len + b) = 1 := by
  rw [root, root, neg_mul, ← pow_add, brv8_inverse len hlen b hb, root_pow_256, neg_neg]

/-! ## A level on residues -/

/-- A level of NTT on residues. -/
def splitLevel (len : Nat) (a : Nat → ZMod Q) (i : Nat) : ZMod Q :=
  if i % (2 * len) < len then a i + root (128 / len + i / (2 * len)) * a (i + len)
  else a (i - len) - root (128 / len + i / (2 * len)) * a i

/-- A level of INVNTT on residues. -/
def joinLevel (len : Nat) (a : Nat → ZMod Q) (i : Nat) : ZMod Q :=
  if i % (2 * len) < len then a i + a (i + len)
  else -root (255 - (256 - 256 / len + i / (2 * len))) * (a (i - len) - a i)

/-- The residue at `x` of the polynomial of the block of `len` words that holds index `i`. -/
def blockValue (len : Nat) (a : Nat → ZMod Q) (x : ZMod Q) (i : Nat) : ZMod Q :=
  ∑ j ∈ Finset.range len, a (i / len * len + j) * x ^ j

theorem blockValue_one (a : Nat → ZMod Q) (x : ZMod Q) (i : Nat) : blockValue 1 a x i = a i := by
  simp [blockValue]

section
variable {len i : Nat} (hlen : len ∈ levels) (hi : i < 256)
include hlen

/-- An index below 256 and its block of `2·len`. -/
theorem index_in_block (hi : i < 256) :
    i / (2 * len) < 128 / len ∧ 2 * len * (i / (2 * len)) + i % (2 * len) = i ∧ i % (2 * len) < 2 * len ∧
      2 * len * (i / (2 * len)) + 2 * len ≤ 256 := by
  have h256 := two_len_mul_of_levels len hlen
  have hpos := pos_of_levels len hlen
  have hdiv : i / (2 * len) < 128 / len := Nat.div_lt_of_lt_mul (by omega)
  have hmul : 2 * len * (i / (2 * len) + 1) ≤ 2 * len * (128 / len) := Nat.mul_le_mul_left _ hdiv
  rw [Nat.mul_succ, h256] at hmul
  exact ⟨hdiv, Nat.div_add_mod .., Nat.mod_lt _ (by omega), hmul⟩

include hi

/-- R113's step: a level turns the value of a block of `2·len` words at an evaluation point into the value of the half
that holds the point's index. -/
theorem blockValue_splitLevel (a : Nat → ZMod Q) :
    blockValue len (splitLevel len a) (point i) i = blockValue (2 * len) a (point i) i := by
  obtain ⟨-, hsum, hmod, -⟩ := index_in_block hlen hi
  have hpos := pos_of_levels len hlen
  have hpow := point_pow hlen hi
  generalize hq : i / (2 * len) = q at *
  have hdiv (j : Nat) (hj : j < 2 * len) : (2 * len * q + j) / (2 * len) = q ∧ (2 * len * q + j) % (2 * len) = j := by
    rw [Nat.mul_add_div (by omega), Nat.div_eq_of_lt hj, Nat.mul_add_mod, Nat.mod_eq_of_lt hj]
    exact ⟨rfl, rfl⟩
  have htwo : blockValue (2 * len) a (point i) i =
      ∑ j ∈ Finset.range len, a (2 * len * q + j) * point i ^ j +
        point i ^ len * ∑ j ∈ Finset.range len, a (2 * len * q + (len + j)) * point i ^ j := by
    rw [blockValue, hq, Nat.mul_comm q, Nat.two_mul, Finset.sum_range_add, Finset.mul_sum]
    congr 1
    refine Finset.sum_congr rfl fun j _ => ?_
    rw [pow_add]
    ring
  rw [htwo, blockValue, Finset.mul_sum, ← Finset.sum_add_distrib, hpow]
  by_cases hlow : i % (2 * len) < len
  · have hblock : i / len * len = 2 * len * q := by
      have : i / len = 2 * q := Nat.div_eq_of_lt_le (by rw [Nat.mul_right_comm]; omega)
        (by rw [Nat.succ_mul, Nat.mul_right_comm]; omega)
      rw [this, Nat.mul_right_comm]
    rw [if_pos hlow, hblock]
    refine Finset.sum_congr rfl fun j hj => ?_
    have hj := Finset.mem_range.1 hj
    obtain ⟨hd, hm⟩ := hdiv j (by omega)
    rw [splitLevel, hd, hm, if_pos hj, Nat.add_assoc, Nat.add_comm j len]
    ring
  · have hblock : i / len * len = 2 * len * q + len := by
      have : i / len = 2 * q + 1 := Nat.div_eq_of_lt_le (by rw [Nat.succ_mul, Nat.mul_right_comm]; omega)
        (by rw [Nat.succ_mul, Nat.succ_mul, Nat.mul_right_comm]; omega)
      rw [this, Nat.succ_mul, Nat.mul_right_comm]
    rw [if_neg hlow, hblock]
    refine Finset.sum_congr rfl fun j hj => ?_
    have hj := Finset.mem_range.1 hj
    obtain ⟨hd, hm⟩ := hdiv (len + j) (by omega)
    rw [Nat.add_assoc, splitLevel, hd, hm, if_neg (by omega), show 2 * len * q + (len + j) - len = 2 * len * q + j by omega]
    ring

/-- R115's step: INVNTT's level joins what NTT's level of the same length split, times 2. -/
theorem joinLevel_splitLevel (a : Nat → ZMod Q) : joinLevel len (splitLevel len a) i = 2 * a i := by
  obtain ⟨hblock, hsum, hmod, -⟩ := index_in_block hlen hi
  have hinv := root_inverse hlen hblock
  generalize hq : i / (2 * len) = q at *
  have hdiv (j : Nat) (hj : j < 2 * len) : (2 * len * q + j) / (2 * len) = q ∧ (2 * len * q + j) % (2 * len) = j := by
    rw [Nat.mul_add_div (by omega), Nat.div_eq_of_lt hj, Nat.mul_add_mod, Nat.mod_eq_of_lt hj]
    exact ⟨rfl, rfl⟩
  rw [joinLevel, hq]
  by_cases hlow : i % (2 * len) < len
  · obtain ⟨hd, hm⟩ := hdiv (i % (2 * len) + len) (by omega)
    rw [← Nat.add_assoc, hsum] at hd hm
    rw [if_pos hlow, splitLevel, splitLevel, hq, hd, hm, if_pos hlow, if_neg (by omega), Nat.add_sub_cancel]
    ring
  · obtain ⟨hd, hm⟩ := hdiv (i % (2 * len) - len) (by omega)
    rw [show 2 * len * q + (i % (2 * len) - len) = i - len by omega] at hd hm
    rw [if_neg hlow, splitLevel, splitLevel, hq, hd, hm, if_neg hlow, if_pos (by omega),
      show i - len + len = i by omega]
    linear_combination (2 * a i) * hinv

end

end Sys2Proof.Machine
end

section
/-! PROOFS. The contracts of the transforms (40_ring.md R113, R115): the words of a slot represent residues modulo Q, with
a bound, and each level keeps that. -/

namespace Sys2Proof.Machine

/-! ## Words that represent residues -/

/-- The 256 words of `p` are below `b` and are, modulo Q, the residues `a`. -/
structure Represents (p : List Word) (b : Nat) (a : Nat → ZMod Q) : Prop where
  length : p.length = 256
  lt : ∀ i < 256, (p.getD i 0).toNat < b
  cast : ∀ i < 256, ((p.getD i 0).toNat : ZMod Q) = a i

theorem Poly.represents {p : Poly} {b : Nat} (h : p.Below b) : Represents p.words b fun i => (p.nat i : ZMod Q) :=
  ⟨p.length_words, h, fun _ _ => rfl⟩

/-- A ring element made of such words. -/
theorem Represents.ofList {p : List Word} {b : Nat} {a : Nat → ZMod Q} (h : Represents p b a) :
    (Poly.ofList p).Below b ∧ ∀ i < 256, ((Poly.ofList p).nat i : ZMod Q) = a i := by
  refine ⟨fun i hi => ?_, fun i hi => ?_⟩
  · rw [Poly.word_ofList _ hi]; exact h.lt i hi
  · rw [Poly.nat, Poly.word_ofList _ hi]; exact h.cast i hi

theorem Represents.congr {p : List Word} {b : Nat} {a a' : Nat → ZMod Q} (h : Represents p b a)
    (ha : ∀ i < 256, a i = a' i) : Represents p b a' :=
  ⟨h.length, h.lt, fun i hi => (h.cast i hi).trans (ha i hi)⟩

/-! ## NTT -/

section
variable {k b : Nat} {x : Word} (y : Word) (hx : x.toNat < b) (hb : b + 2 * Q ≤ 2 ^ 32)
include hx hb

theorem nttLow_spec :
    (nttLow k x y).toNat < b + 2 * Q ∧ ((nttLow k x y).toNat : ZMod Q) = x.toNat + root k * y.toNat := by
  obtain ⟨hlt, hcast⟩ := mr_mul_cast (zeta_lt k).le y.isLt (zeta_cast k)
  have hsum : (nttLow k x y).toNat = x.toNat + (mr (zeta k * y.toNat)).toNat := by
    rw [nttLow, BitVec.toNat_add, Nat.mod_eq_of_lt (by omega)]
  exact ⟨by omega, by rw [hsum, Nat.cast_add, hcast]⟩

theorem nttHigh_spec :
    (nttHigh k x y).toNat < b + 2 * Q ∧ ((nttHigh k x y).toNat : ZMod Q) = x.toNat - root k * y.toNat := by
  obtain ⟨hlt, hcast⟩ := mr_mul_cast (zeta_lt k).le y.isLt (zeta_cast k)
  have hdiff := toNat_subOffset x (mr (zeta k * y.toNat))
  rw [Int.emod_eq_of_lt (by omega) (by omega)] at hdiff
  have hsum : (nttHigh k x y).toNat + (mr (zeta k * y.toNat)).toNat = x.toNat + 2 * Q := by rw [nttHigh]; omega
  refine ⟨by omega, ?_⟩
  have hsum := congrArg (Nat.cast (R := ZMod Q)) hsum
  rw [Nat.cast_add, Nat.cast_add, hcast, Nat.cast_mul, ZMod.natCast_self, mul_zero, add_zero] at hsum
  exact eq_sub_of_add_eq hsum

end

/-- One level of NTT adds at most 2Q to the bound. -/
theorem Represents.nttLevel {p : List Word} {b len : Nat} {a : Nat → ZMod Q} (h : Represents p b a)
    (hlen : len ∈ levels) (hb : b + 2 * Q ≤ 2 ^ 32) :
    Represents (nttLevel p len) (b + 2 * Q) (splitLevel len a) := by
  have hword (i : Nat) (hi : i < 256) : ((Machine.nttLevel p len).getD i 0).toNat < b + 2 * Q ∧
      (((Machine.nttLevel p len).getD i 0).toNat : ZMod Q) = splitLevel len a i := by
    obtain ⟨-, hsum, hmod, hblock⟩ := index_in_block hlen hi
    rw [getD_nttLevel hlen h.length hi, crossed, splitLevel]
    split
    case isTrue hlow =>
      rw [← h.cast i hi, ← h.cast (i + len) (by omega)]
      exact nttLow_spec _ (h.lt i hi) hb
    case isFalse hhigh =>
      rw [← h.cast i hi, ← h.cast (i - len) (by omega)]
      exact nttHigh_spec _ (h.lt (i - len) (by omega)) hb
  exact ⟨length_nttLevel hlen h.length, fun i hi => (hword i hi).1, fun i hi => (hword i hi).2⟩

/-- NTT on residues. -/
def transform (a : Nat → ZMod Q) : Nat → ZMod Q := levels.foldl (fun a len => splitLevel len a) a

theorem Represents.foldl_nttLevel {lens : List Nat} (hlens : ∀ len ∈ lens, len ∈ levels) {p : List Word} {b : Nat}
    {a : Nat → ZMod Q} (h : Represents p b a) (hb : b + 2 * Q * lens.length ≤ 2 ^ 32) :
    Represents (lens.foldl Machine.nttLevel p) (b + 2 * Q * lens.length)
      (lens.foldl (fun a len => splitLevel len a) a) := by
  induction lens generalizing p b a with
  | nil => exact h
  | cons len lens ih =>
    obtain ⟨hlen, hrest⟩ := List.forall_mem_cons.1 hlens
    have hcount : b + 2 * Q * (len :: lens).length = b + 2 * Q + 2 * Q * lens.length := by
      rw [List.length_cons]; ring
    rw [hcount] at hb ⊢
    exact ih hrest (h.nttLevel hlen (by omega)) hb

theorem Represents.nttWords {p : List Word} {b : Nat} {a : Nat → ZMod Q} (h : Represents p b a)
    (hb : b + 16 * Q ≤ 2 ^ 32) : Represents (nttWords p) (b + 16 * Q) (transform a) :=
  h.foldl_nttLevel (lens := levels) (fun _ h => h) hb

/-- R113: NTT's residues are the polynomial's values at the evaluation points, block by block down to one word. -/
theorem transform_eq (a : Nat → ZMod Q) {i : Nat} (hi : i < 256) :
    transform a i = ∑ j ∈ Finset.range 256, a j * point i ^ j := by
  have hwhole : blockValue 256 a (point i) i = ∑ j ∈ Finset.range 256, a j * point i ^ j := by
    simp [blockValue, Nat.div_eq_of_lt hi]
  have hstep {len : Nat} (hlen : len ∈ levels) (a : Nat → ZMod Q) :
      blockValue len (splitLevel len a) (point i) i = blockValue (2 * len) a (point i) i :=
    blockValue_splitLevel hlen hi a
  rw [← hwhole, ← blockValue_one (transform a) (point i) i]
  exact (hstep (len := 1) (by decide) _).trans <| (hstep (len := 2) (by decide) _).trans <|
    (hstep (len := 4) (by decide) _).trans <| (hstep (len := 8) (by decide) _).trans <|
    (hstep (len := 16) (by decide) _).trans <| (hstep (len := 32) (by decide) _).trans <|
    (hstep (len := 64) (by decide) _).trans (hstep (len := 128) (by decide) a)

theorem evalAt_cast (w : Nat → Nat) {i : Nat} (hi : i < 256) :
    (evalAt w i : ZMod Q) = transform (fun j => (w j : ZMod Q)) i := by
  rw [transform_eq _ hi, evalAt, Nat.cast_sum]
  refine Finset.sum_congr rfl fun j _ => ?_
  rw [Nat.cast_mul, Nat.cast_pow, pow_mul, point]

/-- NTT of a slot: its bound and its residues. -/
theorem represents_ntt {p : Poly} {b : Nat} (h : p.Below b) (hb : b + 16 * Q ≤ 2 ^ 32) :
    (Poly.ofList (nttWords p.words)).Below (b + 16 * Q) ∧
      ∀ i < 256, ((Poly.ofList (nttWords p.words)).nat i : ZMod Q) = transform (fun j => (p.nat j : ZMod Q)) i :=
  ((Poly.represents h).nttWords hb).ofList

/-- Settles O11: eight levels add at most 2Q each. -/
theorem nttBound : Obligations.NttBound := by
  unfold Obligations.NttBound
  intro s d a b htag hb hbelow
  refine ⟨_, exec_ntt_of_std d htag, ?_⟩
  rw [poly_setSlot_self]
  exact (represents_ntt hbelow hb).1

/-- Settles O12: the residues of the words are the values at the evaluation points (`evalAt_cast`). -/
theorem nttEvaluates : Obligations.NttEvaluates := by
  unfold Obligations.NttEvaluates
  intro s d a b htag hb hbelow
  refine ⟨_, exec_ntt_of_std d htag, fun i hi => ?_⟩
  rw [poly_setSlot_self, ← natCast_eq_iff, evalAt_cast _ hi]
  exact (represents_ntt hbelow hb).2 i hi

/-! ## INVNTT -/

/-- The lower words of a level double. -/
theorem invnttLow_spec {k b : Nat} {x y : Word} (hx : x.toNat < b) (hy : y.toNat < b) (hb : 2 * b ≤ 2 ^ 32) :
    (invnttLow k x y).toNat < 2 * b ∧ ((invnttLow k x y).toNat : ZMod Q) = x.toNat + y.toNat := by
  have hsum : (invnttLow k x y).toNat = x.toNat + y.toNat := by
    rw [invnttLow, BitVec.toNat_add, Nat.mod_eq_of_lt (by omega)]
  exact ⟨by omega, by rw [hsum, Nat.cast_add]⟩

/-- The upper words of a level are reduced below 2Q. -/
theorem invnttHigh_spec {k : Nat} {x y : Word} (hx : x.toNat < 256 * Q) (hy : y.toNat < 256 * Q) :
    (invnttHigh k x y).toNat < 2 * Q ∧
      ((invnttHigh k x y).toNat : ZMod Q) = -root (255 - k) * (x.toNat - y.toNat) := by
  have hdiff : (x + BitVec.ofNat 32 (256 * Q) - y).toNat + y.toNat = x.toNat + 256 * Q := by
    rw [BitVec.toNat_sub, BitVec.toNat_add, BitVec.toNat_ofNat]
    rw [Q_eq] at *
    omega
  obtain ⟨hlt, hcast⟩ := mr_mul_cast (z := zetaInv k) (Nat.sub_le ..) (x + BitVec.ofNat 32 (256 * Q) - y).isLt (zetaInv_cast k)
  have hdiff := congrArg (Nat.cast (R := ZMod Q)) hdiff
  rw [Nat.cast_add, Nat.cast_add, Nat.cast_mul, ZMod.natCast_self, mul_zero, add_zero] at hdiff
  exact ⟨hlt, by rw [invnttHigh, hcast, eq_sub_of_add_eq hdiff]⟩

/-- One level of INVNTT doubles the bound. -/
theorem Represents.invnttLevel {p : List Word} {len : Nat} {a : Nat → ZMod Q} (h : Represents p (2 * Q * len) a)
    (hlen : len ∈ levels) : Represents (invnttLevel p len) (2 * Q * (2 * len)) (joinLevel len a) := by
  have hmax : ∀ len ∈ levels, 0 < len ∧ 2 * Q * len ≤ 256 * Q ∧ 2 * (2 * Q * len) ≤ 2 ^ 32 := by decide
  obtain ⟨hpos, hmax, hmax'⟩ := hmax len hlen
  have hword (i : Nat) (hi : i < 256) : ((Machine.invnttLevel p len).getD i 0).toNat < 2 * Q * (2 * len) ∧
      (((Machine.invnttLevel p len).getD i 0).toNat : ZMod Q) = joinLevel len a i := by
    obtain ⟨-, hsum, hmod, hblock⟩ := index_in_block hlen hi
    rw [getD_invnttLevel hlen h.length hi, crossed, joinLevel, Nat.mul_left_comm (2 * Q) 2 len]
    split
    case isTrue hlow =>
      rw [← h.cast i hi, ← h.cast (i + len) (by omega)]
      exact invnttLow_spec (h.lt i hi) (h.lt (i + len) (by omega)) hmax'
    case isFalse hhigh =>
      rw [← h.cast i hi, ← h.cast (i - len) (by omega)]
      obtain ⟨hlt, hcast⟩ := invnttHigh_spec (k := 256 - 256 / len + i / (2 * len))
        ((h.lt (i - len) (by omega)).trans_le hmax) ((h.lt i hi).trans_le hmax)
      have : 2 * Q * 1 ≤ 2 * Q * len := Nat.mul_le_mul_left _ hpos
      exact ⟨by omega, hcast⟩
  exact ⟨length_invnttLevel hlen h.length, fun i hi => (hword i hi).1, fun i hi => (hword i hi).2⟩

/-- One level of INVNTT undoes one of NTT, times 2. -/
theorem Represents.invnttLevel_split {p : List Word} {len : Nat} {c : ZMod Q} {a : Nat → ZMod Q}
    (h : Represents p (2 * Q * len) fun i => c * splitLevel len a i) (hlen : len ∈ levels) :
    Represents (Machine.invnttLevel p len) (2 * Q * (2 * len)) fun i => c * 2 * a i := by
  refine (h.invnttLevel hlen).congr fun i hi => ?_
  have hlinear : joinLevel len (fun i => c * splitLevel len a i) i = c * joinLevel len (splitLevel len a) i := by
    rw [joinLevel, joinLevel]
    split <;> ring
  rw [hlinear, joinLevel_splitLevel hlen hi, mul_assoc]

/-- The scaling constant is `2^32·2^24` modulo Q (R111), and `2^24·256 = 2^32`. -/
theorem invf_cast : (INVF : ZMod Q) = 2 ^ 32 * 2 ^ 24 := by
  have h : INVF % Q = 2 ^ 56 % Q := by decide
  have hcast := natCast_eq_iff.2 h
  rwa [Nat.cast_pow, Nat.cast_ofNat, show 56 = 32 + 24 by decide, pow_add] at hcast

/-- R115: INVNTT of the transform of `a` is `2^32·a`, with words below 2Q. -/
theorem Represents.invnttWords {p : List Word} {a : Nat → ZMod Q} (h : Represents p (2 * Q) (transform a)) :
    Represents (invnttWords p) (2 * Q) fun i => 2 ^ 32 * a i := by
  have h0 : Represents p (2 * Q * 1) fun i => 1 * transform a i :=
    h.congr fun i _ => (one_mul _).symm
  have h1 := h0.invnttLevel_split (len := 1) (by decide)
  have h2 := h1.invnttLevel_split (len := 2) (by decide)
  have h3 := h2.invnttLevel_split (len := 4) (by decide)
  have h4 := h3.invnttLevel_split (len := 8) (by decide)
  have h5 := h4.invnttLevel_split (len := 16) (by decide)
  have h6 := h5.invnttLevel_split (len := 32) (by decide)
  have h7 := h6.invnttLevel_split (len := 64) (by decide)
  have h8 := h7.invnttLevel_split (len := 128) (by decide)
  have hscale (i : Nat) (hi : i < 256) : ((Machine.invnttWords p).getD i 0).toNat < 2 * Q ∧
      (((Machine.invnttWords p).getD i 0).toNat : ZMod Q) = 2 ^ 32 * a i := by
    have hget : (Machine.invnttWords p).getD i 0 =
        mr (INVF * (([1, 2, 4, 8, 16, 32, 64, 128].foldl Machine.invnttLevel p).getD i 0).toNat) := by
      have hi' : i < ([1, 2, 4, 8, 16, 32, 64, 128].foldl Machine.invnttLevel p).length := hi.trans_eq h8.length.symm
      rw [Machine.invnttWords, List.getD_eq_getElem?_getD, List.getElem?_map, List.getElem?_eq_getElem hi', Option.map_some,
        Option.getD_some, List.getD_eq_getElem _ _ hi']
    obtain ⟨hlt, hcast⟩ := mr_mul_cast (z := INVF) (by decide)
      (([1, 2, 4, 8, 16, 32, 64, 128].foldl Machine.invnttLevel p).getD i 0).isLt invf_cast
    have hjoined : ((([1, 2, 4, 8, 16, 32, 64, 128].foldl Machine.invnttLevel p).getD i 0).toNat : ZMod Q) =
      1 * 2 * 2 * 2 * 2 * 2 * 2 * 2 * 2 * a i := h8.cast i hi
    rw [hget]
    refine ⟨hlt, hcast.trans ?_⟩
    rw [hjoined]
    ring
  exact ⟨length_invnttWords h.length, fun i hi => (hscale i hi).1, fun i hi => (hscale i hi).2⟩

/-- Settles O13: an evaluation vector is a transform (`evalAt_cast`), which INVNTT undoes. -/
theorem invnttContract : Obligations.InvnttContract := by
  unfold Obligations.InvnttContract
  intro s d a g htag hbelow hvalues
  have hwords : Represents (s.poly a.toNat).words (2 * Q) (transform fun j => (g j : ZMod Q)) :=
    (Poly.represents hbelow).congr fun i hi => by
      rw [natCast_eq_iff.2 (hvalues i hi), evalAt_cast g hi]
  obtain ⟨hlt, hcast⟩ := hwords.invnttWords.ofList
  refine ⟨_, exec_invntt_of_ntt d htag, ?_⟩
  rw [poly_setSlot_self]
  refine ⟨hlt, fun j hj => natCast_eq_iff.1 ?_⟩
  rw [hcast j hj, Nat.cast_mul, Nat.cast_pow, Nat.cast_ofNat]

end Sys2Proof.Machine
end

section
/-! PROOFS. Multiplication in Z_Q[X]/(X^256 + 1) by four commands (40_ring.md R115): what each leaves in a slot modulo Q,
and the transform of a negacyclic product. -/

namespace Sys2Proof.Machine

/-! ## The transform of a negacyclic product -/

/-- The evaluation points are roots of X^256 + 1. -/
theorem point_pow_256 (i : Nat) : point i ^ 256 = -1 := by
  rw [point, pow_right_comm, root_pow_256]
  exact Odd.neg_one_pow ⟨brv8 i, rfl⟩

/-- A product of two coefficients lands on one power of a root of X^256 + 1, with the sign of the wrap. -/
theorem sum_wrapped {x : ZMod Q} (hx : x ^ 256 = -1) (c : ZMod Q) {i j : Nat} (hi : i < 256) (hj : j < 256) :
    ∑ k ∈ Finset.range 256, (if i + j = k then c else if i + j = k + 256 then -c else 0) * x ^ k = c * x ^ (i + j) := by
  by_cases hlow : i + j < 256
  · rw [Finset.sum_eq_single (i + j)]
    · rw [if_pos rfl]
    · intro k _ hk
      rw [if_neg hk.symm, if_neg (by omega), zero_mul]
    · intro h
      exact absurd (Finset.mem_range.2 hlow) h
  · obtain ⟨m, hm⟩ : ∃ m, i + j = m + 256 := ⟨i + j - 256, by omega⟩
    rw [hm, Finset.sum_eq_single m]
    · rw [if_neg (by omega), if_pos rfl, pow_add, hx]
      ring
    · intro k hk hne
      have hk := Finset.mem_range.1 hk
      rw [if_neg (by omega), if_neg (by omega), zero_mul]
    · intro h
      exact absurd (Finset.mem_range.2 (by omega)) h

/-- R22: evaluation at the points turns the negacyclic product into the product of the values. -/
theorem transform_negacyclic (f g : Nat → Nat) {n : Nat} (hn : n < 256) :
    transform (fun k => (negacyclic f g k : ZMod Q)) n =
      transform (fun i => (f i : ZMod Q)) n * transform (fun j => (g j : ZMod Q)) n := by
  have hcast (k : Nat) : (negacyclic f g k : ZMod Q) = ∑ i ∈ Finset.range 256, ∑ j ∈ Finset.range 256,
      if i + j = k then (f i : ZMod Q) * g j else if i + j = k + 256 then -((f i : ZMod Q) * g j) else 0 := by
    rw [negacyclic]
    push_cast
    rfl
  rw [transform_eq _ hn, transform_eq _ hn, transform_eq _ hn, Finset.sum_mul_sum]
  simp only [hcast, Finset.sum_mul]
  rw [Finset.sum_comm]
  refine Finset.sum_congr rfl fun i hi => ?_
  rw [Finset.sum_comm]
  refine Finset.sum_congr rfl fun j hj => ?_
  rw [sum_wrapped (point_pow_256 n) _ (Finset.mem_range.1 hi) (Finset.mem_range.1 hj), pow_add]
  ring

/-! ## What a slot holds modulo Q -/

/-- Slot `k` is tagged `tag`, its words are below `b` and are the residues `a`. -/
structure Holds (s : State) (k : Slot) (tag : Tag) (b : Nat) (a : Nat → ZMod Q) : Prop where
  tag : s.tag k.toNat = tag
  below : (s.poly k.toNat).Below b
  cast : ∀ i < 256, ((s.poly k.toNat).nat i : ZMod Q) = a i

section
variable {s t : State} {d e k : Slot} {b : Nat} {f g : Nat → ZMod Q}

/-- A slot outside the frame of a command still holds what it held. -/
theorem Holds.of_frame {tag : Tag} (h : Holds s k tag b f) (hframe : Frame s t [d.toNat]) (hne : d ≠ k) :
    Holds t k tag b f := by
  have hk : k.toNat ∉ [d.toNat] := by
    rw [List.mem_singleton]
    exact fun h => hne (BitVec.eq_of_toNat_eq h.symm)
  obtain ⟨hpoly, htag⟩ := hframe.1.slots k.toNat hk
  exact ⟨htag.trans h.tag, hpoly ▸ h.below, hpoly ▸ h.cast⟩

theorem Holds.ntt (h : Holds s k .std b f) (hb : b + 16 * Q ≤ 2 ^ 32) (d : Slot) :
    ∃ t, exec (.ntt d k) s = .next t ∧ Frame s t [d.toNat] ∧ Holds t d .ntt (b + 16 * Q) (transform f) := by
  have hwords : Represents (s.poly k.toNat).words b f := (Poly.represents h.below).congr h.cast
  refine ⟨_, exec_ntt_of_std d h.tag, Frame.setSlot .., tag_setSlot_self .., ?_, ?_⟩ <;> rw [poly_setSlot_self]
  · exact (hwords.nttWords hb).ofList.1
  · exact (hwords.nttWords hb).ofList.2

/-- PWMUL multiplies the residues, times 2^(-32), within the bound of `mul_le_of_lt_22Q`. -/
theorem Holds.pwmul (hf : Holds s k .ntt b f) (hg : Holds s e .ntt b g) (hb : b ≤ 22 * Q) {c : ZMod Q}
    (hc : 2 ^ 32 * c = 1) (d : Slot) :
    ∃ t, exec (.pwmul d k e) s = .next t ∧ Holds t d .ntt (2 * Q) fun i => c * (f i * g i) := by
  have hword (i : Nat) (hi : i < 256) :
      (mulMr ((s.poly k.toNat).word i) ((s.poly e.toNat).word i)).toNat < 2 * Q ∧
      ((mulMr ((s.poly k.toNat).word i) ((s.poly e.toNat).word i)).toNat : ZMod Q) = c * (f i * g i) := by
    obtain ⟨hlt, hmod⟩ := mr_spec (mul_le_of_lt_22Q ((hf.below i hi).trans_le hb) ((hg.below i hi).trans_le hb))
    refine ⟨hlt, ?_⟩
    have hcast := natCast_eq_iff.2 hmod
    rw [Nat.cast_mul, Nat.cast_mul, Nat.cast_pow, Nat.cast_ofNat, ← Poly.nat, ← Poly.nat, hf.cast i hi, hg.cast i hi]
      at hcast
    rw [← hcast, mulMr, Poly.nat, Poly.nat]
    linear_combination (-((mr _).toNat : ZMod Q)) * hc
  refine ⟨_, exec_pwmul_of_ntt d hf.tag hg.tag, tag_setSlot_self .., ?_, ?_⟩ <;> rw [poly_setSlot_self]
  · intro i hi
    rw [Poly.word_zipWords mulMr _ _ hi]
    exact (hword i hi).1
  · intro i hi
    rw [Poly.nat, Poly.word_zipWords mulMr _ _ hi]
    exact (hword i hi).2

theorem Holds.invntt (h : Holds s k .ntt (2 * Q) (transform f)) (d : Slot) :
    ∃ t, exec (.invntt d k) s = .next t ∧ Holds t d .std (2 * Q) fun i => 2 ^ 32 * f i := by
  have hwords : Represents (s.poly k.toNat).words (2 * Q) (transform f) := (Poly.represents h.below).congr h.cast
  refine ⟨_, exec_invntt_of_ntt d h.tag, tag_setSlot_self .., ?_, ?_⟩ <;> rw [poly_setSlot_self]
  · exact hwords.invnttWords.ofList.1
  · exact hwords.invnttWords.ofList.2

end

/-- The transform is linear. -/
theorem transform_const_mul (c : ZMod Q) (a : Nat → ZMod Q) {n : Nat} (hn : n < 256) :
    transform (fun k => c * a k) n = c * transform a n := by
  rw [transform_eq _ hn, transform_eq _ hn, Finset.mul_sum]
  exact Finset.sum_congr rfl fun _ _ => mul_assoc ..

/-- Settles O14: PWMUL leaves 2^(-32) times the transform of the negacyclic product, and INVNTT restores the factor. -/
theorem fourCommandsMultiply : Obligations.FourCommandsMultiply := by
  unfold Obligations.FourCommandsMultiply
  intro s f g fh gh p r hfg hfgh hftag hgtag hf hg
  obtain ⟨c, hc⟩ := isUnit_two_pow_32.exists_right_inv
  have hbound : 2 * Q + 16 * Q ≤ 2 ^ 32 := by decide
  have hF : Holds s f .std (2 * Q) fun i => ((s.poly f.toNat).nat i : ZMod Q) := ⟨hftag, hf, fun _ _ => rfl⟩
  have hG : Holds s g .std (2 * Q) fun i => ((s.poly g.toNat).nat i : ZMod Q) := ⟨hgtag, hg, fun _ _ => rfl⟩
  obtain ⟨t, ht, hframe, hFt⟩ := hF.ntt hbound fh
  obtain ⟨u, hu, hframe', hGu⟩ := (hG.of_frame hframe hfg).ntt hbound gh
  obtain ⟨v, hv, hproduct⟩ := (hFt.of_frame hframe' hfgh.symm).pwmul hGu (by decide) hc p
  have htransform : Holds v p .ntt (2 * Q) (transform fun k =>
      c * (negacyclic (s.poly f.toNat).nat (s.poly g.toNat).nat k : ZMod Q)) := by
    refine ⟨hproduct.tag, hproduct.below, fun n hn => ?_⟩
    rw [hproduct.cast n hn, transform_const_mul _ _ hn, transform_negacyclic _ _ hn]
  obtain ⟨x, hx, hresult⟩ := htransform.invntt r
  refine ⟨t, u, v, x, ht, hu, hv, hx, hresult.tag, fun k hk => ?_⟩
  rw [← ZMod.intCast_eq_intCast_iff', Int.cast_natCast, hresult.cast k hk, ← mul_assoc, hc, one_mul]

end Sys2Proof.Machine
end
